-- ==== Sys2Proof/Word.lean ====
section
/-! DEFINITION. The value types of the spec (00_scope.md rule R9). Every value is unsigned. -/

namespace Sys2Proof

/-- A Byte: an unsigned 8-bit value (R9). -/
abbrev Byte := BitVec 8

/-- A Half: an unsigned 16-bit value (R9); a CRC, a register address, a quantity, a register value. -/
abbrev Half := BitVec 16

/-- A length register: 9 bits, so that it can hold 256 (10_state.md R39 to R41, R44; D29). -/
abbrev Len := BitVec 9

/-- A word of the host bus: 32 bits (20_memory.md R61). -/
abbrev Word := BitVec 32

end Sys2Proof
end

