-- ==== Sys2Proof/Syntax.lean ====
section
/-! DEFINITION. The commands of the block (30_encoding.md rule R94), one constructor per row of the opcode table. The
"instructions" of this hardware are its commands (00_scope.md rule R12). -/

namespace Sys2Proof

/-- A command. Its only operand in the word is CRC_BYTE's immediate byte; every other operand is a register or a buffer
byte (R90, R92, R93). The 245 unassigned opcodes have no row in the table and are no constructor (log 7). -/
inductive Instr where
  /-- CRC_INIT: the CRC register to its initial value (40_crc.md R115). -/
  | crcInit
  /-- CRC_BYTE b: one byte into the CRC register (R116). -/
  | crcByte (b : Byte)
  /-- CRC_TX: the CRC of the TX buffer's valid bytes (R117). -/
  | crcTx
  /-- CRC_RX: the CRC of the RX buffer's valid bytes (R118). -/
  | crcRx
  /-- VERIFY_RX: the check of the RX buffer's trailing CRC (R119). -/
  | verifyRx
  /-- ENC_RAW: frame a payload of the host's own (41_encode.md R144). -/
  | encRaw
  /-- ENC_RHR: Read Holding Registers request, function 0x03 (R146). -/
  | encRhr
  /-- ENC_RIR: Read Input Registers request, function 0x04 (R147). -/
  | encRir
  /-- ENC_WSR: Write Single Register request, function 0x06 (R149). -/
  | encWsr
  /-- ENC_WMR: Write Multiple Registers request, function 0x10 (R150). -/
  | encWmr
  /-- DECODE: validate the response in the RX buffer (42_decode.md R181). -/
  | decode
deriving DecidableEq, Repr

end Sys2Proof
end

