-- ==== Sys2Proof/WellFormed.lean ====
section
/-! DEFINITION. Well-formedness. A command of type Instr leaves nothing to check: CRC_BYTE's operand is a byte by its type
and no other command has one. What software can get wrong is the command WORD, whose reserved field it should write as 0
(30_encoding.md rule R99); the checks on a host program's lines are `Line.wf` of Machine/Asm.lean. -/

namespace Sys2Proof

/-- Every command is well formed: IMM8 takes all of its 256 values (30_encoding.md R92) and nothing else stands in the
word. -/
def Instr.WellFormed : Instr → Bool
  | .crcInit => true
  | .crcByte _ => true
  | .crcTx => true
  | .crcRx => true
  | .verifyRx => true
  | .encRaw => true
  | .encRhr => true
  | .encRir => true
  | .encWsr => true
  | .encWmr => true
  | .decode => true

/-- A command word as software should write it: the reserved bits [31:16] are 0 (R99). The block itself ignores them. -/
def cmdWordWellFormed (w : Word) : Bool := w.extractLsb' 16 16 == 0#16

end Sys2Proof
end

