-- ==== Sys2Proof/Decode.lean ====
section
/-! DEFINITION. The command decoder and the encoder (30_encoding.md rules R90 to R100). -/

namespace Sys2Proof

/-- What a command word decodes to: a command of the table, or, by name, an illegal command (R100). -/
inductive Decoded where
  /-- One of the eleven commands of R94. -/
  | command (i : Instr)
  /-- ILLEGAL(op): an unassigned opcode (R95). -/
  | illegal (op : Byte)
deriving DecidableEq, Repr

/-- The opcode map (R94) on the latched pair (OP, IMM8). Only CRC_BYTE reads IMM8 (R92). Total (R100). -/
def decodeOp (op imm8 : Byte) : Decoded :=
  if op = 0x01#8 then .command .crcInit
  else if op = 0x02#8 then .command (.crcByte imm8)
  else if op = 0x03#8 then .command .crcTx
  else if op = 0x04#8 then .command .crcRx
  else if op = 0x05#8 then .command .verifyRx
  else if op = 0x10#8 then .command .encRaw
  else if op = 0x11#8 then .command .encRhr
  else if op = 0x12#8 then .command .encRir
  else if op = 0x13#8 then .command .encWsr
  else if op = 0x14#8 then .command .encWmr
  else if op = 0x20#8 then .command .decode
  else .illegal op

/-- The OP field, bits [7:0] (R90). -/
def opField (w : Word) : Byte := w.extractLsb' 0 8

/-- The IMM8 field, bits [15:8] (R90). -/
def immField (w : Word) : Byte := w.extractLsb' 8 8

/-- A command word: bits [31:16] are ignored (R99). -/
def decodeWord (w : Word) : Decoded := decodeOp (opField w) (immField w)

/-- The opcode of a command (R94). -/
def opcode : Instr → Byte
  | .crcInit => 0x01#8
  | .crcByte _ => 0x02#8
  | .crcTx => 0x03#8
  | .crcRx => 0x04#8
  | .verifyRx => 0x05#8
  | .encRaw => 0x10#8
  | .encRhr => 0x11#8
  | .encRir => 0x12#8
  | .encWsr => 0x13#8
  | .encWmr => 0x14#8
  | .decode => 0x20#8

/-- The immediate byte of a command, 0 where it has none (R92, R98; log 13). -/
def immediate : Instr → Byte
  | .crcByte b => b
  | .crcInit | .crcTx | .crcRx | .verifyRx => 0#8
  | .encRaw | .encRhr | .encRir | .encWsr | .encWmr => 0#8
  | .decode => 0#8

/-- The encoder: the one word of a command, `(imm8 << 8) | op`, reserved bits 0 (R90, R98, R99). -/
def encode (i : Instr) : Word := ((immediate i).setWidth 32 <<< 8) ||| (opcode i).setWidth 32

/-- The decoder on a word numbered as the opcode table numbers it: the one CMD word, whose bits the host bus moves whole
(20_memory.md R74), so there is no byte order to undo. -/
def decodeTableWord (nbits w : Nat) : Option Instr :=
  match decodeWord (BitVec.ofNat 32 (w % 2 ^ nbits)) with
  | .command i => some i
  | .illegal _ => none

end Sys2Proof
end

