-- ==== Sys2Proof/Config.lean ====
section
/-! DEFINITION. The parameters of the block (00_scope.md rule R7) and the free values, which have no body. -/

namespace Sys2Proof.Config

/-- `MAX_FRAME`: bytes in each frame buffer and the largest frame (R7). -/
def maxFrame : Nat := 256

/-- The largest slave address accepted (R7, 41_encode.md R142). -/
def maxSlave : Nat := 247

/-- The largest register count of a read request (R7, 41_encode.md R145). -/
def maxReadQty : Nat := 125

/-- The largest register count of a multi-register write (R7, 41_encode.md R148). -/
def maxWriteQty : Nat := 123

/-- The number of 16-bit register addresses: ADDR + QTY may not exceed it (41_encode.md R145, R148). -/
def regSpace : Nat := 0x10000

/-- The two values of `P_EXC_FUNC_MATCH` (R7, 42_decode.md R176). -/
inductive ExcFuncMatch where
  /-- An exception frame must echo the expected function code in its low 7 bits. -/
  | strict
  /-- Bit 7 of the function byte alone routes; no comparison is made. -/
  | bit7Only
deriving DecidableEq, Repr

/-- This hardware is `STRICT` (R7, R176; log 6). -/
def excFuncMatch : ExcFuncMatch := .strict

/-- FREE VALUE: how many clock cycles beyond the first the command issued at draw `k` takes, so that `P_LAT` is this
plus 1: finite and at least 1 (30_encoding.md R91, R7; log 2). -/
opaque latencyExtra : Nat → Nat

/-- FREE VALUE: what the read at draw `k` of a register or buffer byte returns while BUSY, before it is cut to the
register's width (20_memory.md R70; log 3). -/
opaque busyRead : Nat → BitVec 32

/-- FREE VALUE: TX byte `i` after the reset of draw `k`, until it is written (70_reset_and_hazards.md R231; log 4). -/
opaque txInit : Nat → Nat → BitVec 8

/-- FREE VALUE: RX byte `i` after the reset of draw `k`, until it is written (70_reset_and_hazards.md R231; log 4). -/
opaque rxInit : Nat → Nat → BitVec 8

end Sys2Proof.Config
end

