-- ==== Sys2Proof/Machine/State.lean ====
section
/-! DEFINITION. The state of the block (10_state.md rule R21), plain data, and the state right after reset. -/

namespace Sys2Proof.Machine

/-- `EST`, the engine state (10_state.md R23): IDLE, or BUSY with the opcode and immediate of the command in flight. -/
inductive Engine where
  /-- No command in flight. -/
  | idle
  /-- A command in flight, as latched from the CMD word. -/
  | busy (op imm8 : Byte)
deriving DecidableEq, Repr

/-- `STATUS.KIND`, the outcome kind of the last completed command (10_state.md R31). -/
inductive Kind where
  /-- 0, OK: succeeded, not a frame decode. -/
  | ok
  /-- 1, DATA: DECODE validated a normal response. -/
  | data
  /-- 2, EXCEPTION: DECODE validated an exception response. -/
  | exception
  /-- 3, FAILED: the command failed. -/
  | failed
deriving DecidableEq, Repr

/-- `STATUS.ERR`, the error code of the last completed command (10_state.md R32, 60_exceptions.md R200). -/
inductive Err where
  /-- 0, NONE. -/
  | noError
  /-- 1, TOO_SHORT. -/
  | tooShort
  /-- 2, CHECKSUM_MISMATCH. -/
  | checksumMismatch
  /-- 3, SLAVE_MISMATCH. -/
  | slaveMismatch
  /-- 4, FUNCTION_MISMATCH. -/
  | functionMismatch
  /-- 5, PAYLOAD_LENGTH_MISMATCH. -/
  | payloadLengthMismatch
  /-- 6, ARGUMENT_INVALID. -/
  | argumentInvalid
  /-- 7, ILLEGAL_COMMAND. -/
  | illegalCommand
deriving DecidableEq, Repr

/-- A bus transaction (20_memory.md R61, R62), with the 10-bit word address `paddr` of the port. -/
inductive Txn where
  /-- MemRead(paddr * 4, 4). -/
  | read (paddr : BitVec 10)
  /-- MemWrite(paddr * 4, 4, v). -/
  | write (paddr : BitVec 10) (v : Word)
deriving DecidableEq, Repr

/-- What the outside world does next (log 1). -/
inductive Input where
  /-- A rising edge of `clk`, with the transaction that takes place at it, if any. -/
  | edge (bus : Option Txn)
  /-- The pseudo-instruction POLL (30_encoding.md R98): a read of STATUS at each edge until BUSY reads 0 (log 12). -/
  | poll
  /-- A change of the level on `rst_n`, between edges (70_reset_and_hazards.md R230). -/
  | rst (level : Bool)
deriving DecidableEq, Repr

/-- A frame buffer: the bytes written since the last reset, by index, indices rising (log 4). -/
abbrev Memory := List Host.Cell

/-- The state: the spec's own (10_state.md R21), the port, and the model's own last four fields. -/
structure State where
  /-- EST (R23). -/
  est : Engine
  /-- STATUS.OVR (R28). -/
  ovr : Bool
  /-- STATUS.CRCOK (R29). -/
  crcok : Bool
  /-- STATUS.NORESP (R30). -/
  noresp : Bool
  /-- STATUS.KIND (R31). -/
  kind : Kind
  /-- STATUS.ERR (R32). -/
  err : Err
  /-- CRC (R33). -/
  crc : Half
  /-- SLAVE (R34). -/
  slave : Byte
  /-- FUNC (R35). -/
  func : Byte
  /-- ADDR (R36). -/
  addr : Half
  /-- QTY (R37). -/
  qty : Half
  /-- VALUE (R38). -/
  value : Half
  /-- PLEN (R39). -/
  plen : Len
  /-- TXLEN (R40). -/
  txlen : Len
  /-- RXLEN (R41). -/
  rxlen : Len
  /-- RFUNC (R42). -/
  rfunc : Byte
  /-- EXCODE (R43). -/
  excode : Byte
  /-- RPLEN (R44). -/
  rplen : Len
  /-- RCOUNT (R45). -/
  rcount : Byte
  /-- The TX buffer (R47). -/
  tx : Memory
  /-- The RX buffer (R48). -/
  rx : Memory
  /-- The level on the pin rst_n (20_memory.md R61). -/
  rstN : Bool
  /-- rst_n has been sampled 1 since its last 0, so transactions take effect (70_reset_and_hazards.md R230; log 8). -/
  live : Bool
  /-- prdata where the last event was a read, none where it is not valid (20_memory.md R61; log 9). -/
  prdata : Option Word
  /-- MODEL's own: what the outside world does next (log 1). -/
  inputs : List Input
  /-- MODEL's own: clock edges left until the command in flight completes (log 2). -/
  latency : Nat
  /-- MODEL's own: the number of the next free value (log 5). -/
  draws : Nat
  /-- MODEL's own: the draw that filled the buffers at the last reset (log 5). -/
  seed : Nat
deriving DecidableEq, Repr

/-- Faults. The block never traps and never halts (60_exceptions.md R204): a failing command completes. So there is no
fault, and nothing raises one: safe, since no claim rests on a stop. -/
inductive Fault where
deriving DecidableEq, Repr

/-- Refusals. -/
inductive Refusal where
  /-- An instruction without a meaning in this model. Nothing raises it: every command has its meaning. Safe. -/
  | notModelled (mnemonic : String)
deriving DecidableEq, Repr

/-- What a command's completion or a step answers. -/
abbrev Result := Host.Outcome State Fault Refusal

/-- The machine right after reset: every register at the value of 10_state.md R24 (CRC 0xFFFF, every other 0), the engine
idle (70_reset_and_hazards.md R230, R232), no buffer byte listed (R231; log 4), rst_n sampled 1, nothing to come. -/
def State.reset : State where
  est := .idle
  ovr := false
  crcok := false
  noresp := false
  kind := .ok
  err := .noError
  crc := 0xFFFF#16
  slave := 0#8
  func := 0#8
  addr := 0#16
  qty := 0#16
  value := 0#16
  plen := 0#9
  txlen := 0#9
  rxlen := 0#9
  rfunc := 0#8
  excode := 0#8
  rplen := 0#9
  rcount := 0#8
  tx := []
  rx := []
  rstN := true
  live := true
  prdata := none
  inputs := []
  latency := 0
  draws := 1
  seed := 0

end Sys2Proof.Machine
end

