-- ==== Sys2Proof/Machine/Ops.lean ====
section
/-! DEFINITION. The shared operations: bytes of words, the frame buffers, the register updates, the completion of a
command (30_encoding.md rule R96), and reset (70_reset_and_hazards.md rules R230, R231). -/

namespace Sys2Proof.Machine

/-! ## Bytes of 16-bit values -/

/-- `v[7:0]` of a Half (00_scope.md R8). -/
def loByte (v : Half) : Byte := v.extractLsb' 0 8

/-- `v[15:8]` of a Half (R8). -/
def hiByte (v : Half) : Byte := v.extractLsb' 8 8

/-- `zext_16(lo) | (zext_16(hi) << 8)`, the Half of two bytes. -/
def halfOf (lo hi : Byte) : Half := lo.setWidth 16 ||| (hi.setWidth 16 <<< 8)

/-! ## Frame buffers (log 4) -/

/-- The byte listed at index `i`, none where nothing has written it since reset. -/
def Memory.read? : Memory → Nat → Option Byte
  | [], _ => none
  | (a, b) :: m, i => if a = i then some b else Memory.read? m i

/-- Write byte `i`, keeping the indices rising and each index once. -/
def Memory.write : Memory → Nat → Byte → Memory
  | [], i, v => [(i, v)]
  | (a, b) :: m, i, v =>
    if i < a then (i, v) :: (a, b) :: m
    else if i = a then (i, v) :: m
    else (a, b) :: Memory.write m i v

/-- Write the bytes `bs` at the indices from `i` on. -/
def Memory.writeFrom : Memory → Nat → List Byte → Memory
  | m, _, [] => m
  | m, i, b :: bs => Memory.writeFrom (Memory.write m i b) (i + 1) bs

/-- The canonical form: indices strictly rising, and each one of the buffer's `MAX_FRAME` bytes (10_state.md R47, R48). -/
def Memory.wf : Memory → Bool
  | [] => true
  | [(a, _)] => decide (a < Config.maxFrame)
  | (a, _) :: (a', b') :: m => decide (a < a') && Memory.wf ((a', b') :: m)

/-- `TX[i]`: the byte written there, or the free value fixed at the last reset (R47, R231). -/
def State.txByte (s : State) (i : Nat) : Byte := (Memory.read? s.tx i).getD (Config.txInit s.seed i)

/-- `RX[i]` (R48, R231). -/
def State.rxByte (s : State) (i : Nat) : Byte := (Memory.read? s.rx i).getD (Config.rxInit s.seed i)

/-- `TX[lo..lo+n)` (00_scope.md R9). -/
def State.txBytes (s : State) (lo n : Nat) : List Byte := (List.range' lo n).map s.txByte

/-- `RX[lo..lo+n)` (R9). -/
def State.rxBytes (s : State) (lo n : Nat) : List Byte := (List.range' lo n).map s.rxByte

/-- `TX[i..i+|bs|) <- bs`. -/
def State.writeTx (s : State) (i : Nat) (bs : List Byte) : State := { s with tx := Memory.writeFrom s.tx i bs }

/-- `RX[i..i+|bs|) <- bs`; only the host writes RX (10_state.md R48). -/
def State.writeRx (s : State) (i : Nat) (bs : List Byte) : State := { s with rx := Memory.writeFrom s.rx i bs }

/-! ## Register updates of the commands -/

/-- The implied first statements of every command rule: `CRCOK <- 0; NORESP <- 0` (30_encoding.md R96). -/
def State.beginCommand (s : State) : State := { s with crcok := false, noresp := false }

/-- `KIND <- k; ERR <- e; EST <- IDLE`, the last statements of every command rule (R96). OVR is never written. -/
def State.setOutcome (s : State) (k : Kind) (e : Err) : State := { s with kind := k, err := e, est := .idle }

/-- `CRC <- c` (10_state.md R33). -/
def State.setCrc (s : State) (c : Half) : State := { s with crc := c }

/-- `STATUS.CRCOK <- b` (R29). -/
def State.setCrcok (s : State) (b : Bool) : State := { s with crcok := b }

/-- `FUNC <- f`, by the packing encoders (R35). -/
def State.setFunc (s : State) (f : Byte) : State := { s with func := f }

/-- The registers of the common success effects of the encoders (41_encode.md R143): TXLEN, CRC, RXLEN and NORESP. -/
def State.setFramed (s : State) (len : Nat) (c : Half) : State :=
  { s with txlen := BitVec.ofNat 9 len, crc := c, rxlen := 0#9, noresp := decide (s.slave = 0#8) }

/-- `RFUNC, EXCODE, RPLEN, RCOUNT <- 0`, the first statements of DECODE (42_decode.md R181, D22). -/
def State.clearResults (s : State) : State := { s with rfunc := 0#8, excode := 0#8, rplen := 0#9, rcount := 0#8 }

/-- `RFUNC <- f; RPLEN <- n`, once DECODE's length check has passed (10_state.md R42, R44). -/
def State.setExamined (s : State) (f : Byte) (n : Nat) : State := { s with rfunc := f, rplen := BitVec.ofNat 9 n }

/-- `EXCODE <- e` (R43). -/
def State.setExcode (s : State) (e : Byte) : State := { s with excode := e }

/-- `RCOUNT <- n` (R45). -/
def State.setRcount (s : State) (n : Byte) : State := { s with rcount := n }

/-! ## Completion of a command (R96): the block's counterpart of taking an exception and returning from it -/

/-- `complete(k)`: success with outcome kind `k`, ERR = 0, the engine idle. -/
def complete (k : Kind) (s : State) : Result := .next (s.setOutcome k .noError)

/-- `raise Fail(e)`: KIND = FAILED, ERR = e, the engine idle. The block does not trap: this is a next state (60_exceptions.md
R204), and the writes made before it stay. -/
def raise (e : Err) (s : State) : Result := .next (s.setOutcome .failed e)

/-! ## The engine and reset -/

/-- `STATUS.BUSY`: 1 exactly when EST is BUSY (10_state.md R27). -/
def State.busy (s : State) : Bool :=
  match s.est with
  | .idle => false
  | .busy _ _ => true

/-- Issue of a command: `EST <- BUSY(op, imm8)`, to complete after `P_LAT` edges, a free number of at least 1
(30_encoding.md R91; log 2). -/
def State.issue (s : State) (op imm8 : Byte) : State :=
  { s with est := .busy op imm8, latency := Config.latencyExtra s.draws + 1, draws := s.draws + 1 }

/-- Held in reset: the engine idle and every register at its reset value; the buffers, the pins and what is to come stay
(70_reset_and_hazards.md R230, R231). -/
def State.holdReset (s : State) : State :=
  { State.reset with
    tx := s.tx, rx := s.rx, rstN := s.rstN, live := s.live, prdata := s.prdata, inputs := s.inputs, draws := s.draws,
    seed := s.seed }

/-- Assertion of rst_n, at once (it is asynchronous): the command in flight is abandoned, the registers are reset, and every
buffer byte becomes a new free value, which may or may not be the one it held (R230, R231; log 4). -/
def State.assertReset (s : State) : State :=
  { s.holdReset with
    tx := [], rx := [], seed := s.draws, draws := s.draws + 1, rstN := false, live := false, prdata := none }

/-- Release of rst_n: the pin rises; the block leaves reset only where a rising edge samples it (R230; log 8). -/
def State.releaseReset (s : State) : State := { s with rstN := true, prdata := none }

end Sys2Proof.Machine
end

