-- ==== Sys2Proof/Machine/Flags.lean ====
section
/-! DEFINITION. The flags of the block: the fields of STATUS (10_state.md rules R26 to R32, R49) and the word they make. -/

namespace Sys2Proof.Machine

/-- The KIND field's bits (10_state.md R31). -/
def Kind.bits : Kind → BitVec 2
  | .ok => 0#2
  | .data => 1#2
  | .exception => 2#2
  | .failed => 3#2

/-- The ERR field's code (60_exceptions.md R200). -/
def Err.code : Err → BitVec 4
  | .noError => 0#4
  | .tooShort => 1#4
  | .checksumMismatch => 2#4
  | .slaveMismatch => 3#4
  | .functionMismatch => 4#4
  | .payloadLengthMismatch => 5#4
  | .argumentInvalid => 6#4
  | .illegalCommand => 7#4

/-- The STATUS word: ERR in [11:8], KIND in [5:4], NORESP, CRCOK, OVR and BUSY in bits 3 to 0, every other bit 0
(10_state.md R26). -/
def State.statusWord (s : State) : Word :=
  0#20 ++ s.err.code ++ 0#2 ++ s.kind.bits ++ BitVec.ofBool s.noresp ++ BitVec.ofBool s.crcok ++ BitVec.ofBool s.ovr
    ++ BitVec.ofBool s.busy

/-- A host write to STATUS: bit 1 clears OVR where it is 1, nothing else happens (R28; write 1 to clear). -/
def State.writeStatus (s : State) (v : Word) : State := if v.getLsbD 1 then { s with ovr := false } else s

/-- A host write dropped because BUSY was 1 (R28, 20_memory.md R69). -/
def State.overrun (s : State) : State := { s with ovr := true }

end Sys2Proof.Machine
end

