-- ==== Sys2Proof/Machine/Bus.lean ====
section
/-! DEFINITION. The host bus: the register file as the host sees it (10_state.md rule R24), the address map, and bus
transactions (20_memory.md rules R61 to R70). -/

namespace Sys2Proof.Machine

/-- The names of the register file (10_state.md R24), in the order of their offsets. -/
inductive Reg where
  | cmd | status | crc | slave | func | addr | qty | value | plen | txlen | rxlen | rfunc | excode | rplen | rcount
deriving DecidableEq, Repr

/-- A register's access (R24). -/
inductive Access where
  /-- Write-only: CMD. -/
  | wo
  /-- Read-only, bit 1 cleared by writing 1: STATUS. -/
  | w1c
  /-- Read and write. -/
  | rw
  /-- Read-only: host writes are ignored. -/
  | ro
deriving DecidableEq, Repr

/-- The access column of R24. -/
def Reg.access : Reg → Access
  | .cmd => .wo
  | .status => .w1c
  | .crc | .slave | .func | .addr | .qty | .value | .plen | .txlen | .rxlen => .rw
  | .rfunc | .excode | .rplen | .rcount => .ro

/-- The width column of R24; STATUS uses 12 bits. -/
def Reg.width : Reg → Nat
  | .cmd => 32
  | .status => 12
  | .crc | .addr | .qty | .value => 16
  | .slave | .func | .rfunc | .excode | .rcount => 8
  | .plen | .txlen | .rxlen | .rplen => 9

/-- The offset column of R24, as the word address `paddr` (offset / 4). -/
def Reg.paddr : Reg → BitVec 10
  | .cmd => 0#10
  | .status => 1#10
  | .crc => 2#10
  | .slave => 3#10
  | .func => 4#10
  | .addr => 5#10
  | .qty => 6#10
  | .value => 7#10
  | .plen => 8#10
  | .txlen => 9#10
  | .rxlen => 10#10
  | .rfunc => 11#10
  | .excode => 12#10
  | .rplen => 13#10
  | .rcount => 14#10

/-- What an address selects (20_memory.md R63, R64). -/
inductive Target where
  /-- A register. -/
  | reg (r : Reg)
  /-- TX buffer byte `i`. -/
  | tx (i : Nat)
  /-- RX buffer byte `i`. -/
  | rx (i : Nat)
  /-- A reserved address. -/
  | reserved
deriving DecidableEq, Repr

/-- The register at word index `n`, none where the offset holds no register (10_state.md R24, R46; 0x03C holds none, log 10). -/
def regAt : Nat → Option Reg
  | 0 => some .cmd
  | 1 => some .status
  | 2 => some .crc
  | 3 => some .slave
  | 4 => some .func
  | 5 => some .addr
  | 6 => some .qty
  | 7 => some .value
  | 8 => some .plen
  | 9 => some .txlen
  | 10 => some .rxlen
  | 11 => some .rfunc
  | 12 => some .excode
  | 13 => some .rplen
  | 14 => some .rcount
  | _ => none

/-- Address decoding by the word index `a[11:2]` (20_memory.md R63, R64): byte addresses 0x400..0x7FC are the TX window,
0x800..0xBFC the RX window. -/
def decodeAddr (paddr : BitVec 10) : Target :=
  if paddr.toNat < 256 then
    match regAt paddr.toNat with
    | some r => .reg r
    | none => .reserved
  else if paddr.toNat < 512 then .tx (paddr.toNat - 256)
  else if paddr.toNat < 768 then .rx (paddr.toNat - 512)
  else .reserved

/-- A register's value, zero-extended to the bus (R67); CMD reads 0 (10_state.md R25). -/
def State.regWord (s : State) : Reg → Word
  | .cmd => 0#32
  | .status => s.statusWord
  | .crc => s.crc.setWidth 32
  | .slave => s.slave.setWidth 32
  | .func => s.func.setWidth 32
  | .addr => s.addr.setWidth 32
  | .qty => s.qty.setWidth 32
  | .value => s.value.setWidth 32
  | .plen => s.plen.setWidth 32
  | .txlen => s.txlen.setWidth 32
  | .rxlen => s.rxlen.setWidth 32
  | .rfunc => s.rfunc.setWidth 32
  | .excode => s.excode.setWidth 32
  | .rplen => s.rplen.setWidth 32
  | .rcount => s.rcount.setWidth 32

/-- A host write to a register while BUSY is 0 (R67): a RW register takes `v[w-1:0]`; CMD issues; STATUS clears OVR; a RO
register ignores it (R68). -/
def State.storeReg (s : State) (v : Word) : Reg → State
  | .cmd => s.issue (opField v) (immField v)
  | .status => s.writeStatus v
  | .crc => { s with crc := v.setWidth 16 }
  | .slave => { s with slave := v.setWidth 8 }
  | .func => { s with func := v.setWidth 8 }
  | .addr => { s with addr := v.setWidth 16 }
  | .qty => { s with qty := v.setWidth 16 }
  | .value => { s with value := v.setWidth 16 }
  | .plen => { s with plen := v.setWidth 9 }
  | .txlen => { s with txlen := v.setWidth 9 }
  | .rxlen => { s with rxlen := v.setWidth 9 }
  | .rfunc => s
  | .excode => s
  | .rplen => s
  | .rcount => s

/-- A read judged against a state that is not BUSY (R65 to R68). -/
def State.readTarget (s : State) : Target → Word
  | .reg r => s.regWord r
  | .tx i => (s.txByte i).setWidth 32
  | .rx i => (s.rxByte i).setWidth 32
  | .reserved => 0#32

/-- How many low bits of a read while BUSY are a free value; none where R70 gives the read its exact value. -/
def Target.freeWidth : Target → Option Nat
  | .reg r =>
    match r with
    | .cmd | .status => none
    | _ => some r.width
  | .tx _ => some 8
  | .rx _ => some 8
  | .reserved => none

/-- MemRead (R62, R70): the word, and the state, which a free draw advances and nothing else changes (R76). -/
def State.busRead (s : State) (paddr : BitVec 10) : Word × State :=
  match s.busy, (decodeAddr paddr).freeWidth with
  | true, some w => (((Config.busyRead s.draws).setWidth w).setWidth 32, { s with draws := s.draws + 1 })
  | _, _ => (s.readTarget (decodeAddr paddr), s)

/-- A write to a target while BUSY is 0 (R66, R67). -/
def State.writeTarget (s : State) (v : Word) : Target → State
  | .reg r => s.storeReg v r
  | .tx i => s.writeTx i [v.setWidth 8]
  | .rx i => s.writeRx i [v.setWidth 8]
  | .reserved => s

/-- Whether BUSY drops a write to the target (R69): CMD, the RW registers and the buffer bytes. -/
def Target.dropsWhenBusy : Target → Bool
  | .reg r =>
    match r.access with
    | .wo => true
    | .rw => true
    | .w1c => false
    | .ro => false
  | .tx _ => true
  | .rx _ => true
  | .reserved => false

/-- MemWrite (R69): dropped with OVR set where BUSY is 1 and the target is one BUSY guards. -/
def State.busWrite (s : State) (paddr : BitVec 10) (v : Word) : State :=
  if s.busy && (decodeAddr paddr).dropsWhenBusy then s.overrun else s.writeTarget v (decodeAddr paddr)

/-- The transaction at a clock edge, judged against the state before it (R62). `prdata` is valid only for a read (R61; log 9). -/
def State.transact (s : State) : Option Txn → State
  | none => { s with prdata := none }
  | some (.read a) => { (s.busRead a).2 with prdata := some (s.busRead a).1 }
  | some (.write a v) => { s.busWrite a v with prdata := none }

end Sys2Proof.Machine
end

