-- ==== Sys2Proof/Machine/Clock.lean ====
section
/-! DEFINITION. One event of the outside world: a clock edge with its transaction, a poll, or a change of rst_n, and what it
does apart from completing a command (30_encoding.md rule R91; 60_exceptions.md rule R208; 70_reset_and_hazards.md R230). -/

namespace Sys2Proof.Machine

/-- The transaction at the coming clock edge, none where the coming event is no edge or an edge without one. -/
def State.comingTxn (s : State) : Option Txn :=
  match s.inputs with
  | .edge t :: _ => t
  | .poll :: _ => some (.read Reg.status.paddr)
  | .rst _ :: _ => none
  | [] => none

/-- The coming event is a rising edge of `clk`; with nothing to come the clock goes on. -/
def State.comingEdge (s : State) : Bool :=
  match s.inputs with
  | .rst _ :: _ => false
  | .edge _ :: _ => true
  | .poll :: _ => true
  | [] => true

/-- The block is out of reset: rst_n is 1 and has been sampled 1 (R230; log 8). -/
def State.running (s : State) : Bool := s.rstN && s.live

/-- The command in flight completes at the coming event (R91): it is an edge, the block is out of reset, and the command's
last cycle is at hand. -/
def State.completionDue (s : State) : Bool := s.comingEdge && s.running && s.busy && decide (s.latency ≤ 1)

/-- A command in flight comes one cycle nearer to its completion (R91). -/
def State.tick (s : State) : State := if s.busy then { s with latency := s.latency - 1 } else s

/-- A clock edge while running, apart from a completion: the transaction against the state before the edge (20_memory.md
R62), and the tick of a command that was in flight before it. -/
def State.runningEdge (s : State) (t : Option Txn) : State := if s.busy then (s.transact t).tick else s.transact t

/-- A clock edge in reset (R230): the reset values hold, no transaction takes effect, a read returns 0; the edge samples
rst_n. -/
def State.heldEdge (s : State) (t : Option Txn) : State :=
  { s.holdReset with
    live := s.rstN
    prdata := match t with
      | some (.read _) => some 0#32
      | some (.write _ _) => none
      | none => none }

/-- A clock edge, apart from a completion. -/
def State.clockEdge (s : State) (t : Option Txn) : State := if s.running then s.runningEdge t else s.heldEdge t

/-- The last read returned a word with BUSY = 1, so POLL reads again (30_encoding.md R98). -/
def State.pollsAgain (s : State) : Bool :=
  match s.prdata with
  | some v => v.getLsbD 0
  | none => false

/-- Everything the coming event does, apart from a completion. -/
def State.event (s : State) : State :=
  match s.inputs with
  | [] => s.clockEdge none
  | .edge t :: rest => { s.clockEdge t with inputs := rest }
  | .poll :: rest =>
    let t := s.clockEdge (some (.read Reg.status.paddr))
    { t with inputs := if t.pollsAgain then .poll :: rest else rest }
  | .rst false :: rest => { s.assertReset with inputs := rest }
  | .rst true :: rest => { s.releaseReset with inputs := rest }

end Sys2Proof.Machine
end

