-- ==== Sys2Proof/Machine/Operands.lean ====
section
/-! DEFINITION. The operand checks the commands apply to the registers they read, and the packing of 16-bit operands
(41_encode.md rules R141, R142, R145, R148; 42_decode.md rule R171). -/

namespace Sys2Proof.Machine

/-- The slave check (41_encode.md R142): `SLAVE > 247`. Broadcast, 0, is accepted. -/
def State.slaveInvalid (s : State) : Bool := decide (s.slave.toNat > Config.maxSlave)

/-- `FUNC[7] = 1`: an exception code is no function code (41_encode.md R144, 42_decode.md R171). -/
def State.funcInvalid (s : State) : Bool := s.func.getLsbD 7

/-- ENC_RAW's payload length check: `PLEN > MAX_FRAME - 4` (R144). -/
def State.plenInvalid (s : State) : Bool := decide (s.plen.toNat > Config.maxFrame - 4)

/-- The quantity and range checks with the largest quantity `limit`: `QTY = 0`, `QTY > limit`, or `ADDR + QTY > 0x10000`,
computed without wrap-around (R145, R148). -/
def State.rangeInvalid (s : State) (limit : Nat) : Bool :=
  decide (s.qty.toNat = 0) || decide (s.qty.toNat > limit) || decide (s.addr.toNat + s.qty.toNat > Config.regSpace)

/-- `TXLEN > MAX_FRAME` (40_crc.md R117). -/
def State.txlenInvalid (s : State) : Bool := decide (s.txlen.toNat > Config.maxFrame)

/-- `RXLEN > MAX_FRAME` (40_crc.md R118, R119; 42_decode.md R171). -/
def State.rxlenInvalid (s : State) : Bool := decide (s.rxlen.toNat > Config.maxFrame)

/-- DECODE's operand check (42_decode.md R171). -/
def State.decodeInvalid (s : State) : Bool := s.slaveInvalid || s.funcInvalid || s.rxlenInvalid

/-- `be16(v) = [v[15:8], v[7:0]]`, the big-endian packing (41_encode.md R141, 20_memory.md R73). -/
def be16 (v : Half) : List Byte := [hiByte v, loByte v]

end Sys2Proof.Machine
end

