-- ==== Sys2Proof/Machine/Crc.lean ====
section
/-! DEFINITION. The CRC16 generator and checker: the functions of 40_crc.md rules R110 to R113 and the five CRC commands,
R115 to R119. -/

namespace Sys2Proof.Machine

/-! ## The CRC functions -/

/-- One iteration of the loop: test bit 0, shift right, and XOR with 0xA001 where the tested bit was 1 (R110). -/
def crcShift (c : Half) : Half := if c.getLsbD 0 then (c >>> 1) ^^^ 0xA001#16 else c >>> 1

/-- `k` iterations. -/
def crcShifts : Nat → Half → Half
  | 0, c => c
  | k + 1, c => crcShifts k (crcShift c)

/-- `crc_step(c, b)`: XOR the byte into the low byte, then 8 iterations (R110). -/
def crcStep (c : Half) (b : Byte) : Half := crcShifts 8 (c ^^^ b.setWidth 16)

/-- `crc16(B)`: from 0xFFFF, each byte in order; no final XOR (R111). -/
def crc16 (bs : List Byte) : Half := bs.foldl crcStep 0xFFFF#16

/-- `crc_wire(c) = [c[7:0], c[15:8]]`: low byte first (R112). -/
def crcWire (c : Half) : List Byte := [loByte c, hiByte c]

/-- `verify(B)`: the CRC of all but the last two bytes against those two, low byte first; false for fewer than two bytes
(R113). -/
def verify (bs : List Byte) : Bool :=
  if bs.length < 2 then false
  else crc16 (bs.take (bs.length - 2)) == halfOf (bs.getD (bs.length - 2) 0#8) (bs.getD (bs.length - 1) 0#8)

/-! ## The commands -/

/-- CRC_INIT (R115). -/
def execCrcInit (s : State) : Result := complete .ok (s.beginCommand.setCrc 0xFFFF#16)

/-- CRC_BYTE b (R116): the register's current value is used as it stands (b = 0 on 0x0000: log 14). -/
def execCrcByte (b : Byte) (s : State) : Result := complete .ok (s.beginCommand.setCrc (crcStep s.crc b))

/-- CRC_TX (R117). -/
def execCrcTx (s : State) : Result :=
  if s.txlenInvalid then raise .argumentInvalid s.beginCommand
  else complete .ok (s.beginCommand.setCrc (crc16 (s.txBytes 0 s.txlen.toNat)))

/-- CRC_RX (R118). -/
def execCrcRx (s : State) : Result :=
  if s.rxlenInvalid then raise .argumentInvalid s.beginCommand
  else complete .ok (s.beginCommand.setCrc (crc16 (s.rxBytes 0 s.rxlen.toNat)))

/-- The CRC of `RX[0..n-2)`, which VERIFY_RX and DECODE compute (R119, 42_decode.md R173). -/
def State.rxCrc (s : State) (n : Nat) : Half := crc16 (s.rxBytes 0 (n - 2))

/-- The trailing two bytes of `RX[0..n)`, low byte first (R119, 20_memory.md R72). -/
def State.rxTrailer (s : State) (n : Nat) : Half := halfOf (s.rxByte (n - 2)) (s.rxByte (n - 1))

/-- VERIFY_RX (R119): a failed verification is a result, KIND = OK; below two bytes CRC is unchanged (D21). -/
def execVerifyRx (s : State) : Result :=
  if s.rxlenInvalid then raise .argumentInvalid s.beginCommand
  else if s.rxlen.toNat < 2 then complete .ok (s.beginCommand.setCrcok false)
  else complete .ok ((s.beginCommand.setCrc (s.rxCrc s.rxlen.toNat)).setCrcok
    (s.rxCrc s.rxlen.toNat == s.rxTrailer s.rxlen.toNat))

end Sys2Proof.Machine
end

