-- ==== Sys2Proof/Machine/Encode.lean ====
section
/-! DEFINITION. The ADU frame encoder: 41_encode.md rules R140 to R150. -/

namespace Sys2Proof.Machine

/-- `encodeRequest(s, f, P)`: slave, function, payload, then the CRC, low byte first (R140). -/
def encodeRequest (slave func : Byte) (payload : List Byte) : List Byte :=
  (slave :: func :: payload) ++ crcWire (crc16 (slave :: func :: payload))

/-- Append the CRC of `TX[0..n)` and complete with the common success effects, for a frame of `n + 2` bytes (R143). -/
def sealFrame (n : Nat) (s : State) : Result :=
  complete .ok ((s.writeTx n (crcWire (crc16 (s.txBytes 0 n)))).setFramed (n + 2) (crc16 (s.txBytes 0 n)))

/-- The header bytes `[SLAVE, f] ++ be16(a) ++ be16(v)` of the packing encoders (R146, R147, R149, R150). -/
def packedHeader (slave func : Byte) (a v : Half) : List Byte := [slave, func] ++ be16 a ++ be16 v

/-- A request whose whole frame is a packed header and the CRC: the header in `TX[0..6)`, FUNC, the CRC (R146, R147, R149). -/
def packSix (func : Byte) (v : Half) (s : State) : Result :=
  sealFrame 6 ((s.writeTx 0 (packedHeader s.slave func s.addr v)).setFunc func)

/-- ENC_RAW (R144): the payload stands in `TX[2..2+PLEN)`. -/
def execEncRaw (s : State) : Result :=
  if s.slaveInvalid || s.funcInvalid || s.plenInvalid then raise .argumentInvalid s.beginCommand
  else sealFrame (2 + s.plen.toNat) (s.beginCommand.writeTx 0 [s.slave, s.func])

/-- ENC_RHR (R146), function 0x03. -/
def execEncRhr (s : State) : Result :=
  if s.slaveInvalid || s.rangeInvalid Config.maxReadQty then raise .argumentInvalid s.beginCommand
  else packSix 0x03#8 s.qty s.beginCommand

/-- ENC_RIR (R147), function 0x04. -/
def execEncRir (s : State) : Result :=
  if s.slaveInvalid || s.rangeInvalid Config.maxReadQty then raise .argumentInvalid s.beginCommand
  else packSix 0x04#8 s.qty s.beginCommand

/-- ENC_WSR (R149), function 0x06. -/
def execEncWsr (s : State) : Result :=
  if s.slaveInvalid then raise .argumentInvalid s.beginCommand
  else packSix 0x06#8 s.value s.beginCommand

/-- ENC_WMR (R150), function 0x10: the values stand in `TX[7..7+2*QTY)`; the byte count is `2*QTY`. -/
def execEncWmr (s : State) : Result :=
  if s.slaveInvalid || s.rangeInvalid Config.maxWriteQty then raise .argumentInvalid s.beginCommand
  else sealFrame (7 + 2 * s.qty.toNat)
    ((s.beginCommand.writeTx 0 (packedHeader s.slave 0x10#8 s.addr s.qty ++ [BitVec.ofNat 8 (2 * s.qty.toNat)])).setFunc
      0x10#8)

end Sys2Proof.Machine
end

