-- ==== Sys2Proof/Machine/Parse.lean ====
section
/-! DEFINITION. The ADU frame parser and validator: the command DECODE, 42_decode.md rules R170 to R182. -/

namespace Sys2Proof.Machine

/-! ## The checks, each true where it fails -/

/-- The CRC of `RX[0..n-2)` differs from the trailing two bytes (R173). -/
def State.crcMismatch (s : State) (n : Nat) : Bool := s.rxCrc n != s.rxTrailer n

/-- The slave byte differs from SLAVE; slave 0 is compared like any other (R174). -/
def State.slaveMismatch (s : State) : Bool := s.rxByte 0 != s.slave

/-- Bit 7 of the function byte routes to the exception path (R175). -/
def State.isException (s : State) : Bool := (s.rxByte 1).getLsbD 7

/-- The low 7 bits of the function byte differ from FUNC (R176). -/
def State.echoMismatch (s : State) : Bool := s.rxByte 1 &&& 0x7F#8 != s.func

/-- The function byte differs from FUNC (R178). -/
def State.functionMismatch (s : State) : Bool := s.rxByte 1 != s.func

/-- FUNC is a read function, whose response payload is checked (R179). -/
def State.readFunction (s : State) : Bool := decide (s.func = 0x03#8) || decide (s.func = 0x04#8)

/-- The read-response payload check fails on the byte count `bc` (R179): odd, not the number of bytes that remain, or not
the count requested. -/
def State.byteCountInvalid (s : State) (n : Nat) : Bool :=
  decide ((s.rxByte 2).toNat % 2 = 1) || decide ((s.rxByte 2).toNat ≠ n - 5)
    || decide ((s.rxByte 2).toNat / 2 ≠ s.qty.toNat)

/-! ## The command -/

/-- The exception path (R176, R177): under STRICT the echo of FUNC, then the exception code, which an empty payload lacks. `n`
is the frame's length; the caller has written RFUNC, RPLEN, CRC and CRCOK. -/
def parseException (m : Config.ExcFuncMatch) (n : Nat) (s : State) : Result :=
  if decide (m = .strict) && s.echoMismatch then raise .functionMismatch s
  else if n - 4 = 0 then raise .payloadLengthMismatch s
  else complete .exception (s.setExcode (s.rxByte 2))

/-- The normal path (R178, R179): the function match, and for a read function the payload check. -/
def parseNormal (n : Nat) (s : State) : Result :=
  if s.functionMismatch then raise .functionMismatch s
  else if s.readFunction then
    if n - 4 = 0 then raise .payloadLengthMismatch s
    else if s.byteCountInvalid n then raise .payloadLengthMismatch s
    else complete .data (s.setRcount (BitVec.ofNat 8 ((s.rxByte 2).toNat / 2)))
  else complete .data s

/-- The checks after the length check, in order: CRC, slave, then the routing on bit 7 (R173 to R175). -/
def parseFrame (m : Config.ExcFuncMatch) (n : Nat) (s : State) : Result :=
  if s.crcMismatch n then raise .checksumMismatch s
  else if s.slaveMismatch then raise .slaveMismatch s
  else if s.isException then parseException m n s
  else parseNormal n s

/-- The state once the length check has passed and the CRC is compared: RFUNC, RPLEN, CRC and CRCOK are written (R181). -/
def State.examined (s : State) : State :=
  ((s.beginCommand.clearResults.setExamined (s.rxByte 1) (s.rxlen.toNat - 4)).setCrc (s.rxCrc s.rxlen.toNat)).setCrcok
    (s.rxCrc s.rxlen.toNat == s.rxTrailer s.rxlen.toNat)

/-- DECODE under either reading of `P_EXC_FUNC_MATCH` (R181). -/
def decodeWith (m : Config.ExcFuncMatch) (s : State) : Result :=
  if s.decodeInvalid then raise .argumentInvalid s.beginCommand.clearResults
  else if s.rxlen.toNat < 4 then raise .tooShort s.beginCommand.clearResults
  else parseFrame m s.rxlen.toNat s.examined

/-- DECODE on this hardware (R181, R176: STRICT). -/
def execDecode (s : State) : Result := decodeWith Config.excFuncMatch s

/-- Register value `j` of a read response, big-endian (R180); the host reads it from RX. -/
def State.regValue (s : State) (j : Nat) : Half := halfOf (s.rxByte (4 + 2 * j)) (s.rxByte (3 + 2 * j))

/-- The function code an EXCEPTION outcome reports: `RFUNC & 0x7F` (R182). -/
def State.reportedFunction (s : State) : Byte := s.rfunc &&& 0x7F#8

end Sys2Proof.Machine
end

