-- ==== Sys2Proof/Machine/Dispatch.lean ====
section
/-! DEFINITION. The meaning of each command at its completion step (30_encoding.md rules R91, R94). -/

namespace Sys2Proof.Machine

def exec (i : Instr) (s : State) : Host.Outcome State Fault Refusal :=
  match i with
  | .crcInit => Sys2Proof.Machine.execCrcInit s
  | .crcByte b => Sys2Proof.Machine.execCrcByte b s
  | .crcTx => Sys2Proof.Machine.execCrcTx s
  | .crcRx => Sys2Proof.Machine.execCrcRx s
  | .verifyRx => Sys2Proof.Machine.execVerifyRx s
  | .encRaw => Sys2Proof.Machine.execEncRaw s
  | .encRhr => Sys2Proof.Machine.execEncRhr s
  | .encRir => Sys2Proof.Machine.execEncRir s
  | .encWsr => Sys2Proof.Machine.execEncWsr s
  | .encWmr => Sys2Proof.Machine.execEncWmr s
  | .decode => Sys2Proof.Machine.execDecode s

end Sys2Proof.Machine
end

