-- ==== Sys2Proof/Machine/Illegal.lean ====
section
/-! DEFINITION. The illegal command (30_encoding.md rule R95): the completion of an unassigned opcode. -/

namespace Sys2Proof.Machine

/-- ILLEGAL(op): `raise Fail(ILLEGAL_COMMAND)` whatever the opcode; nothing but STATUS and EST changes (R95). -/
def execIllegal (_op : Byte) (s : State) : Result := raise .illegalCommand s.beginCommand

end Sys2Proof.Machine
end

