-- ==== Sys2Proof/Machine/Step.lean ====
section
/-! DEFINITION. One step of the block: one event of the outside world, and the completion of the command in flight where it
falls due at it. -/

namespace Sys2Proof.Machine

/-- The engine's completion step (30_encoding.md R91): the rule of the latched command, on the state as it then stands. -/
def completePending (s : State) : Result :=
  match s.est with
  | .idle => .next s
  | .busy op imm8 =>
    match decodeOp op imm8 with
    | .command i => exec i s
    | .illegal o => execIllegal o s

/-- One step: the coming event, and after it (20_memory.md R62, 60_exceptions.md R208) the completion that is due. -/
def step (s : State) : Host.Outcome State Fault Refusal :=
  if s.completionDue then completePending s.event else .next s.event

/-- The state in which the host has issued the command word `w` and its last cycle is at hand: EST holds it, the block is
out of reset, and the coming event is a clock edge without a transaction, before whatever is to come (log 1). -/
def State.withFetchWord (s : State) (nbits w : Nat) : State :=
  { s with
    est := .busy (opField (BitVec.ofNat 32 (w % 2 ^ nbits))) (immField (BitVec.ofNat 32 (w % 2 ^ nbits)))
    latency := 1
    rstN := true
    live := true
    inputs := .edge none :: s.inputs }

end Sys2Proof.Machine
end

