-- ==== Sys2Proof/Machine/Asm.lean ====
section
/-! DEFINITION. Host programs: the assembler syntax of 30_encoding.md rule R98 and its expansion to bus transactions. -/

namespace Sys2Proof.Machine

/-- A line of a host program (R98). -/
inductive Line where
  /-- `WR <reg>, v`. -/
  | wr (r : Reg) (v : Word)
  /-- `RD <reg>`. -/
  | rd (r : Reg)
  /-- `WR TX[<i>], v`. -/
  | wrTx (i : Nat) (v : Word)
  /-- `WR RX[<i>], v`. -/
  | wrRx (i : Nat) (v : Word)
  /-- `RD TX[<i>]`. -/
  | rdTx (i : Nat)
  /-- `RD RX[<i>]`. -/
  | rdRx (i : Nat)
  /-- `<MNEMONIC>`, or `CRC_BYTE <b>`. -/
  | cmd (i : Instr)
  /-- `POLL`. -/
  | poll
  /-- `RUN <MNEMONIC> [<b>]`. -/
  | run (i : Instr)
  /-- `LOAD TX, <i>, <b0> ... <bk>`. -/
  | loadTx (i : Nat) (bs : List Byte)
  /-- `LOAD RX, <i>, <b0> ... <bk>`. -/
  | loadRx (i : Nat) (bs : List Byte)
  /-- `RXFRAME <b0> ... <b(n-1)>`. -/
  | rxFrame (bs : List Byte)
deriving DecidableEq, Repr

/-- A line names bytes of the 256-byte buffers only (20_memory.md R66). -/
def Line.wf : Line → Bool
  | .wr _ _ => true
  | .rd _ => true
  | .wrTx i _ => decide (i < Config.maxFrame)
  | .wrRx i _ => decide (i < Config.maxFrame)
  | .rdTx i => decide (i < Config.maxFrame)
  | .rdRx i => decide (i < Config.maxFrame)
  | .cmd i => i.WellFormed
  | .poll => true
  | .run i => i.WellFormed
  | .loadTx i bs => decide (i + bs.length ≤ Config.maxFrame)
  | .loadRx i bs => decide (i + bs.length ≤ Config.maxFrame)
  | .rxFrame bs => decide (bs.length ≤ Config.maxFrame)

/-- The word address of TX byte `i`: byte address 0x400 + 4*i (20_memory.md R66). -/
def txPaddr (i : Nat) : BitVec 10 := BitVec.ofNat 10 (256 + i)

/-- The word address of RX byte `i`: byte address 0x800 + 4*i (R66). -/
def rxPaddr (i : Nat) : BitVec 10 := BitVec.ofNat 10 (512 + i)

/-- An edge with a MemRead. -/
def memRead (a : BitVec 10) : Input := .edge (some (.read a))

/-- An edge with a MemWrite. -/
def memWrite (a : BitVec 10) (v : Word) : Input := .edge (some (.write a v))

/-- One write per byte, to consecutive indices from `i` on (R98). -/
def loadBytes (paddrOf : Nat → BitVec 10) : Nat → List Byte → List Input
  | _, [] => []
  | i, b :: bs => memWrite (paddrOf i) (b.setWidth 32) :: loadBytes paddrOf (i + 1) bs

/-- The expansion of a line (R98). -/
def Line.expand : Line → List Input
  | .wr r v => [memWrite r.paddr v]
  | .rd r => [memRead r.paddr]
  | .wrTx i v => [memWrite (txPaddr i) v]
  | .wrRx i v => [memWrite (rxPaddr i) v]
  | .rdTx i => [memRead (txPaddr i)]
  | .rdRx i => [memRead (rxPaddr i)]
  | .cmd i => [memWrite Reg.cmd.paddr (encode i)]
  | .poll => [.poll]
  | .run i => [memWrite Reg.cmd.paddr (encode i), .poll]
  | .loadTx i bs => loadBytes txPaddr i bs
  | .loadRx i bs => loadBytes rxPaddr i bs
  | .rxFrame bs => loadBytes rxPaddr 0 bs ++ [memWrite Reg.rxlen.paddr (BitVec.ofNat 32 bs.length)]

/-- The state with a host program to run after whatever is to come already. R98 and 20_memory.md R62 give the order of the
lines only; each line's transaction at the very next edge is the model's choice (DESIGN CHOICE, log 15). A host that lets edges
pass has `.edge none` items between its transactions in `inputs`. -/
def State.withProgram (s : State) (p : List Line) : State := { s with inputs := s.inputs ++ p.flatMap Line.expand }

end Sys2Proof.Machine
end

