-- ==== Sys2Proof/Safety.lean ====
section
/-! DEFINITION. The terms claims are stated in: the invariant of the block, what a safe run is, and frames. -/

namespace Sys2Proof.Safety

open Sys2Proof.Machine

/-! ## The invariant -/

/-- The fields of STATUS fit one completed command: ERR names an error exactly when KIND is FAILED (10_state.md R32), a
validated frame has CRCOK = 1 (42_decode.md R181), NORESP = 1 only after a successful encode (R30), and CRCOK = 1 only where a
CRC comparison was made and passed (R29, 60_exceptions.md R200). -/
structure StatusConsistent (s : State) : Prop where
  err_iff_failed : s.err ≠ .noError ↔ s.kind = .failed
  frame_crcok : s.kind = .data ∨ s.kind = .exception → s.crcok = true
  noresp_ok : s.noresp = true → s.kind = .ok ∧ s.crcok = false
  crcok_err : s.crcok = true →
    s.err ≠ .tooShort ∧ s.err ≠ .checksumMismatch ∧ s.err ≠ .argumentInvalid ∧ s.err ≠ .illegalCommand

/-- The result registers fit one DECODE (10_state.md R42 to R45): the payload length is that of a frame of at most 256
bytes, an exception code comes with bit 7 of RFUNC and a payload, and a register count with a read function and the payload
length that holds it; the two exclude each other. -/
structure ResultsConsistent (s : State) : Prop where
  rplen_le : s.rplen.toNat ≤ 252
  excode_frame : s.excode ≠ 0#8 → s.rfunc.getLsbD 7 = true ∧ 1 ≤ s.rplen.toNat ∧ s.rcount = 0#8
  rcount_frame : s.rcount ≠ 0#8 →
    (s.rfunc = 0x03#8 ∨ s.rfunc = 0x04#8) ∧ s.rplen.toNat = 2 * s.rcount.toNat + 1 ∧ s.excode = 0#8

/-- While the block is not out of reset, the engine is idle and every register reads its reset value
(70_reset_and_hazards.md R230). -/
def HeldInReset (s : State) : Prop := s.running = false → s.est = .idle ∧ ∀ r : Reg, s.regWord r = State.reset.regWord r

/-- The invariant that every step keeps. -/
structure Inv (s : State) : Prop where
  tx_wf : Memory.wf s.tx = true
  rx_wf : Memory.wf s.rx = true
  status : StatusConsistent s
  results : ResultsConsistent s
  held : HeldInReset s
  live_rstN : s.live = true → s.rstN = true
  latency_pos : s.busy = true → 1 ≤ s.latency
  seed_lt : s.seed < s.draws

/-! ## Safe runs -/

/-- No reset is to come. -/
def NoReset (s : State) : Prop := ∀ level, Input.rst level ∉ s.inputs

/-- What is to come brings a transaction: an edge with one, or a POLL. -/
def bringsTransaction : Input → Bool
  | .edge none => false
  | .edge (some _) => true
  | .poll => true
  | .rst _ => false

/-- The step from `s` to `t` is the end of a host program (70_reset_and_hazards.md R245): its transaction is the last one, it is
a read of STATUS that takes effect (not one in reset, R230), and the word it read has BUSY = 0. -/
structure EndingStep (s t : State) : Prop where
  next : step s = .next t
  running : s.running = true
  readsStatus : s.comingTxn = some (.read Reg.status.paddr)
  readsIdle : ∃ w, t.prdata = some w ∧ w.getLsbD 0 = false
  last : ∀ x ∈ t.inputs, bringsTransaction x = false

/-- The run from `s` has ended, with the defined result that `t` holds: its last transaction read `STATUS.BUSY = 0` (R245). A
program whose last transaction is another has no such `t`. -/
def Ended (s t : State) : Prop := ∃ k u, Host.Core.run Sys2Proof.core k s = .next u ∧ EndingStep u t

/-- The same observable result: the register file and the two buffers (R245). -/
structure SameResult (s t : State) : Prop where
  regs : ∀ r : Reg, t.regWord r = s.regWord r
  tx : ∀ i, t.txByte i = s.txByte i
  rx : ∀ i, t.rxByte i = s.rxByte i

/-- A safe end of a run: it has ended, and OVR is 0 at its end. R234 also accepts a program that "checked and handled OVR" and
does not say what handling is: taking it as clearing OVR is the model's choice (DESIGN CHOICE, log 16). -/
def SafeEnd (s t : State) : Prop := Ended s t ∧ t.ovr = false

/-! ## Frames -/

/-- Every byte of TX reads as before. -/
def TxKept (s t : State) : Prop := ∀ i, t.txByte i = s.txByte i

/-- Every byte of RX reads as before. -/
def RxKept (s t : State) : Prop := ∀ i, t.rxByte i = s.rxByte i

/-- Every byte of TX outside the indices `P` reads as before. -/
def TxKeptOutside (P : Nat → Prop) (s t : State) : Prop := ∀ i, ¬ P i → t.txByte i = s.txByte i

/-- The operand registers that no command writes: SLAVE, ADDR, QTY, VALUE, PLEN (10_state.md R34, R36 to R39). -/
structure OperandsKept (s t : State) : Prop where
  slave : t.slave = s.slave
  addr : t.addr = s.addr
  qty : t.qty = s.qty
  value : t.value = s.value
  plen : t.plen = s.plen

/-- The result registers, which only DECODE writes (R42 to R45). -/
structure ResultsKept (s t : State) : Prop where
  rfunc : t.rfunc = s.rfunc
  excode : t.excode = s.excode
  rplen : t.rplen = s.rplen
  rcount : t.rcount = s.rcount

/-- The port and the model's own fields, which no command touches. -/
structure PortKept (s t : State) : Prop where
  rstN : t.rstN = s.rstN
  live : t.live = s.live
  prdata : t.prdata = s.prdata
  inputs : t.inputs = s.inputs
  latency : t.latency = s.latency
  draws : t.draws = s.draws
  seed : t.seed = s.seed

/-- What no command ever changes: the operand registers above, OVR (30_encoding.md R96), RX (10_state.md R48), the port. -/
structure CommandFrame (s t : State) : Prop where
  operands : OperandsKept s t
  ovr : t.ovr = s.ovr
  rx : RxKept s t
  port : PortKept s t

/-- The registers an encoder may write, FUNC and RXLEN and TXLEN, all kept. -/
structure LengthsKept (s t : State) : Prop where
  func : t.func = s.func
  txlen : t.txlen = s.txlen
  rxlen : t.rxlen = s.rxlen

/-- The fields a completion writes: EST idle, KIND, ERR, CRCOK, NORESP (30_encoding.md R96). -/
structure Finished (t : State) (k : Kind) (e : Err) (crcok noresp : Bool) : Prop where
  est : t.est = .idle
  kind : t.kind = k
  err : t.err = e
  crcok : t.crcok = crcok
  noresp : t.noresp = noresp

/-- Only STATUS and EST differ: the frame of a command that fails with ARGUMENT_INVALID or ILLEGAL_COMMAND
(60_exceptions.md R200). -/
structure OnlyStatusChanged (s t : State) : Prop where
  frame : CommandFrame s t
  results : ResultsKept s t
  lengths : LengthsKept s t
  crc : t.crc = s.crc
  tx : TxKept s t

/-- Every register, the engine and both buffers of the block agree, OVR apart: what a command leaves behind, seen by the
host. -/
structure SameBlock (s t : State) : Prop where
  operands : OperandsKept s t
  results : ResultsKept s t
  lengths : LengthsKept s t
  crc : t.crc = s.crc
  crcok : t.crcok = s.crcok
  noresp : t.noresp = s.noresp
  kind : t.kind = s.kind
  err : t.err = s.err
  est : t.est = s.est
  tx : TxKept s t
  rx : RxKept s t

/-! ## Other terms of claims -/

/-- Flip bit `k` of a byte sequence: bit `k mod 8` of byte `k div 8` (40_crc.md R114). -/
def flipBit (bs : List Byte) (k : Nat) : List Byte := bs.set (k / 8) (bs.getD (k / 8) 0#8 ^^^ (1#8 <<< (k % 8)))

/-- Commands completed one after another, with no host write between them. -/
def execAll : List Instr → State → Result
  | [], s => .next s
  | i :: is, s =>
    match exec i s with
    | .next t => execAll is t
    | .fault f => .fault f
    | .refused r => .refused r

/-- The payload of a read response: the byte count, then the values, big-endian (42_decode.md R179, R180). -/
def readPayload (vs : List Half) : List Byte := BitVec.ofNat 8 (2 * vs.length) :: vs.flatMap be16

end Sys2Proof.Safety
end

