-- ==== Sys2Proof/Certificates/Slice0/Obligations.lean ====
section
/-! DEFINITION. The statements for the provers, in the order of OBLIGATIONS.json. Each names the rule it formalises. -/

open Sys2Proof Sys2Proof.Machine Sys2Proof.Safety

/-! ## Encoding (30_encoding.md) -/

/-- Words written out from the encodings of R90 and R94 decode to their commands; the last three are R95's. -/
def Obligations.SpecWordsDecodeToTheirCommands : Prop :=
  decodeWord 0x00000001#32 = .command .crcInit ∧ decodeWord 0x00000102#32 = .command (.crcByte 0x01#8) ∧
  decodeWord 0x00000003#32 = .command .crcTx ∧ decodeWord 0x00000004#32 = .command .crcRx ∧
  decodeWord 0x00000005#32 = .command .verifyRx ∧ decodeWord 0x00000010#32 = .command .encRaw ∧
  decodeWord 0x00000011#32 = .command .encRhr ∧ decodeWord 0x00000012#32 = .command .encRir ∧
  decodeWord 0x00000013#32 = .command .encWsr ∧ decodeWord 0x00000014#32 = .command .encWmr ∧
  decodeWord 0x00000020#32 = .command .decode ∧ decodeWord 0xFFFF0001#32 = .command .crcInit ∧
  decodeWord 0x0000AB01#32 = .command .crcInit ∧ decodeWord 0x00000000#32 = .illegal 0x00#8 ∧
  decodeWord 0x00000015#32 = .illegal 0x15#8 ∧ decodeWord 0xFFFFFFFF#32 = .illegal 0xFF#8

/-- No bit of an encoding is dropped: for every well-formed command, decoding its word gives it back, with its immediate at
every value, and the word is one software should write (R90, R92, R99). -/
def Obligations.DecodeOfEncodeIsTheCommand : Prop :=
  ∀ i : Instr, i.WellFormed = true →
    decodeWord (encode i) = .command i ∧ cmdWordWellFormed (encode i) = true ∧ decodeTableWord 32 (encode i).toNat = some i

/-- R100, R95: every word decodes to exactly one command or to ILLEGAL of its opcode, by `w[7:0]` alone (and CRC_BYTE's
immediate by `w[15:8]`). -/
def Obligations.EveryWordIsOneCommandOrIllegal : Prop :=
  ∀ w : Word,
    (∀ i : Instr, decodeWord w = .command i ↔ (w.extractLsb' 0 8 = opcode i ∧ ∀ b, i = .crcByte b → w.extractLsb' 8 8 = b)) ∧
    (∀ op : Byte, decodeWord w = .illegal op ↔ (w.extractLsb' 0 8 = op ∧ ∀ i : Instr, opcode i ≠ op))

/-- R99: the reserved bits are ignored by every opcode, IMM8 by every opcode but CRC_BYTE; with the rule's two examples. -/
def Obligations.IgnoredFieldsDoNotChangeTheCommand : Prop :=
  (∀ w w' : Word, w.extractLsb' 0 8 = w'.extractLsb' 0 8 →
    (w.extractLsb' 0 8 = 0x02#8 → w.extractLsb' 8 8 = w'.extractLsb' 8 8) → decodeWord w = decodeWord w') ∧
  decodeWord 0xFFFF0001#32 = .command .crcInit ∧ decodeWord 0x0000AB01#32 = .command .crcInit

/-! ## The CRC functions (40_crc.md) -/

/-- R114: the round trip for all byte sequences, and the sensitivity to any single flipped bit of a framed message of any
length. The residue is for every sequence here, derived from R111: R114 states it for its test frames only. -/
def Obligations.CrcRoundTripSensitivityAndResidue : Prop :=
  (∀ bs : List Byte, verify (bs ++ crcWire (crc16 bs)) = true) ∧
  (∀ (bs : List Byte) (k : Nat), k < 8 * (bs.length + 2) → verify (flipBit (bs ++ crcWire (crc16 bs)) k) = false) ∧
  (∀ bs : List Byte, crc16 (bs ++ crcWire (crc16 bs)) = 0#16)

/-- The bit-serial byte step (R110) equals the table-driven one: shift by a byte, XOR the table entry of the low byte XOR the
input byte. -/
def Obligations.CrcByteStepIsATableLookup : Prop :=
  ∀ (c : Half) (b : Byte), crcStep c b = (c >>> 8) ^^^ crcStep 0#16 (c.setWidth 8 ^^^ b)

/-- R116's corner case: CRC_INIT and then one CRC_BYTE per byte leaves `CRC = crc16(B)`, and only STATUS's outcome fields and
CRC have changed. -/
def Obligations.InitThenBytesComputesTheCrc : Prop :=
  ∀ (s : State) (bs : List Byte), ∃ t, execAll (.crcInit :: bs.map .crcByte) s = .next t ∧ t.crc = crc16 bs ∧
    Finished t .ok .noError false false ∧ CommandFrame s t ∧ ResultsKept s t ∧ LengthsKept s t ∧ TxKept s t

/-! ## The CRC commands -/

/-- R115: opcode 0x01 is CRC_INIT, whatever the other bits; it completes in every state with CRC = 0xFFFF. -/
def Obligations.CrcInitSetsTheInitialValue : Prop :=
  (∀ w : Word, w.extractLsb' 0 8 = 0x01#8 → decodeWord w = .command .crcInit) ∧
  ∀ s : State, ∃ t, exec .crcInit s = .next t ∧ t.crc = 0xFFFF#16 ∧ Finished t .ok .noError false false ∧
    CommandFrame s t ∧ ResultsKept s t ∧ LengthsKept s t ∧ TxKept s t

/-- R116, R92: opcode 0x02 is CRC_BYTE of `w[15:8]`; it completes in every state and feeds its byte to the register as it
stands. At b = 0 with CRC 0x0000 or 0xC001 that leaves CRC as it is, by R110, where R116 says that 0x00 still changes the
register: the model's choice of R110 (DEDUCED, log 14). -/
def Obligations.CrcByteFeedsOneByte : Prop :=
  (∀ w : Word, w.extractLsb' 0 8 = 0x02#8 → decodeWord w = .command (.crcByte (w.extractLsb' 8 8))) ∧
  ∀ (s : State) (b : Byte), ∃ t, exec (.crcByte b) s = .next t ∧ t.crc = crcStep s.crc b ∧
    Finished t .ok .noError false false ∧ CommandFrame s t ∧ ResultsKept s t ∧ LengthsKept s t ∧ TxKept s t

/-- R117: opcode 0x03 is CRC_TX, which computes over `TX[0..TXLEN)`, and fails with ARGUMENT_INVALID where TXLEN is above 256. -/
def Obligations.CrcTxComputesOverTheTxBuffer : Prop :=
  (∀ w : Word, w.extractLsb' 0 8 = 0x03#8 → decodeWord w = .command .crcTx) ∧
  ∀ s : State,
    (s.txlen.toNat ≤ 256 → ∃ t, exec .crcTx s = .next t ∧ t.crc = crc16 (s.txBytes 0 s.txlen.toNat) ∧
      Finished t .ok .noError false false ∧ CommandFrame s t ∧ ResultsKept s t ∧ LengthsKept s t ∧ TxKept s t) ∧
    (256 < s.txlen.toNat → ∃ t, exec .crcTx s = .next t ∧ Finished t .failed .argumentInvalid false false ∧
      OnlyStatusChanged s t)

/-- R118: opcode 0x04 is CRC_RX, which computes over `RX[0..RXLEN)`, and fails with ARGUMENT_INVALID where RXLEN is above 256. -/
def Obligations.CrcRxComputesOverTheRxBuffer : Prop :=
  (∀ w : Word, w.extractLsb' 0 8 = 0x04#8 → decodeWord w = .command .crcRx) ∧
  ∀ s : State,
    (s.rxlen.toNat ≤ 256 → ∃ t, exec .crcRx s = .next t ∧ t.crc = crc16 (s.rxBytes 0 s.rxlen.toNat) ∧
      Finished t .ok .noError false false ∧ CommandFrame s t ∧ ResultsKept s t ∧ LengthsKept s t ∧ TxKept s t) ∧
    (256 < s.rxlen.toNat → ∃ t, exec .crcRx s = .next t ∧ Finished t .failed .argumentInvalid false false ∧
      OnlyStatusChanged s t)

/-- R119: opcode 0x05 is VERIFY_RX, which sets CRCOK to verify of the valid bytes and CRC to their CRC; below two bytes CRCOK is 0 and CRC is kept;
above 256 it fails with ARGUMENT_INVALID. -/
def Obligations.VerifyRxReportsVerify : Prop :=
  (∀ w : Word, w.extractLsb' 0 8 = 0x05#8 → decodeWord w = .command .verifyRx) ∧
  ∀ s : State,
    (2 ≤ s.rxlen.toNat → s.rxlen.toNat ≤ 256 → ∃ t, exec .verifyRx s = .next t ∧
      t.crc = crc16 (s.rxBytes 0 (s.rxlen.toNat - 2)) ∧
      Finished t .ok .noError (verify (s.rxBytes 0 s.rxlen.toNat)) false ∧
      CommandFrame s t ∧ ResultsKept s t ∧ LengthsKept s t ∧ TxKept s t) ∧
    (s.rxlen.toNat < 2 → ∃ t, exec .verifyRx s = .next t ∧ Finished t .ok .noError false false ∧ OnlyStatusChanged s t) ∧
    (256 < s.rxlen.toNat → ∃ t, exec .verifyRx s = .next t ∧ Finished t .failed .argumentInvalid false false ∧
      OnlyStatusChanged s t)

/-! ## The encoder commands (41_encode.md) -/

/-- R144 (with R140, R143): opcode 0x10 is ENC_RAW, which frames the payload that stands in TX, and changes four bytes of TX; its three argument
checks fail with ARGUMENT_INVALID and change nothing but STATUS. -/
def Obligations.EncRawFramesThePayload : Prop :=
  (∀ w : Word, w.extractLsb' 0 8 = 0x10#8 → decodeWord w = .command .encRaw) ∧
  ∀ s : State,
    (s.slave.toNat ≤ 247 → s.func.getLsbD 7 = false → s.plen.toNat ≤ 252 → ∃ t, exec .encRaw s = .next t ∧
      t.txBytes 0 (s.plen.toNat + 4) = encodeRequest s.slave s.func (s.txBytes 2 s.plen.toNat) ∧
      t.txlen.toNat = s.plen.toNat + 4 ∧ t.crc = crc16 (s.slave :: s.func :: s.txBytes 2 s.plen.toNat) ∧
      t.rxlen = 0#9 ∧ t.func = s.func ∧ Finished t .ok .noError false (decide (s.slave = 0#8)) ∧
      CommandFrame s t ∧ ResultsKept s t ∧
      TxKeptOutside (fun i => i = 0 ∨ i = 1 ∨ i = 2 + s.plen.toNat ∨ i = 3 + s.plen.toNat) s t) ∧
    (247 < s.slave.toNat ∨ s.func.getLsbD 7 = true ∨ 252 < s.plen.toNat → ∃ t, exec .encRaw s = .next t ∧
      Finished t .failed .argumentInvalid false false ∧ OnlyStatusChanged s t)

/-- R146, R147 (with R142, R145): the two read encoders frame start address and quantity, big-endian, under function 0x03 and
0x04, in `TX[0..8)`, for a slave up to 247 (0 among them), a quantity of 1 to 125 and addresses that stay in the register
space; every other argument fails with ARGUMENT_INVALID and changes nothing but STATUS. -/
def Obligations.ReadEncodersFrameAddressAndQuantity : Prop :=
  (∀ w : Word, w.extractLsb' 0 8 = 0x11#8 → decodeWord w = .command .encRhr) ∧
  (∀ w : Word, w.extractLsb' 0 8 = 0x12#8 → decodeWord w = .command .encRir) ∧
  ∀ (s : State) (i : Instr) (f : Byte), (i = .encRhr ∧ f = 0x03#8) ∨ (i = .encRir ∧ f = 0x04#8) →
    (s.slave.toNat ≤ 247 → 1 ≤ s.qty.toNat → s.qty.toNat ≤ 125 → s.addr.toNat + s.qty.toNat ≤ 0x10000 →
      ∃ t, exec i s = .next t ∧
        t.txBytes 0 8 = encodeRequest s.slave f [s.addr.extractLsb' 8 8, s.addr.extractLsb' 0 8, s.qty.extractLsb' 8 8,
          s.qty.extractLsb' 0 8] ∧
        t.txlen = 8#9 ∧ t.crc = crc16 (t.txBytes 0 6) ∧ t.rxlen = 0#9 ∧ t.func = f ∧
        Finished t .ok .noError false (decide (s.slave = 0#8)) ∧ CommandFrame s t ∧ ResultsKept s t ∧
        TxKeptOutside (fun j => j < 8) s t) ∧
    (247 < s.slave.toNat ∨ s.qty.toNat = 0 ∨ 125 < s.qty.toNat ∨ 0x10000 < s.addr.toNat + s.qty.toNat →
      ∃ t, exec i s = .next t ∧ Finished t .failed .argumentInvalid false false ∧ OnlyStatusChanged s t)

/-- R149 (with R142): opcode 0x13 is ENC_WSR, which frames register address and value under function 0x06 for every address
and value; a slave above 247 fails with ARGUMENT_INVALID and changes nothing but STATUS. -/
def Obligations.EncWsrFramesAddressAndValue : Prop :=
  (∀ w : Word, w.extractLsb' 0 8 = 0x13#8 → decodeWord w = .command .encWsr) ∧
  ∀ s : State,
    (s.slave.toNat ≤ 247 → ∃ t, exec .encWsr s = .next t ∧
      t.txBytes 0 8 = encodeRequest s.slave 0x06#8 [s.addr.extractLsb' 8 8, s.addr.extractLsb' 0 8,
        s.value.extractLsb' 8 8, s.value.extractLsb' 0 8] ∧
      t.txlen = 8#9 ∧ t.crc = crc16 (t.txBytes 0 6) ∧ t.rxlen = 0#9 ∧ t.func = 0x06#8 ∧
      Finished t .ok .noError false (decide (s.slave = 0#8)) ∧ CommandFrame s t ∧ ResultsKept s t ∧
      TxKeptOutside (fun j => j < 8) s t) ∧
    (247 < s.slave.toNat → ∃ t, exec .encWsr s = .next t ∧ Finished t .failed .argumentInvalid false false ∧
      OnlyStatusChanged s t)

/-- R150 (with R142, R148): opcode 0x14 is ENC_WMR, which frames start address, quantity, byte count and the values that
stand in `TX[7..7+2*QTY)`, under function 0x10; a slave above 247, a quantity outside 1 to 123 and addresses past the register
space fail with ARGUMENT_INVALID and change nothing but STATUS. -/
def Obligations.EncWmrFramesTheValues : Prop :=
  (∀ w : Word, w.extractLsb' 0 8 = 0x14#8 → decodeWord w = .command .encWmr) ∧
  ∀ s : State,
    (s.slave.toNat ≤ 247 → 1 ≤ s.qty.toNat → s.qty.toNat ≤ 123 → s.addr.toNat + s.qty.toNat ≤ 0x10000 →
      ∃ t, exec .encWmr s = .next t ∧
        t.txBytes 0 (9 + 2 * s.qty.toNat) = encodeRequest s.slave 0x10#8 ([s.addr.extractLsb' 8 8, s.addr.extractLsb' 0 8,
          s.qty.extractLsb' 8 8, s.qty.extractLsb' 0 8, BitVec.ofNat 8 (2 * s.qty.toNat)] ++ s.txBytes 7 (2 * s.qty.toNat)) ∧
        t.txlen.toNat = 9 + 2 * s.qty.toNat ∧ t.crc = crc16 (t.txBytes 0 (7 + 2 * s.qty.toNat)) ∧ t.rxlen = 0#9 ∧
        t.func = 0x10#8 ∧ Finished t .ok .noError false (decide (s.slave = 0#8)) ∧ CommandFrame s t ∧ ResultsKept s t ∧
        TxKeptOutside (fun j => j < 7 ∨ j = 7 + 2 * s.qty.toNat ∨ j = 8 + 2 * s.qty.toNat) s t) ∧
    (247 < s.slave.toNat ∨ s.qty.toNat = 0 ∨ 123 < s.qty.toNat ∨ 0x10000 < s.addr.toNat + s.qty.toNat →
      ∃ t, exec .encWmr s = .next t ∧ Finished t .failed .argumentInvalid false false ∧ OnlyStatusChanged s t)

/-- A frame any encoder has completed verifies, and CRC_TX over it then leaves 0 (R114, R143; 95_test_vectors.md 2.4). -/
def Obligations.EncodedFramesVerify : Prop :=
  ∀ (s t : State) (i : Instr), i = .encRaw ∨ i = .encRhr ∨ i = .encRir ∨ i = .encWsr ∨ i = .encWmr →
    exec i s = .next t → t.kind = .ok →
    verify (t.txBytes 0 t.txlen.toNat) = true ∧ ∃ u, exec .crcTx t = .next u ∧ u.kind = .ok ∧ u.crc = 0#16

/-- R143: after any successful encoder, a DECODE with no new frame fails with TOO_SHORT, whatever RX holds. -/
def Obligations.DecodeAfterEncodeIsTooShort : Prop :=
  ∀ (s t : State) (i : Instr), i = .encRaw ∨ i = .encRhr ∨ i = .encRir ∨ i = .encWsr ∨ i = .encWmr →
    exec i s = .next t → t.kind = .ok →
    ∃ u, exec .decode t = .next u ∧ Finished u .failed .tooShort false false ∧ u.rfunc = 0#8 ∧ u.rplen = 0#9 ∧
      u.crc = t.crc

/-! ## DECODE (42_decode.md) -/

/-- Opcode 0x20 is DECODE, which completes in every state as DATA, EXCEPTION or FAILED; what it never changes, whatever its
outcome (R181): the operands SLAVE, ADDR, QTY, VALUE, PLEN, FUNC and RXLEN, also TXLEN, OVR, both buffers and the port. -/
def Obligations.DecodeAlwaysCompletesWithItsFrame : Prop :=
  (∀ w : Word, w.extractLsb' 0 8 = 0x20#8 → decodeWord w = .command .decode) ∧
  ∀ s : State, ∃ t, exec .decode s = .next t ∧ t.est = .idle ∧ t.kind ≠ .ok ∧ t.noresp = false ∧
    CommandFrame s t ∧ LengthsKept s t ∧ TxKept s t

/-- R171: the operand check comes first, before any byte of RX is read. -/
def Obligations.DecodeRejectsInvalidOperands : Prop :=
  ∀ s : State, 247 < s.slave.toNat ∨ s.func.getLsbD 7 = true ∨ 256 < s.rxlen.toNat →
    ∃ t, exec .decode s = .next t ∧ Finished t .failed .argumentInvalid false false ∧ t.crc = s.crc ∧
      t.rfunc = 0#8 ∧ t.excode = 0#8 ∧ t.rplen = 0#9 ∧ t.rcount = 0#8 ∧ CommandFrame s t ∧ LengthsKept s t ∧ TxKept s t

/-- R172: fewer than 4 bytes fail with TOO_SHORT; 4 bytes pass this check. -/
def Obligations.DecodeRejectsShortFrames : Prop :=
  ∀ s : State, s.slave.toNat ≤ 247 → s.func.getLsbD 7 = false →
    (s.rxlen.toNat < 4 → ∃ t, exec .decode s = .next t ∧ Finished t .failed .tooShort false false ∧ t.crc = s.crc ∧
      t.rfunc = 0#8 ∧ t.excode = 0#8 ∧ t.rplen = 0#9 ∧ t.rcount = 0#8 ∧ CommandFrame s t ∧ LengthsKept s t ∧ TxKept s t) ∧
    (s.rxlen.toNat = 4 → ∃ t, exec .decode s = .next t ∧ t.err ≠ .tooShort ∧ t.rfunc = s.rxByte 1 ∧ t.rplen = 0#9)

/-- R173: a frame that does not verify fails with CHECKSUM_MISMATCH, whatever its slave and function bytes hold. -/
def Obligations.DecodeRejectsBadChecksums : Prop :=
  ∀ s : State, s.slave.toNat ≤ 247 → s.func.getLsbD 7 = false → 4 ≤ s.rxlen.toNat → s.rxlen.toNat ≤ 256 →
    verify (s.rxBytes 0 s.rxlen.toNat) = false →
    ∃ t, exec .decode s = .next t ∧ Finished t .failed .checksumMismatch false false ∧
      t.crc = crc16 (s.rxBytes 0 (s.rxlen.toNat - 2)) ∧ t.rfunc = s.rxByte 1 ∧ t.excode = 0#8 ∧
      t.rplen.toNat = s.rxlen.toNat - 4 ∧ t.rcount = 0#8 ∧ CommandFrame s t ∧ LengthsKept s t ∧ TxKept s t

/-- R174: of a frame that verifies, the slave byte is compared next, slave 0 like any other. -/
def Obligations.DecodeRejectsOtherSlaves : Prop :=
  ∀ s : State, s.slave.toNat ≤ 247 → s.func.getLsbD 7 = false → 4 ≤ s.rxlen.toNat → s.rxlen.toNat ≤ 256 →
    verify (s.rxBytes 0 s.rxlen.toNat) = true → s.rxByte 0 ≠ s.slave →
    ∃ t, exec .decode s = .next t ∧ Finished t .failed .slaveMismatch true false ∧
      t.crc = crc16 (s.rxBytes 0 (s.rxlen.toNat - 2)) ∧ t.rfunc = s.rxByte 1 ∧ t.excode = 0#8 ∧
      t.rplen.toNat = s.rxlen.toNat - 4 ∧ t.rcount = 0#8 ∧ CommandFrame s t ∧ LengthsKept s t ∧ TxKept s t

/-- R175 to R177 on this hardware (STRICT): a verified frame of the slave with bit 7 in its function byte fails with
FUNCTION_MISMATCH where it does not echo FUNC, with PAYLOAD_LENGTH_MISMATCH where it has no payload, and otherwise is an
EXCEPTION with its first payload byte as the code, whatever that is and whatever follows it. -/
def Obligations.DecodeRoutesExceptionFrames : Prop :=
  ∀ s : State, s.slave.toNat ≤ 247 → s.func.getLsbD 7 = false → 4 ≤ s.rxlen.toNat → s.rxlen.toNat ≤ 256 →
    verify (s.rxBytes 0 s.rxlen.toNat) = true → s.rxByte 0 = s.slave → (s.rxByte 1).getLsbD 7 = true →
    ∃ t, exec .decode s = .next t ∧ t.crc = crc16 (s.rxBytes 0 (s.rxlen.toNat - 2)) ∧ t.rfunc = s.rxByte 1 ∧
      t.rplen.toNat = s.rxlen.toNat - 4 ∧ t.rcount = 0#8 ∧ CommandFrame s t ∧ LengthsKept s t ∧ TxKept s t ∧
      (s.rxByte 1 &&& 0x7F#8 ≠ s.func → Finished t .failed .functionMismatch true false ∧ t.excode = 0#8) ∧
      (s.rxByte 1 &&& 0x7F#8 = s.func → s.rxlen.toNat = 4 →
        Finished t .failed .payloadLengthMismatch true false ∧ t.excode = 0#8) ∧
      (s.rxByte 1 &&& 0x7F#8 = s.func → 4 < s.rxlen.toNat →
        Finished t .exception .noError true false ∧ t.excode = s.rxByte 2)

/-- R178: a verified normal frame of the slave for another function fails with FUNCTION_MISMATCH. -/
def Obligations.DecodeRejectsOtherFunctions : Prop :=
  ∀ s : State, s.slave.toNat ≤ 247 → s.func.getLsbD 7 = false → 4 ≤ s.rxlen.toNat → s.rxlen.toNat ≤ 256 →
    verify (s.rxBytes 0 s.rxlen.toNat) = true → s.rxByte 0 = s.slave → (s.rxByte 1).getLsbD 7 = false →
    s.rxByte 1 ≠ s.func →
    ∃ t, exec .decode s = .next t ∧ Finished t .failed .functionMismatch true false ∧
      t.crc = crc16 (s.rxBytes 0 (s.rxlen.toNat - 2)) ∧ t.rfunc = s.rxByte 1 ∧ t.excode = 0#8 ∧
      t.rplen.toNat = s.rxlen.toNat - 4 ∧ t.rcount = 0#8 ∧ CommandFrame s t ∧ LengthsKept s t ∧ TxKept s t

/-- R179: of a verified normal frame of the slave and function, the payload of a read response (0x03, 0x04) is checked and
its register count reported; every other function's payload is not checked. -/
def Obligations.DecodeChecksReadPayloads : Prop :=
  ∀ s : State, s.slave.toNat ≤ 247 → s.func.getLsbD 7 = false → 4 ≤ s.rxlen.toNat → s.rxlen.toNat ≤ 256 →
    verify (s.rxBytes 0 s.rxlen.toNat) = true → s.rxByte 0 = s.slave → s.rxByte 1 = s.func →
    ∃ t, exec .decode s = .next t ∧ t.crc = crc16 (s.rxBytes 0 (s.rxlen.toNat - 2)) ∧ t.rfunc = s.rxByte 1 ∧
      t.rplen.toNat = s.rxlen.toNat - 4 ∧ t.excode = 0#8 ∧ CommandFrame s t ∧ LengthsKept s t ∧ TxKept s t ∧
      (s.func ≠ 0x03#8 → s.func ≠ 0x04#8 → Finished t .data .noError true false ∧ t.rcount = 0#8) ∧
      (s.func = 0x03#8 ∨ s.func = 0x04#8 →
        (s.rxlen.toNat = 4 ∨ (s.rxByte 2).toNat % 2 = 1 ∨ (s.rxByte 2).toNat ≠ s.rxlen.toNat - 5 ∨
          (s.rxByte 2).toNat / 2 ≠ s.qty.toNat → Finished t .failed .payloadLengthMismatch true false ∧ t.rcount = 0#8) ∧
        (5 ≤ s.rxlen.toNat → (s.rxByte 2).toNat = s.rxlen.toNat - 5 → (s.rxByte 2).toNat = 2 * s.qty.toNat →
          Finished t .data .noError true false ∧ t.rcount.toNat = (s.rxByte 2).toNat / 2))

/-- DECODE reads no byte of RX at or beyond RXLEN, no STATUS field and no register but its operands (R93, R181): two states
that agree on those get the same outcome and results. -/
def Obligations.DecodeReadsOnlyItsOperands : Prop :=
  ∀ s s' : State, s.slave = s'.slave → s.func = s'.func → s.qty = s'.qty → s.rxlen = s'.rxlen → s.crc = s'.crc →
    (∀ i, i < s.rxlen.toNat → s.rxByte i = s'.rxByte i) →
    ∃ t t', exec .decode s = .next t ∧ exec .decode s' = .next t' ∧ t.kind = t'.kind ∧ t.err = t'.err ∧
      t.crcok = t'.crcok ∧ t.crc = t'.crc ∧ t.rfunc = t'.rfunc ∧ t.excode = t'.excode ∧ t.rplen = t'.rplen ∧
      t.rcount = t'.rcount

/-- R182: the function an EXCEPTION outcome reports, `RFUNC & 0x7F`, equals FUNC, while RFUNC keeps bit 7. -/
def Obligations.ExceptionReportsTheRequestedFunction : Prop :=
  ∀ s t : State, exec .decode s = .next t → t.kind = .exception →
    t.rfunc &&& 0x7F#8 = t.func ∧ t.rfunc.getLsbD 7 = true ∧ t.rfunc = s.rxByte 1

/-- R176: the two readings of P_EXC_FUNC_MATCH differ only on an exception frame whose low 7 bits differ from FUNC. -/
def Obligations.ReadingsDifferOnlyOnForeignExceptions : Prop :=
  ∀ s : State, ((s.rxByte 1).getLsbD 7 = true → s.rxByte 1 &&& 0x7F#8 = s.func) →
    decodeWith .strict s = decodeWith .bit7Only s

/-- A well-formed response to a read of the given values decodes to DATA, to their count and to the values themselves, in
order (R179, R180; 95_test_vectors.md, property P-f and scenario 1). -/
def Obligations.ReadResponsesDecodeToTheirValues : Prop :=
  ∀ (s : State) (f : Byte) (vs : List Half), f = 0x03#8 ∨ f = 0x04#8 → vs.length ≤ 125 → s.slave.toNat ≤ 247 →
    s.func = f → s.qty.toNat = vs.length → s.rxlen.toNat = 5 + 2 * vs.length →
    s.rxBytes 0 (5 + 2 * vs.length) = encodeRequest s.slave f (readPayload vs) →
    ∃ t, exec .decode s = .next t ∧ Finished t .data .noError true false ∧ t.rcount.toNat = vs.length ∧
      t.rplen.toNat = 1 + 2 * vs.length ∧ ∀ j, (h : j < vs.length) → t.regValue j = vs[j]

/-! ## Illegal commands (30_encoding.md) -/

/-- R95: every opcode but the eleven assigned ones is an illegal command. It is issued like any command, and at its
completion it fails with ILLEGAL_COMMAND and changes nothing but STATUS and EST; with OVR clear STATUS then reads
0x00000730. -/
def Obligations.IllegalCommandsChangeOnlyStatus : Prop :=
  (∀ op : Byte, (∀ i : Instr, opcode i ≠ op) ↔ op.toNat = 0 ∨ (0x06 ≤ op.toNat ∧ op.toNat ≤ 0x0F) ∨
    (0x15 ≤ op.toNat ∧ op.toNat ≤ 0x1F) ∨ 0x21 ≤ op.toNat) ∧
  (∀ (s : State) (w : Word), s.busy = false → (∀ i : Instr, opcode i ≠ w.extractLsb' 0 8) →
    (s.busWrite Reg.cmd.paddr w).est = .busy (w.extractLsb' 0 8) (w.extractLsb' 8 8) ∧
    (s.busWrite Reg.cmd.paddr w).busy = true) ∧
  ∀ (s : State) (op imm : Byte), s.est = .busy op imm → (∀ i : Instr, opcode i ≠ op) →
    ∃ t, completePending s = .next t ∧ Finished t .failed .illegalCommand false false ∧ OnlyStatusChanged s t ∧
      (s.ovr = false → t.statusWord = 0x00000730#32)

/-! ## All commands -/

/-- R49: no command reads a flag. Two states that differ in STATUS fields only (BUSY with EST among them) complete the same
command to states that differ in OVR only. -/
def Obligations.NoCommandReadsAFlag : Prop :=
  ∀ (i : Instr) (s : State) (est : Engine) (ovr crcok noresp : Bool) (k : Kind) (e : Err),
    ∃ t, exec i s = .next t ∧
      exec i { s with est := est, ovr := ovr, crcok := crcok, noresp := noresp, kind := k, err := e } =
        .next { t with ovr := ovr }

/-- R77: the bytes of TX each command may write on its success path; every other command, and every failing one, writes
none. -/
def Obligations.CommandsWriteOnlyTheirBufferBytes : Prop :=
  ∀ (i : Instr) (s t : State), exec i s = .next t →
    RxKept s t ∧
    (t.kind = .failed → TxKept s t) ∧
    (i = .encRaw → TxKeptOutside (fun j => j = 0 ∨ j = 1 ∨ j = 2 + s.plen.toNat ∨ j = 3 + s.plen.toNat) s t) ∧
    (i = .encRhr ∨ i = .encRir ∨ i = .encWsr → TxKeptOutside (fun j => j < 8) s t) ∧
    (i = .encWmr → TxKeptOutside (fun j => j < 7 ∨ j = 7 + 2 * s.qty.toNat ∨ j = 8 + 2 * s.qty.toNat) s t) ∧
    (i ≠ .encRaw ∧ i ≠ .encRhr ∧ i ≠ .encRir ∧ i ≠ .encWsr ∧ i ≠ .encWmr → TxKept s t)

/-! ## STATUS, the register file and the bus (10_state.md, 20_memory.md) -/

/-- R26, R27: the bits of the STATUS word, and its reserved bits 0. -/
def Obligations.StatusWordHasItsFields : Prop :=
  ∀ s : State, s.statusWord.getLsbD 0 = (decide (s.est ≠ .idle)) ∧ s.statusWord.getLsbD 1 = s.ovr ∧
    s.statusWord.getLsbD 2 = s.crcok ∧ s.statusWord.getLsbD 3 = s.noresp ∧ s.statusWord.extractLsb' 4 2 = s.kind.bits ∧
    s.statusWord.extractLsb' 6 2 = 0#2 ∧ s.statusWord.extractLsb' 8 4 = s.err.code ∧ s.statusWord.extractLsb' 12 20 = 0#20

/-- R63, R64, R65: the address map, word by word of the port. -/
def Obligations.AddressMapSelectsRegistersWindowsAndReserved : Prop :=
  (∀ r : Reg, decodeAddr r.paddr = .reg r) ∧
  (∀ a : BitVec 10, 15 ≤ a.toNat → a.toNat < 256 → decodeAddr a = .reserved) ∧
  (∀ i, i < 256 → decodeAddr (BitVec.ofNat 10 (256 + i)) = .tx i ∧ decodeAddr (BitVec.ofNat 10 (512 + i)) = .rx i) ∧
  (∀ a : BitVec 10, 768 ≤ a.toNat → decodeAddr a = .reserved)

/-- R67: while idle, every register reads its value zero-extended; a RW register takes the low bits of a written word and reads
them back, and the write changes no other register, no buffer byte and not the engine. -/
def Obligations.IdleRegisterWriteReadsBack : Prop :=
  ∀ (s : State) (r : Reg) (v : Word), s.busy = false →
    (s.busRead r.paddr).1 = s.regWord r ∧
    (r.access = .rw →
      ((s.busWrite r.paddr v).busRead r.paddr).1 = (v.setWidth r.width).setWidth 32 ∧
      (∀ q : Reg, q ≠ r → (s.busWrite r.paddr v).regWord q = s.regWord q) ∧
      (s.busWrite r.paddr v).est = s.est ∧ TxKept s (s.busWrite r.paddr v) ∧ RxKept s (s.busWrite r.paddr v))

/-- R66: while idle, each window word reads its buffer byte zero-extended; a written word leaves its low byte there, and no
other byte and no register changes. -/
def Obligations.IdleBufferWriteReadsBack : Prop :=
  ∀ (s : State) (i : Nat) (v : Word), s.busy = false → i < 256 →
    (s.busRead (txPaddr i)).1 = (s.txByte i).setWidth 32 ∧ (s.busRead (rxPaddr i)).1 = (s.rxByte i).setWidth 32 ∧
    ((s.busWrite (txPaddr i) v).busRead (txPaddr i)).1 = (v.setWidth 8).setWidth 32 ∧
    (∀ j, j ≠ i → (s.busWrite (txPaddr i) v).txByte j = s.txByte j) ∧ RxKept s (s.busWrite (txPaddr i) v) ∧
    (∀ q : Reg, (s.busWrite (txPaddr i) v).regWord q = s.regWord q) ∧
    ((s.busWrite (rxPaddr i) v).busRead (rxPaddr i)).1 = (v.setWidth 8).setWidth 32 ∧
    (∀ j, j ≠ i → (s.busWrite (rxPaddr i) v).rxByte j = s.rxByte j) ∧ TxKept s (s.busWrite (rxPaddr i) v) ∧
    (∀ q : Reg, (s.busWrite (rxPaddr i) v).regWord q = s.regWord q)

/-- R69, the rule's MemWrite case by case: a write to STATUS clears OVR where bit 1 is 1 and changes nothing else; a write to
a RO register or a reserved address changes nothing; while BUSY, a write to CMD, a RW register or a buffer byte changes nothing
but OVR, which becomes 1; while idle it issues the command, or leaves the low bits in the register or the byte. -/
def Obligations.HostWritesObeyTheBusyRule : Prop :=
  ∀ (s : State) (a : BitVec 10) (v : Word),
    (decodeAddr a = .reg .status → s.busWrite a v = if v.getLsbD 1 then { s with ovr := false } else s) ∧
    (∀ r : Reg, decodeAddr a = .reg r → r.access = .ro → s.busWrite a v = s) ∧
    (decodeAddr a = .reserved → s.busWrite a v = s) ∧
    (s.busy = true →
      (∀ r : Reg, decodeAddr a = .reg r → r.access = .wo ∨ r.access = .rw → s.busWrite a v = { s with ovr := true }) ∧
      (∀ i, decodeAddr a = .tx i ∨ decodeAddr a = .rx i → s.busWrite a v = { s with ovr := true })) ∧
    (s.busy = false →
      (decodeAddr a = .reg .cmd → (s.busWrite a v).est = .busy (v.extractLsb' 0 8) (v.extractLsb' 8 8)) ∧
      (∀ r : Reg, decodeAddr a = .reg r → r.access = .rw →
        (s.busWrite a v).regWord r = (v.setWidth r.width).setWidth 32) ∧
      (∀ i, decodeAddr a = .tx i → (s.busWrite a v).txByte i = v.setWidth 8) ∧
      (∀ i, decodeAddr a = .rx i → (s.busWrite a v).rxByte i = v.setWidth 8))

/-- R70: while BUSY, STATUS reads its exact value, CMD and reserved addresses read 0, and any other read has its reserved
high bits 0 and otherwise depends on the number of the draw and the width only, never on the state. -/
def Obligations.BusyReadsAreExactOrFree : Prop :=
  ∀ (s s' : State) (a : BitVec 10), s.busy = true → s'.busy = true → s.draws = s'.draws →
    (decodeAddr a = .reg .status → (s.busRead a).1 = s.statusWord) ∧
    (decodeAddr a = .reg .cmd ∨ decodeAddr a = .reserved → (s.busRead a).1 = 0#32) ∧
    (∀ r : Reg, decodeAddr a = .reg r → r ≠ .status → r ≠ .cmd →
      (s.busRead a).1 = (s'.busRead a).1 ∧ (s.busRead a).1.toNat < 2 ^ r.width) ∧
    (∀ i, decodeAddr a = .tx i ∨ decodeAddr a = .rx i →
      (s.busRead a).1 = (s'.busRead a).1 ∧ (s.busRead a).1.toNat < 256)

/-- R76: a read changes nothing but the number of the next free value, and that only while BUSY. -/
def Obligations.ReadsHaveNoSideEffect : Prop :=
  ∀ (s : State) (a : BitVec 10), (s.busRead a).2 = { s with draws := (s.busRead a).2.draws } ∧
    (s.busy = false → (s.busRead a).2 = s) ∧ s.draws ≤ (s.busRead a).2.draws

/-- R25, R91: a write of a word to CMD while idle issues its command: EST holds `w[7:0]` and `w[15:8]`, BUSY reads 1, and no
register, no other field of STATUS and no buffer byte changes: the outcome stays as the previous command left it. -/
def Obligations.CmdWriteIssuesTheCommand : Prop :=
  ∀ (s : State) (w : Word), s.busy = false →
    (s.busWrite Reg.cmd.paddr w).est = .busy (w.extractLsb' 0 8) (w.extractLsb' 8 8) ∧
    (s.busWrite Reg.cmd.paddr w).statusWord.getLsbD 0 = true ∧ 1 ≤ (s.busWrite Reg.cmd.paddr w).latency ∧
    (∀ r : Reg, r ≠ .status → (s.busWrite Reg.cmd.paddr w).regWord r = s.regWord r) ∧
    (s.busWrite Reg.cmd.paddr w).ovr = s.ovr ∧ (s.busWrite Reg.cmd.paddr w).crcok = s.crcok ∧
    (s.busWrite Reg.cmd.paddr w).noresp = s.noresp ∧ (s.busWrite Reg.cmd.paddr w).kind = s.kind ∧
    (s.busWrite Reg.cmd.paddr w).err = s.err ∧ TxKept s (s.busWrite Reg.cmd.paddr w) ∧
    RxKept s (s.busWrite Reg.cmd.paddr w)

/-! ## Steps -/

/-- A step runs the decoded command: where the completion of the command in flight is due, the step is its meaning on the
state the event leaves (R91, R62), the illegal command's for an unassigned opcode; otherwise the step is the event alone. -/
def Obligations.StepRunsTheDecodedCommand : Prop :=
  ∀ s : State,
    (s.completionDue = false → step s = .next s.event) ∧
    (∀ op imm i, s.completionDue = true → s.est = .busy op imm → decodeOp op imm = .command i → step s = exec i s.event) ∧
    (∀ op imm o, s.completionDue = true → s.est = .busy op imm → decodeOp op imm = .illegal o →
      step s = execIllegal o s.event) ∧
    (∀ nbits w i, nbits ≤ 32 → decodeTableWord nbits w = some i →
      step (s.withFetchWord nbits w) = exec i (s.withFetchWord nbits w).event)

/-- R62, R66, R67: a transaction takes effect at its edge, judged against the state before it. A read leaves the word on
prdata and changes no register, no buffer byte and not the engine; a write leaves exactly what the write leaves. Stated where
no command completes at the edge; where one does, the completion comes after it (the statement before this one). -/
def Obligations.BusTransactionsTakeEffectAtTheirEdge : Prop :=
  ∀ (s : State) (rest : List Input), s.running = true → s.completionDue = false →
    (∀ a, s.inputs = .edge (some (.read a)) :: rest → ∃ t, step s = .next t ∧ t.prdata = some (s.busRead a).1 ∧
      SameBlock s t ∧ t.ovr = s.ovr ∧ t.inputs = rest) ∧
    (∀ a v, s.inputs = .edge (some (.write a v)) :: rest → ∃ t, step s = .next t ∧ t.est = (s.busWrite a v).est ∧
      (∀ r : Reg, t.regWord r = (s.busWrite a v).regWord r) ∧ TxKept (s.busWrite a v) t ∧ RxKept (s.busWrite a v) t ∧
      t.inputs = rest)

/-- What an event of an edge does while a command is in flight (R79 (b), R91): the block keeps every register, both buffers
and the engine, OVR apart; no host write made in flight changes anything else. -/
def Obligations.EdgesInFlightKeepTheBlock : Prop :=
  ∀ s : State, s.running = true → s.comingEdge = true → s.busy = true →
    SameBlock s s.event ∧ s.event.latency = s.latency - 1 ∧ s.event.running = true ∧ s.event.seed = s.seed

/-- The block never stops: every step of every state has a next state (60_exceptions.md R204). -/
def Obligations.EveryStepHasANextState : Prop := ∀ s : State, ∃ t, step s = .next t

/-- Every step keeps the invariant: the buffers' canonical form and bounds, STATUS consistent with one completed command,
the result registers consistent with one DECODE, the registers at reset values while held in reset, and the rest of
Safety.Inv. -/
def Obligations.EveryStepKeepsTheInvariant : Prop := ∀ s t : State, Inv s → step s = .next t → Inv t

/-- The state right after reset meets the invariant. -/
def Obligations.ResetMeetsTheInvariant : Prop := Inv State.reset

/-- R91: the result of a command is fixed at its issue. Whatever the host does while it is in flight (no reset), after its
remaining edges the block is, OVR apart, in the state its rule gives on the state at issue. -/
def Obligations.CommandResultIsFixedAtIssue : Prop :=
  ∀ s u : State, s.running = true → s.busy = true → NoReset s → completePending s = .next u →
    ∃ t, Host.Core.run Sys2Proof.core (max 1 s.latency) s = .next t ∧ SameBlock u t

/-- R91, R244: every command in flight completes: without a reset the engine is busy until its last edge and idle after it. -/
def Obligations.EveryCommandCompletes : Prop :=
  ∀ s : State, s.running = true → s.busy = true → NoReset s →
    (∃ t, Host.Core.run Sys2Proof.core (max 1 s.latency) s = .next t ∧ t.busy = false) ∧
    (∀ k, k < max 1 s.latency → ∃ t, Host.Core.run Sys2Proof.core k s = .next t ∧ t.busy = true)

/-- R98: each edge of a POLL reads STATUS; it goes on while BUSY reads 1 and ends at the first read of 0. (One read at each
edge is the model's choice, log 12.) -/
def Obligations.PollReadsStatusUntilIdle : Prop :=
  ∀ (s : State) (rest : List Input), s.running = true → s.inputs = .poll :: rest →
    ∃ t, step s = .next t ∧ t.prdata = some s.statusWord ∧ (s.busy = true → t.inputs = .poll :: rest) ∧
      (s.busy = false → t.inputs = rest)

/-- R28: OVR falls only by a reset or by a host write of STATUS with bit 1 = 1, and rises only by a write that BUSY drops. -/
def Obligations.OvrIsSticky : Prop :=
  ∀ s t : State, Inv s → step s = .next t →
    (s.ovr = true → t.ovr = false → (∃ rest, s.inputs = .rst false :: rest) ∨
      ∃ v, s.comingTxn = some (.write Reg.status.paddr v) ∧ v.getLsbD 1 = true) ∧
    (s.ovr = false → t.ovr = true → s.busy = true ∧ ∃ a v, s.comingTxn = some (.write a v) ∧
      ((∃ r : Reg, decodeAddr a = .reg r ∧ (r.access = .wo ∨ r.access = .rw)) ∨ ∃ i, decodeAddr a = .tx i ∨ decodeAddr a = .rx i))

/-- No command writes SLAVE, ADDR, QTY, VALUE or PLEN (R34, R36 to R39): out of reset, a step without a bus write keeps
them, and with one changes at most the register written. -/
def Obligations.OperandRegistersChangeOnlyByHostWrites : Prop :=
  ∀ (s t : State) (r : Reg), r = .slave ∨ r = .addr ∨ r = .qty ∨ r = .value ∨ r = .plen → s.running = true →
    s.comingEdge = true → step s = .next t → t.regWord r ≠ s.regWord r →
    s.busy = false ∧ ∃ v, s.comingTxn = some (.write r.paddr v) ∧ t.regWord r = (v.setWidth r.width).setWidth 32

/-- No command writes RX (R48): out of reset, a step changes a byte of RX only by a host write to its window while idle, and
leaves the low byte of the written word. -/
def Obligations.RxChangesOnlyByHostWrites : Prop :=
  ∀ (s t : State) (i : Nat), s.running = true → s.comingEdge = true → step s = .next t → t.rxByte i ≠ s.rxByte i →
    s.busy = false ∧ i < 256 ∧ ∃ v, s.comingTxn = some (.write (rxPaddr i) v) ∧ t.rxByte i = v.setWidth 8

/-- Only DECODE writes RFUNC, EXCODE, RPLEN and RCOUNT (R42 to R45): out of reset, a step that changes one of them is the
completion of a DECODE. -/
def Obligations.ResultRegistersChangeOnlyByDecode : Prop :=
  ∀ s t : State, s.running = true → s.comingEdge = true → step s = .next t → ¬ ResultsKept s t →
    s.completionDue = true ∧ ∃ imm, s.est = .busy 0x20#8 imm

/-! ## Reset (70_reset_and_hazards.md) -/

/-- R24, R230, R232: the register file, the outcome and the engine right after reset. -/
def Obligations.ResetValuesOfTheRegisters : Prop :=
  State.reset.regWord .crc = 0x0000FFFF#32 ∧ (∀ r : Reg, r ≠ .crc → State.reset.regWord r = 0#32) ∧
  State.reset.est = .idle ∧ State.reset.kind = .ok ∧ State.reset.err = .noError

/-- R230: asserting reset abandons the command in flight with no effect and resets every register; while rst_n is 0 the
registers stay, no transaction takes effect (a POLL's read among them) and a read returns 0, at every edge. R230 lists only
registers and R231 leaves the bytes open over reset: that an edge in reset keeps both buffers is the model's choice, which draws
them once, at the assertion (log 4). -/
def Obligations.ResetAbandonsAndHolds : Prop :=
  (∀ (s : State) (rest : List Input), s.inputs = .rst false :: rest → ∃ t, step s = .next t ∧ t.est = .idle ∧
    (∀ r : Reg, t.regWord r = State.reset.regWord r) ∧ t.rstN = false ∧ t.inputs = rest) ∧
  (∀ s : State, s.rstN = false → s.comingEdge = true →
    ∃ t, step s = .next t ∧ t.est = .idle ∧ (∀ r : Reg, t.regWord r = State.reset.regWord r) ∧ t.rstN = false ∧
      t.live = false ∧ t.inputs = s.inputs.tail ∧ TxKept s t ∧ RxKept s t ∧
      (∀ a, s.comingTxn = some (.read a) → t.prdata = some 0#32))

/-- R230, the release: raising rst_n changes no register, no buffer byte and not the engine, and does not yet take the block out
of reset; the next edge samples rst_n = 1. No transaction takes effect at that edge and a read returns 0, and after it the
block runs with its reset values. (Which edge this is: DEDUCED, log 8. The buffers: log 4.) -/
def Obligations.ReleaseTakesTheBlockOutOfReset : Prop :=
  (∀ (s : State) (rest : List Input), s.inputs = .rst true :: rest → ∃ t, step s = .next t ∧ t.rstN = true ∧
    t.live = s.live ∧ SameBlock s t ∧ t.ovr = s.ovr ∧ t.inputs = rest) ∧
  (∀ s : State, s.rstN = true → s.live = false → s.comingEdge = true →
    ∃ t, step s = .next t ∧ t.running = true ∧ t.est = .idle ∧ (∀ r : Reg, t.regWord r = State.reset.regWord r) ∧
      t.inputs = s.inputs.tail ∧ TxKept s t ∧ RxKept s t ∧ (∀ a, s.comingTxn = some (.read a) → t.prdata = some 0#32))

/-- R245: a run that has ended has one result. At its end no command is in flight, no other state ends the same run, and while
no reset is to come every later step keeps the register file and the buffers. -/
def Obligations.EndedRunsHaveOneResult : Prop :=
  ∀ s t : State, Ended s t →
    t.est = .idle ∧ (∀ t', Ended s t' → t' = t) ∧
    (NoReset t → ∀ k, ∃ u, Host.Core.run Sys2Proof.core k t = .next u ∧ SameResult t u)

/-- R98: the expansion of the lines of a host program to bus transactions, with the word addresses of R24 and R66. (That they
stand at consecutive edges is the model's choice, log 15.) -/
def Obligations.HostLinesExpandToTransactions : Prop :=
  (∀ (r : Reg) (v : Word), Line.expand (.wr r v) = [.edge (some (.write r.paddr v))]) ∧
  (∀ r : Reg, Line.expand (.rd r) = [.edge (some (.read r.paddr))]) ∧
  (∀ (i : Nat) (v : Word), Line.expand (.wrTx i v) = [.edge (some (.write (BitVec.ofNat 10 (0x400 / 4 + i)) v))] ∧
    Line.expand (.wrRx i v) = [.edge (some (.write (BitVec.ofNat 10 (0x800 / 4 + i)) v))]) ∧
  (∀ i : Nat, Line.expand (.rdTx i) = [.edge (some (.read (BitVec.ofNat 10 (0x400 / 4 + i))))] ∧
    Line.expand (.rdRx i) = [.edge (some (.read (BitVec.ofNat 10 (0x800 / 4 + i))))]) ∧
  (∀ b : Byte, Line.expand (.cmd (.crcByte b)) = [.edge (some (.write 0#10 (b.setWidth 32 <<< 8 ||| 0x02#32)))]) ∧
  (∀ i : Instr, (∀ b, i ≠ .crcByte b) → Line.expand (.cmd i) = [.edge (some (.write 0#10 ((opcode i).setWidth 32)))]) ∧
  (∀ i : Instr, Line.expand (.run i) = Line.expand (.cmd i) ++ Line.expand .poll) ∧
  (∀ (i : Nat) (bs : List Byte), Line.expand (.loadTx i bs) =
    (bs.zipIdx i).flatMap (fun p => Line.expand (.wrTx p.2 (p.1.setWidth 32))) ∧
    Line.expand (.loadRx i bs) = (bs.zipIdx i).flatMap (fun p => Line.expand (.wrRx p.2 (p.1.setWidth 32)))) ∧
  (∀ bs : List Byte, Line.expand (.rxFrame bs) =
    Line.expand (.loadRx 0 bs) ++ Line.expand (.wr .rxlen (BitVec.ofNat 32 bs.length)))
end

