-- ==== Sys2Proof/Laws/State.lean ====
section
/-! SUPPORT. For every named update of the state: what each field is after it, and which views of the state it leaves. All
true by rfl, so that no later proof unfolds an update. -/

namespace Sys2Proof.Machine

variable (s : State)

/-! ### beginCommand -/

@[simp] theorem State.beginCommand_est : s.beginCommand.est = s.est := rfl
@[simp] theorem State.beginCommand_ovr : s.beginCommand.ovr = s.ovr := rfl
@[simp] theorem State.beginCommand_crcok : s.beginCommand.crcok = false := rfl
@[simp] theorem State.beginCommand_noresp : s.beginCommand.noresp = false := rfl
@[simp] theorem State.beginCommand_kind : s.beginCommand.kind = s.kind := rfl
@[simp] theorem State.beginCommand_err : s.beginCommand.err = s.err := rfl
@[simp] theorem State.beginCommand_crc : s.beginCommand.crc = s.crc := rfl
@[simp] theorem State.beginCommand_slave : s.beginCommand.slave = s.slave := rfl
@[simp] theorem State.beginCommand_func : s.beginCommand.func = s.func := rfl
@[simp] theorem State.beginCommand_addr : s.beginCommand.addr = s.addr := rfl
@[simp] theorem State.beginCommand_qty : s.beginCommand.qty = s.qty := rfl
@[simp] theorem State.beginCommand_value : s.beginCommand.value = s.value := rfl
@[simp] theorem State.beginCommand_plen : s.beginCommand.plen = s.plen := rfl
@[simp] theorem State.beginCommand_txlen : s.beginCommand.txlen = s.txlen := rfl
@[simp] theorem State.beginCommand_rxlen : s.beginCommand.rxlen = s.rxlen := rfl
@[simp] theorem State.beginCommand_rfunc : s.beginCommand.rfunc = s.rfunc := rfl
@[simp] theorem State.beginCommand_excode : s.beginCommand.excode = s.excode := rfl
@[simp] theorem State.beginCommand_rplen : s.beginCommand.rplen = s.rplen := rfl
@[simp] theorem State.beginCommand_rcount : s.beginCommand.rcount = s.rcount := rfl
@[simp] theorem State.beginCommand_tx : s.beginCommand.tx = s.tx := rfl
@[simp] theorem State.beginCommand_rx : s.beginCommand.rx = s.rx := rfl
@[simp] theorem State.beginCommand_rstN : s.beginCommand.rstN = s.rstN := rfl
@[simp] theorem State.beginCommand_live : s.beginCommand.live = s.live := rfl
@[simp] theorem State.beginCommand_prdata : s.beginCommand.prdata = s.prdata := rfl
@[simp] theorem State.beginCommand_inputs : s.beginCommand.inputs = s.inputs := rfl
@[simp] theorem State.beginCommand_latency : s.beginCommand.latency = s.latency := rfl
@[simp] theorem State.beginCommand_draws : s.beginCommand.draws = s.draws := rfl
@[simp] theorem State.beginCommand_seed : s.beginCommand.seed = s.seed := rfl
@[simp] theorem State.beginCommand_txByte : s.beginCommand.txByte = s.txByte := rfl
@[simp] theorem State.beginCommand_rxByte : s.beginCommand.rxByte = s.rxByte := rfl
@[simp] theorem State.beginCommand_txBytes : s.beginCommand.txBytes = s.txBytes := rfl
@[simp] theorem State.beginCommand_rxBytes : s.beginCommand.rxBytes = s.rxBytes := rfl
@[simp] theorem State.beginCommand_busy : s.beginCommand.busy = s.busy := rfl
@[simp] theorem State.beginCommand_slaveInvalid : s.beginCommand.slaveInvalid = s.slaveInvalid := rfl
@[simp] theorem State.beginCommand_funcInvalid : s.beginCommand.funcInvalid = s.funcInvalid := rfl
@[simp] theorem State.beginCommand_plenInvalid : s.beginCommand.plenInvalid = s.plenInvalid := rfl
@[simp] theorem State.beginCommand_rangeInvalid : s.beginCommand.rangeInvalid = s.rangeInvalid := rfl
@[simp] theorem State.beginCommand_txlenInvalid : s.beginCommand.txlenInvalid = s.txlenInvalid := rfl
@[simp] theorem State.beginCommand_rxlenInvalid : s.beginCommand.rxlenInvalid = s.rxlenInvalid := rfl
@[simp] theorem State.beginCommand_decodeInvalid : s.beginCommand.decodeInvalid = s.decodeInvalid := rfl
@[simp] theorem State.beginCommand_rxCrc : s.beginCommand.rxCrc = s.rxCrc := rfl
@[simp] theorem State.beginCommand_rxTrailer : s.beginCommand.rxTrailer = s.rxTrailer := rfl
@[simp] theorem State.beginCommand_crcMismatch : s.beginCommand.crcMismatch = s.crcMismatch := rfl
@[simp] theorem State.beginCommand_slaveMismatch : s.beginCommand.slaveMismatch = s.slaveMismatch := rfl
@[simp] theorem State.beginCommand_isException : s.beginCommand.isException = s.isException := rfl
@[simp] theorem State.beginCommand_echoMismatch : s.beginCommand.echoMismatch = s.echoMismatch := rfl
@[simp] theorem State.beginCommand_functionMismatch : s.beginCommand.functionMismatch = s.functionMismatch := rfl
@[simp] theorem State.beginCommand_readFunction : s.beginCommand.readFunction = s.readFunction := rfl
@[simp] theorem State.beginCommand_byteCountInvalid : s.beginCommand.byteCountInvalid = s.byteCountInvalid := rfl

/-! ### setOutcome -/

@[simp] theorem State.setOutcome_est (k : Kind) (e : Err) : (s.setOutcome k e).est = .idle := rfl
@[simp] theorem State.setOutcome_ovr (k : Kind) (e : Err) : (s.setOutcome k e).ovr = s.ovr := rfl
@[simp] theorem State.setOutcome_crcok (k : Kind) (e : Err) : (s.setOutcome k e).crcok = s.crcok := rfl
@[simp] theorem State.setOutcome_noresp (k : Kind) (e : Err) : (s.setOutcome k e).noresp = s.noresp := rfl
@[simp] theorem State.setOutcome_kind (k : Kind) (e : Err) : (s.setOutcome k e).kind = k := rfl
@[simp] theorem State.setOutcome_err (k : Kind) (e : Err) : (s.setOutcome k e).err = e := rfl
@[simp] theorem State.setOutcome_crc (k : Kind) (e : Err) : (s.setOutcome k e).crc = s.crc := rfl
@[simp] theorem State.setOutcome_slave (k : Kind) (e : Err) : (s.setOutcome k e).slave = s.slave := rfl
@[simp] theorem State.setOutcome_func (k : Kind) (e : Err) : (s.setOutcome k e).func = s.func := rfl
@[simp] theorem State.setOutcome_addr (k : Kind) (e : Err) : (s.setOutcome k e).addr = s.addr := rfl
@[simp] theorem State.setOutcome_qty (k : Kind) (e : Err) : (s.setOutcome k e).qty = s.qty := rfl
@[simp] theorem State.setOutcome_value (k : Kind) (e : Err) : (s.setOutcome k e).value = s.value := rfl
@[simp] theorem State.setOutcome_plen (k : Kind) (e : Err) : (s.setOutcome k e).plen = s.plen := rfl
@[simp] theorem State.setOutcome_txlen (k : Kind) (e : Err) : (s.setOutcome k e).txlen = s.txlen := rfl
@[simp] theorem State.setOutcome_rxlen (k : Kind) (e : Err) : (s.setOutcome k e).rxlen = s.rxlen := rfl
@[simp] theorem State.setOutcome_rfunc (k : Kind) (e : Err) : (s.setOutcome k e).rfunc = s.rfunc := rfl
@[simp] theorem State.setOutcome_excode (k : Kind) (e : Err) : (s.setOutcome k e).excode = s.excode := rfl
@[simp] theorem State.setOutcome_rplen (k : Kind) (e : Err) : (s.setOutcome k e).rplen = s.rplen := rfl
@[simp] theorem State.setOutcome_rcount (k : Kind) (e : Err) : (s.setOutcome k e).rcount = s.rcount := rfl
@[simp] theorem State.setOutcome_tx (k : Kind) (e : Err) : (s.setOutcome k e).tx = s.tx := rfl
@[simp] theorem State.setOutcome_rx (k : Kind) (e : Err) : (s.setOutcome k e).rx = s.rx := rfl
@[simp] theorem State.setOutcome_rstN (k : Kind) (e : Err) : (s.setOutcome k e).rstN = s.rstN := rfl
@[simp] theorem State.setOutcome_live (k : Kind) (e : Err) : (s.setOutcome k e).live = s.live := rfl
@[simp] theorem State.setOutcome_prdata (k : Kind) (e : Err) : (s.setOutcome k e).prdata = s.prdata := rfl
@[simp] theorem State.setOutcome_inputs (k : Kind) (e : Err) : (s.setOutcome k e).inputs = s.inputs := rfl
@[simp] theorem State.setOutcome_latency (k : Kind) (e : Err) : (s.setOutcome k e).latency = s.latency := rfl
@[simp] theorem State.setOutcome_draws (k : Kind) (e : Err) : (s.setOutcome k e).draws = s.draws := rfl
@[simp] theorem State.setOutcome_seed (k : Kind) (e : Err) : (s.setOutcome k e).seed = s.seed := rfl
@[simp] theorem State.setOutcome_txByte (k : Kind) (e : Err) : (s.setOutcome k e).txByte = s.txByte := rfl
@[simp] theorem State.setOutcome_rxByte (k : Kind) (e : Err) : (s.setOutcome k e).rxByte = s.rxByte := rfl
@[simp] theorem State.setOutcome_txBytes (k : Kind) (e : Err) : (s.setOutcome k e).txBytes = s.txBytes := rfl
@[simp] theorem State.setOutcome_rxBytes (k : Kind) (e : Err) : (s.setOutcome k e).rxBytes = s.rxBytes := rfl
@[simp] theorem State.setOutcome_slaveInvalid (k : Kind) (e : Err) : (s.setOutcome k e).slaveInvalid = s.slaveInvalid := rfl
@[simp] theorem State.setOutcome_funcInvalid (k : Kind) (e : Err) : (s.setOutcome k e).funcInvalid = s.funcInvalid := rfl
@[simp] theorem State.setOutcome_plenInvalid (k : Kind) (e : Err) : (s.setOutcome k e).plenInvalid = s.plenInvalid := rfl
@[simp] theorem State.setOutcome_rangeInvalid (k : Kind) (e : Err) : (s.setOutcome k e).rangeInvalid = s.rangeInvalid := rfl
@[simp] theorem State.setOutcome_txlenInvalid (k : Kind) (e : Err) : (s.setOutcome k e).txlenInvalid = s.txlenInvalid := rfl
@[simp] theorem State.setOutcome_rxlenInvalid (k : Kind) (e : Err) : (s.setOutcome k e).rxlenInvalid = s.rxlenInvalid := rfl
@[simp] theorem State.setOutcome_decodeInvalid (k : Kind) (e : Err) : (s.setOutcome k e).decodeInvalid = s.decodeInvalid := rfl
@[simp] theorem State.setOutcome_rxCrc (k : Kind) (e : Err) : (s.setOutcome k e).rxCrc = s.rxCrc := rfl
@[simp] theorem State.setOutcome_rxTrailer (k : Kind) (e : Err) : (s.setOutcome k e).rxTrailer = s.rxTrailer := rfl
@[simp] theorem State.setOutcome_crcMismatch (k : Kind) (e : Err) : (s.setOutcome k e).crcMismatch = s.crcMismatch := rfl
@[simp] theorem State.setOutcome_slaveMismatch (k : Kind) (e : Err) : (s.setOutcome k e).slaveMismatch = s.slaveMismatch := rfl
@[simp] theorem State.setOutcome_isException (k : Kind) (e : Err) : (s.setOutcome k e).isException = s.isException := rfl
@[simp] theorem State.setOutcome_echoMismatch (k : Kind) (e : Err) : (s.setOutcome k e).echoMismatch = s.echoMismatch := rfl
@[simp] theorem State.setOutcome_functionMismatch (k : Kind) (e : Err) : (s.setOutcome k e).functionMismatch = s.functionMismatch := rfl
@[simp] theorem State.setOutcome_readFunction (k : Kind) (e : Err) : (s.setOutcome k e).readFunction = s.readFunction := rfl
@[simp] theorem State.setOutcome_byteCountInvalid (k : Kind) (e : Err) : (s.setOutcome k e).byteCountInvalid = s.byteCountInvalid := rfl

/-! ### setCrc -/

@[simp] theorem State.setCrc_est (c : Half) : (s.setCrc c).est = s.est := rfl
@[simp] theorem State.setCrc_ovr (c : Half) : (s.setCrc c).ovr = s.ovr := rfl
@[simp] theorem State.setCrc_crcok (c : Half) : (s.setCrc c).crcok = s.crcok := rfl
@[simp] theorem State.setCrc_noresp (c : Half) : (s.setCrc c).noresp = s.noresp := rfl
@[simp] theorem State.setCrc_kind (c : Half) : (s.setCrc c).kind = s.kind := rfl
@[simp] theorem State.setCrc_err (c : Half) : (s.setCrc c).err = s.err := rfl
@[simp] theorem State.setCrc_crc (c : Half) : (s.setCrc c).crc = c := rfl
@[simp] theorem State.setCrc_slave (c : Half) : (s.setCrc c).slave = s.slave := rfl
@[simp] theorem State.setCrc_func (c : Half) : (s.setCrc c).func = s.func := rfl
@[simp] theorem State.setCrc_addr (c : Half) : (s.setCrc c).addr = s.addr := rfl
@[simp] theorem State.setCrc_qty (c : Half) : (s.setCrc c).qty = s.qty := rfl
@[simp] theorem State.setCrc_value (c : Half) : (s.setCrc c).value = s.value := rfl
@[simp] theorem State.setCrc_plen (c : Half) : (s.setCrc c).plen = s.plen := rfl
@[simp] theorem State.setCrc_txlen (c : Half) : (s.setCrc c).txlen = s.txlen := rfl
@[simp] theorem State.setCrc_rxlen (c : Half) : (s.setCrc c).rxlen = s.rxlen := rfl
@[simp] theorem State.setCrc_rfunc (c : Half) : (s.setCrc c).rfunc = s.rfunc := rfl
@[simp] theorem State.setCrc_excode (c : Half) : (s.setCrc c).excode = s.excode := rfl
@[simp] theorem State.setCrc_rplen (c : Half) : (s.setCrc c).rplen = s.rplen := rfl
@[simp] theorem State.setCrc_rcount (c : Half) : (s.setCrc c).rcount = s.rcount := rfl
@[simp] theorem State.setCrc_tx (c : Half) : (s.setCrc c).tx = s.tx := rfl
@[simp] theorem State.setCrc_rx (c : Half) : (s.setCrc c).rx = s.rx := rfl
@[simp] theorem State.setCrc_rstN (c : Half) : (s.setCrc c).rstN = s.rstN := rfl
@[simp] theorem State.setCrc_live (c : Half) : (s.setCrc c).live = s.live := rfl
@[simp] theorem State.setCrc_prdata (c : Half) : (s.setCrc c).prdata = s.prdata := rfl
@[simp] theorem State.setCrc_inputs (c : Half) : (s.setCrc c).inputs = s.inputs := rfl
@[simp] theorem State.setCrc_latency (c : Half) : (s.setCrc c).latency = s.latency := rfl
@[simp] theorem State.setCrc_draws (c : Half) : (s.setCrc c).draws = s.draws := rfl
@[simp] theorem State.setCrc_seed (c : Half) : (s.setCrc c).seed = s.seed := rfl
@[simp] theorem State.setCrc_txByte (c : Half) : (s.setCrc c).txByte = s.txByte := rfl
@[simp] theorem State.setCrc_rxByte (c : Half) : (s.setCrc c).rxByte = s.rxByte := rfl
@[simp] theorem State.setCrc_txBytes (c : Half) : (s.setCrc c).txBytes = s.txBytes := rfl
@[simp] theorem State.setCrc_rxBytes (c : Half) : (s.setCrc c).rxBytes = s.rxBytes := rfl
@[simp] theorem State.setCrc_busy (c : Half) : (s.setCrc c).busy = s.busy := rfl
@[simp] theorem State.setCrc_slaveInvalid (c : Half) : (s.setCrc c).slaveInvalid = s.slaveInvalid := rfl
@[simp] theorem State.setCrc_funcInvalid (c : Half) : (s.setCrc c).funcInvalid = s.funcInvalid := rfl
@[simp] theorem State.setCrc_plenInvalid (c : Half) : (s.setCrc c).plenInvalid = s.plenInvalid := rfl
@[simp] theorem State.setCrc_rangeInvalid (c : Half) : (s.setCrc c).rangeInvalid = s.rangeInvalid := rfl
@[simp] theorem State.setCrc_txlenInvalid (c : Half) : (s.setCrc c).txlenInvalid = s.txlenInvalid := rfl
@[simp] theorem State.setCrc_rxlenInvalid (c : Half) : (s.setCrc c).rxlenInvalid = s.rxlenInvalid := rfl
@[simp] theorem State.setCrc_decodeInvalid (c : Half) : (s.setCrc c).decodeInvalid = s.decodeInvalid := rfl
@[simp] theorem State.setCrc_rxCrc (c : Half) : (s.setCrc c).rxCrc = s.rxCrc := rfl
@[simp] theorem State.setCrc_rxTrailer (c : Half) : (s.setCrc c).rxTrailer = s.rxTrailer := rfl
@[simp] theorem State.setCrc_crcMismatch (c : Half) : (s.setCrc c).crcMismatch = s.crcMismatch := rfl
@[simp] theorem State.setCrc_slaveMismatch (c : Half) : (s.setCrc c).slaveMismatch = s.slaveMismatch := rfl
@[simp] theorem State.setCrc_isException (c : Half) : (s.setCrc c).isException = s.isException := rfl
@[simp] theorem State.setCrc_echoMismatch (c : Half) : (s.setCrc c).echoMismatch = s.echoMismatch := rfl
@[simp] theorem State.setCrc_functionMismatch (c : Half) : (s.setCrc c).functionMismatch = s.functionMismatch := rfl
@[simp] theorem State.setCrc_readFunction (c : Half) : (s.setCrc c).readFunction = s.readFunction := rfl
@[simp] theorem State.setCrc_byteCountInvalid (c : Half) : (s.setCrc c).byteCountInvalid = s.byteCountInvalid := rfl

/-! ### setCrcok -/

@[simp] theorem State.setCrcok_est (b : Bool) : (s.setCrcok b).est = s.est := rfl
@[simp] theorem State.setCrcok_ovr (b : Bool) : (s.setCrcok b).ovr = s.ovr := rfl
@[simp] theorem State.setCrcok_crcok (b : Bool) : (s.setCrcok b).crcok = b := rfl
@[simp] theorem State.setCrcok_noresp (b : Bool) : (s.setCrcok b).noresp = s.noresp := rfl
@[simp] theorem State.setCrcok_kind (b : Bool) : (s.setCrcok b).kind = s.kind := rfl
@[simp] theorem State.setCrcok_err (b : Bool) : (s.setCrcok b).err = s.err := rfl
@[simp] theorem State.setCrcok_crc (b : Bool) : (s.setCrcok b).crc = s.crc := rfl
@[simp] theorem State.setCrcok_slave (b : Bool) : (s.setCrcok b).slave = s.slave := rfl
@[simp] theorem State.setCrcok_func (b : Bool) : (s.setCrcok b).func = s.func := rfl
@[simp] theorem State.setCrcok_addr (b : Bool) : (s.setCrcok b).addr = s.addr := rfl
@[simp] theorem State.setCrcok_qty (b : Bool) : (s.setCrcok b).qty = s.qty := rfl
@[simp] theorem State.setCrcok_value (b : Bool) : (s.setCrcok b).value = s.value := rfl
@[simp] theorem State.setCrcok_plen (b : Bool) : (s.setCrcok b).plen = s.plen := rfl
@[simp] theorem State.setCrcok_txlen (b : Bool) : (s.setCrcok b).txlen = s.txlen := rfl
@[simp] theorem State.setCrcok_rxlen (b : Bool) : (s.setCrcok b).rxlen = s.rxlen := rfl
@[simp] theorem State.setCrcok_rfunc (b : Bool) : (s.setCrcok b).rfunc = s.rfunc := rfl
@[simp] theorem State.setCrcok_excode (b : Bool) : (s.setCrcok b).excode = s.excode := rfl
@[simp] theorem State.setCrcok_rplen (b : Bool) : (s.setCrcok b).rplen = s.rplen := rfl
@[simp] theorem State.setCrcok_rcount (b : Bool) : (s.setCrcok b).rcount = s.rcount := rfl
@[simp] theorem State.setCrcok_tx (b : Bool) : (s.setCrcok b).tx = s.tx := rfl
@[simp] theorem State.setCrcok_rx (b : Bool) : (s.setCrcok b).rx = s.rx := rfl
@[simp] theorem State.setCrcok_rstN (b : Bool) : (s.setCrcok b).rstN = s.rstN := rfl
@[simp] theorem State.setCrcok_live (b : Bool) : (s.setCrcok b).live = s.live := rfl
@[simp] theorem State.setCrcok_prdata (b : Bool) : (s.setCrcok b).prdata = s.prdata := rfl
@[simp] theorem State.setCrcok_inputs (b : Bool) : (s.setCrcok b).inputs = s.inputs := rfl
@[simp] theorem State.setCrcok_latency (b : Bool) : (s.setCrcok b).latency = s.latency := rfl
@[simp] theorem State.setCrcok_draws (b : Bool) : (s.setCrcok b).draws = s.draws := rfl
@[simp] theorem State.setCrcok_seed (b : Bool) : (s.setCrcok b).seed = s.seed := rfl
@[simp] theorem State.setCrcok_txByte (b : Bool) : (s.setCrcok b).txByte = s.txByte := rfl
@[simp] theorem State.setCrcok_rxByte (b : Bool) : (s.setCrcok b).rxByte = s.rxByte := rfl
@[simp] theorem State.setCrcok_txBytes (b : Bool) : (s.setCrcok b).txBytes = s.txBytes := rfl
@[simp] theorem State.setCrcok_rxBytes (b : Bool) : (s.setCrcok b).rxBytes = s.rxBytes := rfl
@[simp] theorem State.setCrcok_busy (b : Bool) : (s.setCrcok b).busy = s.busy := rfl
@[simp] theorem State.setCrcok_slaveInvalid (b : Bool) : (s.setCrcok b).slaveInvalid = s.slaveInvalid := rfl
@[simp] theorem State.setCrcok_funcInvalid (b : Bool) : (s.setCrcok b).funcInvalid = s.funcInvalid := rfl
@[simp] theorem State.setCrcok_plenInvalid (b : Bool) : (s.setCrcok b).plenInvalid = s.plenInvalid := rfl
@[simp] theorem State.setCrcok_rangeInvalid (b : Bool) : (s.setCrcok b).rangeInvalid = s.rangeInvalid := rfl
@[simp] theorem State.setCrcok_txlenInvalid (b : Bool) : (s.setCrcok b).txlenInvalid = s.txlenInvalid := rfl
@[simp] theorem State.setCrcok_rxlenInvalid (b : Bool) : (s.setCrcok b).rxlenInvalid = s.rxlenInvalid := rfl
@[simp] theorem State.setCrcok_decodeInvalid (b : Bool) : (s.setCrcok b).decodeInvalid = s.decodeInvalid := rfl
@[simp] theorem State.setCrcok_rxCrc (b : Bool) : (s.setCrcok b).rxCrc = s.rxCrc := rfl
@[simp] theorem State.setCrcok_rxTrailer (b : Bool) : (s.setCrcok b).rxTrailer = s.rxTrailer := rfl
@[simp] theorem State.setCrcok_crcMismatch (b : Bool) : (s.setCrcok b).crcMismatch = s.crcMismatch := rfl
@[simp] theorem State.setCrcok_slaveMismatch (b : Bool) : (s.setCrcok b).slaveMismatch = s.slaveMismatch := rfl
@[simp] theorem State.setCrcok_isException (b : Bool) : (s.setCrcok b).isException = s.isException := rfl
@[simp] theorem State.setCrcok_echoMismatch (b : Bool) : (s.setCrcok b).echoMismatch = s.echoMismatch := rfl
@[simp] theorem State.setCrcok_functionMismatch (b : Bool) : (s.setCrcok b).functionMismatch = s.functionMismatch := rfl
@[simp] theorem State.setCrcok_readFunction (b : Bool) : (s.setCrcok b).readFunction = s.readFunction := rfl
@[simp] theorem State.setCrcok_byteCountInvalid (b : Bool) : (s.setCrcok b).byteCountInvalid = s.byteCountInvalid := rfl

/-! ### setFunc -/

@[simp] theorem State.setFunc_est (f : Byte) : (s.setFunc f).est = s.est := rfl
@[simp] theorem State.setFunc_ovr (f : Byte) : (s.setFunc f).ovr = s.ovr := rfl
@[simp] theorem State.setFunc_crcok (f : Byte) : (s.setFunc f).crcok = s.crcok := rfl
@[simp] theorem State.setFunc_noresp (f : Byte) : (s.setFunc f).noresp = s.noresp := rfl
@[simp] theorem State.setFunc_kind (f : Byte) : (s.setFunc f).kind = s.kind := rfl
@[simp] theorem State.setFunc_err (f : Byte) : (s.setFunc f).err = s.err := rfl
@[simp] theorem State.setFunc_crc (f : Byte) : (s.setFunc f).crc = s.crc := rfl
@[simp] theorem State.setFunc_slave (f : Byte) : (s.setFunc f).slave = s.slave := rfl
@[simp] theorem State.setFunc_func (f : Byte) : (s.setFunc f).func = f := rfl
@[simp] theorem State.setFunc_addr (f : Byte) : (s.setFunc f).addr = s.addr := rfl
@[simp] theorem State.setFunc_qty (f : Byte) : (s.setFunc f).qty = s.qty := rfl
@[simp] theorem State.setFunc_value (f : Byte) : (s.setFunc f).value = s.value := rfl
@[simp] theorem State.setFunc_plen (f : Byte) : (s.setFunc f).plen = s.plen := rfl
@[simp] theorem State.setFunc_txlen (f : Byte) : (s.setFunc f).txlen = s.txlen := rfl
@[simp] theorem State.setFunc_rxlen (f : Byte) : (s.setFunc f).rxlen = s.rxlen := rfl
@[simp] theorem State.setFunc_rfunc (f : Byte) : (s.setFunc f).rfunc = s.rfunc := rfl
@[simp] theorem State.setFunc_excode (f : Byte) : (s.setFunc f).excode = s.excode := rfl
@[simp] theorem State.setFunc_rplen (f : Byte) : (s.setFunc f).rplen = s.rplen := rfl
@[simp] theorem State.setFunc_rcount (f : Byte) : (s.setFunc f).rcount = s.rcount := rfl
@[simp] theorem State.setFunc_tx (f : Byte) : (s.setFunc f).tx = s.tx := rfl
@[simp] theorem State.setFunc_rx (f : Byte) : (s.setFunc f).rx = s.rx := rfl
@[simp] theorem State.setFunc_rstN (f : Byte) : (s.setFunc f).rstN = s.rstN := rfl
@[simp] theorem State.setFunc_live (f : Byte) : (s.setFunc f).live = s.live := rfl
@[simp] theorem State.setFunc_prdata (f : Byte) : (s.setFunc f).prdata = s.prdata := rfl
@[simp] theorem State.setFunc_inputs (f : Byte) : (s.setFunc f).inputs = s.inputs := rfl
@[simp] theorem State.setFunc_latency (f : Byte) : (s.setFunc f).latency = s.latency := rfl
@[simp] theorem State.setFunc_draws (f : Byte) : (s.setFunc f).draws = s.draws := rfl
@[simp] theorem State.setFunc_seed (f : Byte) : (s.setFunc f).seed = s.seed := rfl
@[simp] theorem State.setFunc_txByte (f : Byte) : (s.setFunc f).txByte = s.txByte := rfl
@[simp] theorem State.setFunc_rxByte (f : Byte) : (s.setFunc f).rxByte = s.rxByte := rfl
@[simp] theorem State.setFunc_txBytes (f : Byte) : (s.setFunc f).txBytes = s.txBytes := rfl
@[simp] theorem State.setFunc_rxBytes (f : Byte) : (s.setFunc f).rxBytes = s.rxBytes := rfl
@[simp] theorem State.setFunc_busy (f : Byte) : (s.setFunc f).busy = s.busy := rfl
@[simp] theorem State.setFunc_slaveInvalid (f : Byte) : (s.setFunc f).slaveInvalid = s.slaveInvalid := rfl
@[simp] theorem State.setFunc_plenInvalid (f : Byte) : (s.setFunc f).plenInvalid = s.plenInvalid := rfl
@[simp] theorem State.setFunc_rangeInvalid (f : Byte) : (s.setFunc f).rangeInvalid = s.rangeInvalid := rfl
@[simp] theorem State.setFunc_txlenInvalid (f : Byte) : (s.setFunc f).txlenInvalid = s.txlenInvalid := rfl
@[simp] theorem State.setFunc_rxlenInvalid (f : Byte) : (s.setFunc f).rxlenInvalid = s.rxlenInvalid := rfl
@[simp] theorem State.setFunc_rxCrc (f : Byte) : (s.setFunc f).rxCrc = s.rxCrc := rfl
@[simp] theorem State.setFunc_rxTrailer (f : Byte) : (s.setFunc f).rxTrailer = s.rxTrailer := rfl
@[simp] theorem State.setFunc_crcMismatch (f : Byte) : (s.setFunc f).crcMismatch = s.crcMismatch := rfl
@[simp] theorem State.setFunc_slaveMismatch (f : Byte) : (s.setFunc f).slaveMismatch = s.slaveMismatch := rfl
@[simp] theorem State.setFunc_isException (f : Byte) : (s.setFunc f).isException = s.isException := rfl
@[simp] theorem State.setFunc_byteCountInvalid (f : Byte) : (s.setFunc f).byteCountInvalid = s.byteCountInvalid := rfl

/-! ### setFramed -/

@[simp] theorem State.setFramed_est (n : Nat) (c : Half) : (s.setFramed n c).est = s.est := rfl
@[simp] theorem State.setFramed_ovr (n : Nat) (c : Half) : (s.setFramed n c).ovr = s.ovr := rfl
@[simp] theorem State.setFramed_crcok (n : Nat) (c : Half) : (s.setFramed n c).crcok = s.crcok := rfl
@[simp] theorem State.setFramed_noresp (n : Nat) (c : Half) : (s.setFramed n c).noresp = decide (s.slave = 0#8) := rfl
@[simp] theorem State.setFramed_kind (n : Nat) (c : Half) : (s.setFramed n c).kind = s.kind := rfl
@[simp] theorem State.setFramed_err (n : Nat) (c : Half) : (s.setFramed n c).err = s.err := rfl
@[simp] theorem State.setFramed_crc (n : Nat) (c : Half) : (s.setFramed n c).crc = c := rfl
@[simp] theorem State.setFramed_slave (n : Nat) (c : Half) : (s.setFramed n c).slave = s.slave := rfl
@[simp] theorem State.setFramed_func (n : Nat) (c : Half) : (s.setFramed n c).func = s.func := rfl
@[simp] theorem State.setFramed_addr (n : Nat) (c : Half) : (s.setFramed n c).addr = s.addr := rfl
@[simp] theorem State.setFramed_qty (n : Nat) (c : Half) : (s.setFramed n c).qty = s.qty := rfl
@[simp] theorem State.setFramed_value (n : Nat) (c : Half) : (s.setFramed n c).value = s.value := rfl
@[simp] theorem State.setFramed_plen (n : Nat) (c : Half) : (s.setFramed n c).plen = s.plen := rfl
@[simp] theorem State.setFramed_txlen (n : Nat) (c : Half) : (s.setFramed n c).txlen = BitVec.ofNat 9 n := rfl
@[simp] theorem State.setFramed_rxlen (n : Nat) (c : Half) : (s.setFramed n c).rxlen = 0#9 := rfl
@[simp] theorem State.setFramed_rfunc (n : Nat) (c : Half) : (s.setFramed n c).rfunc = s.rfunc := rfl
@[simp] theorem State.setFramed_excode (n : Nat) (c : Half) : (s.setFramed n c).excode = s.excode := rfl
@[simp] theorem State.setFramed_rplen (n : Nat) (c : Half) : (s.setFramed n c).rplen = s.rplen := rfl
@[simp] theorem State.setFramed_rcount (n : Nat) (c : Half) : (s.setFramed n c).rcount = s.rcount := rfl
@[simp] theorem State.setFramed_tx (n : Nat) (c : Half) : (s.setFramed n c).tx = s.tx := rfl
@[simp] theorem State.setFramed_rx (n : Nat) (c : Half) : (s.setFramed n c).rx = s.rx := rfl
@[simp] theorem State.setFramed_rstN (n : Nat) (c : Half) : (s.setFramed n c).rstN = s.rstN := rfl
@[simp] theorem State.setFramed_live (n : Nat) (c : Half) : (s.setFramed n c).live = s.live := rfl
@[simp] theorem State.setFramed_prdata (n : Nat) (c : Half) : (s.setFramed n c).prdata = s.prdata := rfl
@[simp] theorem State.setFramed_inputs (n : Nat) (c : Half) : (s.setFramed n c).inputs = s.inputs := rfl
@[simp] theorem State.setFramed_latency (n : Nat) (c : Half) : (s.setFramed n c).latency = s.latency := rfl
@[simp] theorem State.setFramed_draws (n : Nat) (c : Half) : (s.setFramed n c).draws = s.draws := rfl
@[simp] theorem State.setFramed_seed (n : Nat) (c : Half) : (s.setFramed n c).seed = s.seed := rfl
@[simp] theorem State.setFramed_txByte (n : Nat) (c : Half) : (s.setFramed n c).txByte = s.txByte := rfl
@[simp] theorem State.setFramed_rxByte (n : Nat) (c : Half) : (s.setFramed n c).rxByte = s.rxByte := rfl
@[simp] theorem State.setFramed_txBytes (n : Nat) (c : Half) : (s.setFramed n c).txBytes = s.txBytes := rfl
@[simp] theorem State.setFramed_rxBytes (n : Nat) (c : Half) : (s.setFramed n c).rxBytes = s.rxBytes := rfl
@[simp] theorem State.setFramed_busy (n : Nat) (c : Half) : (s.setFramed n c).busy = s.busy := rfl
@[simp] theorem State.setFramed_slaveInvalid (n : Nat) (c : Half) : (s.setFramed n c).slaveInvalid = s.slaveInvalid := rfl
@[simp] theorem State.setFramed_funcInvalid (n : Nat) (c : Half) : (s.setFramed n c).funcInvalid = s.funcInvalid := rfl
@[simp] theorem State.setFramed_plenInvalid (n : Nat) (c : Half) : (s.setFramed n c).plenInvalid = s.plenInvalid := rfl
@[simp] theorem State.setFramed_rangeInvalid (n : Nat) (c : Half) : (s.setFramed n c).rangeInvalid = s.rangeInvalid := rfl
@[simp] theorem State.setFramed_rxCrc (n : Nat) (c : Half) : (s.setFramed n c).rxCrc = s.rxCrc := rfl
@[simp] theorem State.setFramed_rxTrailer (n : Nat) (c : Half) : (s.setFramed n c).rxTrailer = s.rxTrailer := rfl
@[simp] theorem State.setFramed_crcMismatch (n : Nat) (c : Half) : (s.setFramed n c).crcMismatch = s.crcMismatch := rfl
@[simp] theorem State.setFramed_slaveMismatch (n : Nat) (c : Half) : (s.setFramed n c).slaveMismatch = s.slaveMismatch := rfl
@[simp] theorem State.setFramed_isException (n : Nat) (c : Half) : (s.setFramed n c).isException = s.isException := rfl
@[simp] theorem State.setFramed_echoMismatch (n : Nat) (c : Half) : (s.setFramed n c).echoMismatch = s.echoMismatch := rfl
@[simp] theorem State.setFramed_functionMismatch (n : Nat) (c : Half) : (s.setFramed n c).functionMismatch = s.functionMismatch := rfl
@[simp] theorem State.setFramed_readFunction (n : Nat) (c : Half) : (s.setFramed n c).readFunction = s.readFunction := rfl
@[simp] theorem State.setFramed_byteCountInvalid (n : Nat) (c : Half) : (s.setFramed n c).byteCountInvalid = s.byteCountInvalid := rfl

/-! ### clearResults -/

@[simp] theorem State.clearResults_est : s.clearResults.est = s.est := rfl
@[simp] theorem State.clearResults_ovr : s.clearResults.ovr = s.ovr := rfl
@[simp] theorem State.clearResults_crcok : s.clearResults.crcok = s.crcok := rfl
@[simp] theorem State.clearResults_noresp : s.clearResults.noresp = s.noresp := rfl
@[simp] theorem State.clearResults_kind : s.clearResults.kind = s.kind := rfl
@[simp] theorem State.clearResults_err : s.clearResults.err = s.err := rfl
@[simp] theorem State.clearResults_crc : s.clearResults.crc = s.crc := rfl
@[simp] theorem State.clearResults_slave : s.clearResults.slave = s.slave := rfl
@[simp] theorem State.clearResults_func : s.clearResults.func = s.func := rfl
@[simp] theorem State.clearResults_addr : s.clearResults.addr = s.addr := rfl
@[simp] theorem State.clearResults_qty : s.clearResults.qty = s.qty := rfl
@[simp] theorem State.clearResults_value : s.clearResults.value = s.value := rfl
@[simp] theorem State.clearResults_plen : s.clearResults.plen = s.plen := rfl
@[simp] theorem State.clearResults_txlen : s.clearResults.txlen = s.txlen := rfl
@[simp] theorem State.clearResults_rxlen : s.clearResults.rxlen = s.rxlen := rfl
@[simp] theorem State.clearResults_rfunc : s.clearResults.rfunc = 0#8 := rfl
@[simp] theorem State.clearResults_excode : s.clearResults.excode = 0#8 := rfl
@[simp] theorem State.clearResults_rplen : s.clearResults.rplen = 0#9 := rfl
@[simp] theorem State.clearResults_rcount : s.clearResults.rcount = 0#8 := rfl
@[simp] theorem State.clearResults_tx : s.clearResults.tx = s.tx := rfl
@[simp] theorem State.clearResults_rx : s.clearResults.rx = s.rx := rfl
@[simp] theorem State.clearResults_rstN : s.clearResults.rstN = s.rstN := rfl
@[simp] theorem State.clearResults_live : s.clearResults.live = s.live := rfl
@[simp] theorem State.clearResults_prdata : s.clearResults.prdata = s.prdata := rfl
@[simp] theorem State.clearResults_inputs : s.clearResults.inputs = s.inputs := rfl
@[simp] theorem State.clearResults_latency : s.clearResults.latency = s.latency := rfl
@[simp] theorem State.clearResults_draws : s.clearResults.draws = s.draws := rfl
@[simp] theorem State.clearResults_seed : s.clearResults.seed = s.seed := rfl
@[simp] theorem State.clearResults_txByte : s.clearResults.txByte = s.txByte := rfl
@[simp] theorem State.clearResults_rxByte : s.clearResults.rxByte = s.rxByte := rfl
@[simp] theorem State.clearResults_txBytes : s.clearResults.txBytes = s.txBytes := rfl
@[simp] theorem State.clearResults_rxBytes : s.clearResults.rxBytes = s.rxBytes := rfl
@[simp] theorem State.clearResults_busy : s.clearResults.busy = s.busy := rfl
@[simp] theorem State.clearResults_slaveInvalid : s.clearResults.slaveInvalid = s.slaveInvalid := rfl
@[simp] theorem State.clearResults_funcInvalid : s.clearResults.funcInvalid = s.funcInvalid := rfl
@[simp] theorem State.clearResults_plenInvalid : s.clearResults.plenInvalid = s.plenInvalid := rfl
@[simp] theorem State.clearResults_rangeInvalid : s.clearResults.rangeInvalid = s.rangeInvalid := rfl
@[simp] theorem State.clearResults_txlenInvalid : s.clearResults.txlenInvalid = s.txlenInvalid := rfl
@[simp] theorem State.clearResults_rxlenInvalid : s.clearResults.rxlenInvalid = s.rxlenInvalid := rfl
@[simp] theorem State.clearResults_decodeInvalid : s.clearResults.decodeInvalid = s.decodeInvalid := rfl
@[simp] theorem State.clearResults_rxCrc : s.clearResults.rxCrc = s.rxCrc := rfl
@[simp] theorem State.clearResults_rxTrailer : s.clearResults.rxTrailer = s.rxTrailer := rfl
@[simp] theorem State.clearResults_crcMismatch : s.clearResults.crcMismatch = s.crcMismatch := rfl
@[simp] theorem State.clearResults_slaveMismatch : s.clearResults.slaveMismatch = s.slaveMismatch := rfl
@[simp] theorem State.clearResults_isException : s.clearResults.isException = s.isException := rfl
@[simp] theorem State.clearResults_echoMismatch : s.clearResults.echoMismatch = s.echoMismatch := rfl
@[simp] theorem State.clearResults_functionMismatch : s.clearResults.functionMismatch = s.functionMismatch := rfl
@[simp] theorem State.clearResults_readFunction : s.clearResults.readFunction = s.readFunction := rfl
@[simp] theorem State.clearResults_byteCountInvalid : s.clearResults.byteCountInvalid = s.byteCountInvalid := rfl

/-! ### setExamined -/

@[simp] theorem State.setExamined_est (f : Byte) (n : Nat) : (s.setExamined f n).est = s.est := rfl
@[simp] theorem State.setExamined_ovr (f : Byte) (n : Nat) : (s.setExamined f n).ovr = s.ovr := rfl
@[simp] theorem State.setExamined_crcok (f : Byte) (n : Nat) : (s.setExamined f n).crcok = s.crcok := rfl
@[simp] theorem State.setExamined_noresp (f : Byte) (n : Nat) : (s.setExamined f n).noresp = s.noresp := rfl
@[simp] theorem State.setExamined_kind (f : Byte) (n : Nat) : (s.setExamined f n).kind = s.kind := rfl
@[simp] theorem State.setExamined_err (f : Byte) (n : Nat) : (s.setExamined f n).err = s.err := rfl
@[simp] theorem State.setExamined_crc (f : Byte) (n : Nat) : (s.setExamined f n).crc = s.crc := rfl
@[simp] theorem State.setExamined_slave (f : Byte) (n : Nat) : (s.setExamined f n).slave = s.slave := rfl
@[simp] theorem State.setExamined_func (f : Byte) (n : Nat) : (s.setExamined f n).func = s.func := rfl
@[simp] theorem State.setExamined_addr (f : Byte) (n : Nat) : (s.setExamined f n).addr = s.addr := rfl
@[simp] theorem State.setExamined_qty (f : Byte) (n : Nat) : (s.setExamined f n).qty = s.qty := rfl
@[simp] theorem State.setExamined_value (f : Byte) (n : Nat) : (s.setExamined f n).value = s.value := rfl
@[simp] theorem State.setExamined_plen (f : Byte) (n : Nat) : (s.setExamined f n).plen = s.plen := rfl
@[simp] theorem State.setExamined_txlen (f : Byte) (n : Nat) : (s.setExamined f n).txlen = s.txlen := rfl
@[simp] theorem State.setExamined_rxlen (f : Byte) (n : Nat) : (s.setExamined f n).rxlen = s.rxlen := rfl
@[simp] theorem State.setExamined_rfunc (f : Byte) (n : Nat) : (s.setExamined f n).rfunc = f := rfl
@[simp] theorem State.setExamined_excode (f : Byte) (n : Nat) : (s.setExamined f n).excode = s.excode := rfl
@[simp] theorem State.setExamined_rplen (f : Byte) (n : Nat) : (s.setExamined f n).rplen = BitVec.ofNat 9 n := rfl
@[simp] theorem State.setExamined_rcount (f : Byte) (n : Nat) : (s.setExamined f n).rcount = s.rcount := rfl
@[simp] theorem State.setExamined_tx (f : Byte) (n : Nat) : (s.setExamined f n).tx = s.tx := rfl
@[simp] theorem State.setExamined_rx (f : Byte) (n : Nat) : (s.setExamined f n).rx = s.rx := rfl
@[simp] theorem State.setExamined_rstN (f : Byte) (n : Nat) : (s.setExamined f n).rstN = s.rstN := rfl
@[simp] theorem State.setExamined_live (f : Byte) (n : Nat) : (s.setExamined f n).live = s.live := rfl
@[simp] theorem State.setExamined_prdata (f : Byte) (n : Nat) : (s.setExamined f n).prdata = s.prdata := rfl
@[simp] theorem State.setExamined_inputs (f : Byte) (n : Nat) : (s.setExamined f n).inputs = s.inputs := rfl
@[simp] theorem State.setExamined_latency (f : Byte) (n : Nat) : (s.setExamined f n).latency = s.latency := rfl
@[simp] theorem State.setExamined_draws (f : Byte) (n : Nat) : (s.setExamined f n).draws = s.draws := rfl
@[simp] theorem State.setExamined_seed (f : Byte) (n : Nat) : (s.setExamined f n).seed = s.seed := rfl
@[simp] theorem State.setExamined_txByte (f : Byte) (n : Nat) : (s.setExamined f n).txByte = s.txByte := rfl
@[simp] theorem State.setExamined_rxByte (f : Byte) (n : Nat) : (s.setExamined f n).rxByte = s.rxByte := rfl
@[simp] theorem State.setExamined_txBytes (f : Byte) (n : Nat) : (s.setExamined f n).txBytes = s.txBytes := rfl
@[simp] theorem State.setExamined_rxBytes (f : Byte) (n : Nat) : (s.setExamined f n).rxBytes = s.rxBytes := rfl
@[simp] theorem State.setExamined_busy (f : Byte) (n : Nat) : (s.setExamined f n).busy = s.busy := rfl
@[simp] theorem State.setExamined_slaveInvalid (f : Byte) (n : Nat) : (s.setExamined f n).slaveInvalid = s.slaveInvalid := rfl
@[simp] theorem State.setExamined_funcInvalid (f : Byte) (n : Nat) : (s.setExamined f n).funcInvalid = s.funcInvalid := rfl
@[simp] theorem State.setExamined_plenInvalid (f : Byte) (n : Nat) : (s.setExamined f n).plenInvalid = s.plenInvalid := rfl
@[simp] theorem State.setExamined_rangeInvalid (f : Byte) (n : Nat) : (s.setExamined f n).rangeInvalid = s.rangeInvalid := rfl
@[simp] theorem State.setExamined_txlenInvalid (f : Byte) (n : Nat) : (s.setExamined f n).txlenInvalid = s.txlenInvalid := rfl
@[simp] theorem State.setExamined_rxlenInvalid (f : Byte) (n : Nat) : (s.setExamined f n).rxlenInvalid = s.rxlenInvalid := rfl
@[simp] theorem State.setExamined_decodeInvalid (f : Byte) (n : Nat) : (s.setExamined f n).decodeInvalid = s.decodeInvalid := rfl
@[simp] theorem State.setExamined_rxCrc (f : Byte) (n : Nat) : (s.setExamined f n).rxCrc = s.rxCrc := rfl
@[simp] theorem State.setExamined_rxTrailer (f : Byte) (n : Nat) : (s.setExamined f n).rxTrailer = s.rxTrailer := rfl
@[simp] theorem State.setExamined_crcMismatch (f : Byte) (n : Nat) : (s.setExamined f n).crcMismatch = s.crcMismatch := rfl
@[simp] theorem State.setExamined_slaveMismatch (f : Byte) (n : Nat) : (s.setExamined f n).slaveMismatch = s.slaveMismatch := rfl
@[simp] theorem State.setExamined_isException (f : Byte) (n : Nat) : (s.setExamined f n).isException = s.isException := rfl
@[simp] theorem State.setExamined_echoMismatch (f : Byte) (n : Nat) : (s.setExamined f n).echoMismatch = s.echoMismatch := rfl
@[simp] theorem State.setExamined_functionMismatch (f : Byte) (n : Nat) : (s.setExamined f n).functionMismatch = s.functionMismatch := rfl
@[simp] theorem State.setExamined_readFunction (f : Byte) (n : Nat) : (s.setExamined f n).readFunction = s.readFunction := rfl
@[simp] theorem State.setExamined_byteCountInvalid (f : Byte) (n : Nat) : (s.setExamined f n).byteCountInvalid = s.byteCountInvalid := rfl

/-! ### setExcode -/

@[simp] theorem State.setExcode_est (e : Byte) : (s.setExcode e).est = s.est := rfl
@[simp] theorem State.setExcode_ovr (e : Byte) : (s.setExcode e).ovr = s.ovr := rfl
@[simp] theorem State.setExcode_crcok (e : Byte) : (s.setExcode e).crcok = s.crcok := rfl
@[simp] theorem State.setExcode_noresp (e : Byte) : (s.setExcode e).noresp = s.noresp := rfl
@[simp] theorem State.setExcode_kind (e : Byte) : (s.setExcode e).kind = s.kind := rfl
@[simp] theorem State.setExcode_err (e : Byte) : (s.setExcode e).err = s.err := rfl
@[simp] theorem State.setExcode_crc (e : Byte) : (s.setExcode e).crc = s.crc := rfl
@[simp] theorem State.setExcode_slave (e : Byte) : (s.setExcode e).slave = s.slave := rfl
@[simp] theorem State.setExcode_func (e : Byte) : (s.setExcode e).func = s.func := rfl
@[simp] theorem State.setExcode_addr (e : Byte) : (s.setExcode e).addr = s.addr := rfl
@[simp] theorem State.setExcode_qty (e : Byte) : (s.setExcode e).qty = s.qty := rfl
@[simp] theorem State.setExcode_value (e : Byte) : (s.setExcode e).value = s.value := rfl
@[simp] theorem State.setExcode_plen (e : Byte) : (s.setExcode e).plen = s.plen := rfl
@[simp] theorem State.setExcode_txlen (e : Byte) : (s.setExcode e).txlen = s.txlen := rfl
@[simp] theorem State.setExcode_rxlen (e : Byte) : (s.setExcode e).rxlen = s.rxlen := rfl
@[simp] theorem State.setExcode_rfunc (e : Byte) : (s.setExcode e).rfunc = s.rfunc := rfl
@[simp] theorem State.setExcode_excode (e : Byte) : (s.setExcode e).excode = e := rfl
@[simp] theorem State.setExcode_rplen (e : Byte) : (s.setExcode e).rplen = s.rplen := rfl
@[simp] theorem State.setExcode_rcount (e : Byte) : (s.setExcode e).rcount = s.rcount := rfl
@[simp] theorem State.setExcode_tx (e : Byte) : (s.setExcode e).tx = s.tx := rfl
@[simp] theorem State.setExcode_rx (e : Byte) : (s.setExcode e).rx = s.rx := rfl
@[simp] theorem State.setExcode_rstN (e : Byte) : (s.setExcode e).rstN = s.rstN := rfl
@[simp] theorem State.setExcode_live (e : Byte) : (s.setExcode e).live = s.live := rfl
@[simp] theorem State.setExcode_prdata (e : Byte) : (s.setExcode e).prdata = s.prdata := rfl
@[simp] theorem State.setExcode_inputs (e : Byte) : (s.setExcode e).inputs = s.inputs := rfl
@[simp] theorem State.setExcode_latency (e : Byte) : (s.setExcode e).latency = s.latency := rfl
@[simp] theorem State.setExcode_draws (e : Byte) : (s.setExcode e).draws = s.draws := rfl
@[simp] theorem State.setExcode_seed (e : Byte) : (s.setExcode e).seed = s.seed := rfl
@[simp] theorem State.setExcode_txByte (e : Byte) : (s.setExcode e).txByte = s.txByte := rfl
@[simp] theorem State.setExcode_rxByte (e : Byte) : (s.setExcode e).rxByte = s.rxByte := rfl
@[simp] theorem State.setExcode_txBytes (e : Byte) : (s.setExcode e).txBytes = s.txBytes := rfl
@[simp] theorem State.setExcode_rxBytes (e : Byte) : (s.setExcode e).rxBytes = s.rxBytes := rfl
@[simp] theorem State.setExcode_busy (e : Byte) : (s.setExcode e).busy = s.busy := rfl
@[simp] theorem State.setExcode_slaveInvalid (e : Byte) : (s.setExcode e).slaveInvalid = s.slaveInvalid := rfl
@[simp] theorem State.setExcode_funcInvalid (e : Byte) : (s.setExcode e).funcInvalid = s.funcInvalid := rfl
@[simp] theorem State.setExcode_plenInvalid (e : Byte) : (s.setExcode e).plenInvalid = s.plenInvalid := rfl
@[simp] theorem State.setExcode_rangeInvalid (e : Byte) : (s.setExcode e).rangeInvalid = s.rangeInvalid := rfl
@[simp] theorem State.setExcode_txlenInvalid (e : Byte) : (s.setExcode e).txlenInvalid = s.txlenInvalid := rfl
@[simp] theorem State.setExcode_rxlenInvalid (e : Byte) : (s.setExcode e).rxlenInvalid = s.rxlenInvalid := rfl
@[simp] theorem State.setExcode_decodeInvalid (e : Byte) : (s.setExcode e).decodeInvalid = s.decodeInvalid := rfl
@[simp] theorem State.setExcode_rxCrc (e : Byte) : (s.setExcode e).rxCrc = s.rxCrc := rfl
@[simp] theorem State.setExcode_rxTrailer (e : Byte) : (s.setExcode e).rxTrailer = s.rxTrailer := rfl
@[simp] theorem State.setExcode_crcMismatch (e : Byte) : (s.setExcode e).crcMismatch = s.crcMismatch := rfl
@[simp] theorem State.setExcode_slaveMismatch (e : Byte) : (s.setExcode e).slaveMismatch = s.slaveMismatch := rfl
@[simp] theorem State.setExcode_isException (e : Byte) : (s.setExcode e).isException = s.isException := rfl
@[simp] theorem State.setExcode_echoMismatch (e : Byte) : (s.setExcode e).echoMismatch = s.echoMismatch := rfl
@[simp] theorem State.setExcode_functionMismatch (e : Byte) : (s.setExcode e).functionMismatch = s.functionMismatch := rfl
@[simp] theorem State.setExcode_readFunction (e : Byte) : (s.setExcode e).readFunction = s.readFunction := rfl
@[simp] theorem State.setExcode_byteCountInvalid (e : Byte) : (s.setExcode e).byteCountInvalid = s.byteCountInvalid := rfl

/-! ### setRcount -/

@[simp] theorem State.setRcount_est (n : Byte) : (s.setRcount n).est = s.est := rfl
@[simp] theorem State.setRcount_ovr (n : Byte) : (s.setRcount n).ovr = s.ovr := rfl
@[simp] theorem State.setRcount_crcok (n : Byte) : (s.setRcount n).crcok = s.crcok := rfl
@[simp] theorem State.setRcount_noresp (n : Byte) : (s.setRcount n).noresp = s.noresp := rfl
@[simp] theorem State.setRcount_kind (n : Byte) : (s.setRcount n).kind = s.kind := rfl
@[simp] theorem State.setRcount_err (n : Byte) : (s.setRcount n).err = s.err := rfl
@[simp] theorem State.setRcount_crc (n : Byte) : (s.setRcount n).crc = s.crc := rfl
@[simp] theorem State.setRcount_slave (n : Byte) : (s.setRcount n).slave = s.slave := rfl
@[simp] theorem State.setRcount_func (n : Byte) : (s.setRcount n).func = s.func := rfl
@[simp] theorem State.setRcount_addr (n : Byte) : (s.setRcount n).addr = s.addr := rfl
@[simp] theorem State.setRcount_qty (n : Byte) : (s.setRcount n).qty = s.qty := rfl
@[simp] theorem State.setRcount_value (n : Byte) : (s.setRcount n).value = s.value := rfl
@[simp] theorem State.setRcount_plen (n : Byte) : (s.setRcount n).plen = s.plen := rfl
@[simp] theorem State.setRcount_txlen (n : Byte) : (s.setRcount n).txlen = s.txlen := rfl
@[simp] theorem State.setRcount_rxlen (n : Byte) : (s.setRcount n).rxlen = s.rxlen := rfl
@[simp] theorem State.setRcount_rfunc (n : Byte) : (s.setRcount n).rfunc = s.rfunc := rfl
@[simp] theorem State.setRcount_excode (n : Byte) : (s.setRcount n).excode = s.excode := rfl
@[simp] theorem State.setRcount_rplen (n : Byte) : (s.setRcount n).rplen = s.rplen := rfl
@[simp] theorem State.setRcount_rcount (n : Byte) : (s.setRcount n).rcount = n := rfl
@[simp] theorem State.setRcount_tx (n : Byte) : (s.setRcount n).tx = s.tx := rfl
@[simp] theorem State.setRcount_rx (n : Byte) : (s.setRcount n).rx = s.rx := rfl
@[simp] theorem State.setRcount_rstN (n : Byte) : (s.setRcount n).rstN = s.rstN := rfl
@[simp] theorem State.setRcount_live (n : Byte) : (s.setRcount n).live = s.live := rfl
@[simp] theorem State.setRcount_prdata (n : Byte) : (s.setRcount n).prdata = s.prdata := rfl
@[simp] theorem State.setRcount_inputs (n : Byte) : (s.setRcount n).inputs = s.inputs := rfl
@[simp] theorem State.setRcount_latency (n : Byte) : (s.setRcount n).latency = s.latency := rfl
@[simp] theorem State.setRcount_draws (n : Byte) : (s.setRcount n).draws = s.draws := rfl
@[simp] theorem State.setRcount_seed (n : Byte) : (s.setRcount n).seed = s.seed := rfl
@[simp] theorem State.setRcount_txByte (n : Byte) : (s.setRcount n).txByte = s.txByte := rfl
@[simp] theorem State.setRcount_rxByte (n : Byte) : (s.setRcount n).rxByte = s.rxByte := rfl
@[simp] theorem State.setRcount_txBytes (n : Byte) : (s.setRcount n).txBytes = s.txBytes := rfl
@[simp] theorem State.setRcount_rxBytes (n : Byte) : (s.setRcount n).rxBytes = s.rxBytes := rfl
@[simp] theorem State.setRcount_busy (n : Byte) : (s.setRcount n).busy = s.busy := rfl
@[simp] theorem State.setRcount_slaveInvalid (n : Byte) : (s.setRcount n).slaveInvalid = s.slaveInvalid := rfl
@[simp] theorem State.setRcount_funcInvalid (n : Byte) : (s.setRcount n).funcInvalid = s.funcInvalid := rfl
@[simp] theorem State.setRcount_plenInvalid (n : Byte) : (s.setRcount n).plenInvalid = s.plenInvalid := rfl
@[simp] theorem State.setRcount_rangeInvalid (n : Byte) : (s.setRcount n).rangeInvalid = s.rangeInvalid := rfl
@[simp] theorem State.setRcount_txlenInvalid (n : Byte) : (s.setRcount n).txlenInvalid = s.txlenInvalid := rfl
@[simp] theorem State.setRcount_rxlenInvalid (n : Byte) : (s.setRcount n).rxlenInvalid = s.rxlenInvalid := rfl
@[simp] theorem State.setRcount_decodeInvalid (n : Byte) : (s.setRcount n).decodeInvalid = s.decodeInvalid := rfl
@[simp] theorem State.setRcount_rxCrc (n : Byte) : (s.setRcount n).rxCrc = s.rxCrc := rfl
@[simp] theorem State.setRcount_rxTrailer (n : Byte) : (s.setRcount n).rxTrailer = s.rxTrailer := rfl
@[simp] theorem State.setRcount_crcMismatch (n : Byte) : (s.setRcount n).crcMismatch = s.crcMismatch := rfl
@[simp] theorem State.setRcount_slaveMismatch (n : Byte) : (s.setRcount n).slaveMismatch = s.slaveMismatch := rfl
@[simp] theorem State.setRcount_isException (n : Byte) : (s.setRcount n).isException = s.isException := rfl
@[simp] theorem State.setRcount_echoMismatch (n : Byte) : (s.setRcount n).echoMismatch = s.echoMismatch := rfl
@[simp] theorem State.setRcount_functionMismatch (n : Byte) : (s.setRcount n).functionMismatch = s.functionMismatch := rfl
@[simp] theorem State.setRcount_readFunction (n : Byte) : (s.setRcount n).readFunction = s.readFunction := rfl
@[simp] theorem State.setRcount_byteCountInvalid (n : Byte) : (s.setRcount n).byteCountInvalid = s.byteCountInvalid := rfl

/-! ### writeTx -/

@[simp] theorem State.writeTx_est (i : Nat) (bs : List Byte) : (s.writeTx i bs).est = s.est := rfl
@[simp] theorem State.writeTx_ovr (i : Nat) (bs : List Byte) : (s.writeTx i bs).ovr = s.ovr := rfl
@[simp] theorem State.writeTx_crcok (i : Nat) (bs : List Byte) : (s.writeTx i bs).crcok = s.crcok := rfl
@[simp] theorem State.writeTx_noresp (i : Nat) (bs : List Byte) : (s.writeTx i bs).noresp = s.noresp := rfl
@[simp] theorem State.writeTx_kind (i : Nat) (bs : List Byte) : (s.writeTx i bs).kind = s.kind := rfl
@[simp] theorem State.writeTx_err (i : Nat) (bs : List Byte) : (s.writeTx i bs).err = s.err := rfl
@[simp] theorem State.writeTx_crc (i : Nat) (bs : List Byte) : (s.writeTx i bs).crc = s.crc := rfl
@[simp] theorem State.writeTx_slave (i : Nat) (bs : List Byte) : (s.writeTx i bs).slave = s.slave := rfl
@[simp] theorem State.writeTx_func (i : Nat) (bs : List Byte) : (s.writeTx i bs).func = s.func := rfl
@[simp] theorem State.writeTx_addr (i : Nat) (bs : List Byte) : (s.writeTx i bs).addr = s.addr := rfl
@[simp] theorem State.writeTx_qty (i : Nat) (bs : List Byte) : (s.writeTx i bs).qty = s.qty := rfl
@[simp] theorem State.writeTx_value (i : Nat) (bs : List Byte) : (s.writeTx i bs).value = s.value := rfl
@[simp] theorem State.writeTx_plen (i : Nat) (bs : List Byte) : (s.writeTx i bs).plen = s.plen := rfl
@[simp] theorem State.writeTx_txlen (i : Nat) (bs : List Byte) : (s.writeTx i bs).txlen = s.txlen := rfl
@[simp] theorem State.writeTx_rxlen (i : Nat) (bs : List Byte) : (s.writeTx i bs).rxlen = s.rxlen := rfl
@[simp] theorem State.writeTx_rfunc (i : Nat) (bs : List Byte) : (s.writeTx i bs).rfunc = s.rfunc := rfl
@[simp] theorem State.writeTx_excode (i : Nat) (bs : List Byte) : (s.writeTx i bs).excode = s.excode := rfl
@[simp] theorem State.writeTx_rplen (i : Nat) (bs : List Byte) : (s.writeTx i bs).rplen = s.rplen := rfl
@[simp] theorem State.writeTx_rcount (i : Nat) (bs : List Byte) : (s.writeTx i bs).rcount = s.rcount := rfl
@[simp] theorem State.writeTx_tx (i : Nat) (bs : List Byte) : (s.writeTx i bs).tx = Memory.writeFrom s.tx i bs := rfl
@[simp] theorem State.writeTx_rx (i : Nat) (bs : List Byte) : (s.writeTx i bs).rx = s.rx := rfl
@[simp] theorem State.writeTx_rstN (i : Nat) (bs : List Byte) : (s.writeTx i bs).rstN = s.rstN := rfl
@[simp] theorem State.writeTx_live (i : Nat) (bs : List Byte) : (s.writeTx i bs).live = s.live := rfl
@[simp] theorem State.writeTx_prdata (i : Nat) (bs : List Byte) : (s.writeTx i bs).prdata = s.prdata := rfl
@[simp] theorem State.writeTx_inputs (i : Nat) (bs : List Byte) : (s.writeTx i bs).inputs = s.inputs := rfl
@[simp] theorem State.writeTx_latency (i : Nat) (bs : List Byte) : (s.writeTx i bs).latency = s.latency := rfl
@[simp] theorem State.writeTx_draws (i : Nat) (bs : List Byte) : (s.writeTx i bs).draws = s.draws := rfl
@[simp] theorem State.writeTx_seed (i : Nat) (bs : List Byte) : (s.writeTx i bs).seed = s.seed := rfl
@[simp] theorem State.writeTx_rxByte (i : Nat) (bs : List Byte) : (s.writeTx i bs).rxByte = s.rxByte := rfl
@[simp] theorem State.writeTx_rxBytes (i : Nat) (bs : List Byte) : (s.writeTx i bs).rxBytes = s.rxBytes := rfl
@[simp] theorem State.writeTx_busy (i : Nat) (bs : List Byte) : (s.writeTx i bs).busy = s.busy := rfl
@[simp] theorem State.writeTx_slaveInvalid (i : Nat) (bs : List Byte) : (s.writeTx i bs).slaveInvalid = s.slaveInvalid := rfl
@[simp] theorem State.writeTx_funcInvalid (i : Nat) (bs : List Byte) : (s.writeTx i bs).funcInvalid = s.funcInvalid := rfl
@[simp] theorem State.writeTx_plenInvalid (i : Nat) (bs : List Byte) : (s.writeTx i bs).plenInvalid = s.plenInvalid := rfl
@[simp] theorem State.writeTx_rangeInvalid (i : Nat) (bs : List Byte) : (s.writeTx i bs).rangeInvalid = s.rangeInvalid := rfl
@[simp] theorem State.writeTx_txlenInvalid (i : Nat) (bs : List Byte) : (s.writeTx i bs).txlenInvalid = s.txlenInvalid := rfl
@[simp] theorem State.writeTx_rxlenInvalid (i : Nat) (bs : List Byte) : (s.writeTx i bs).rxlenInvalid = s.rxlenInvalid := rfl
@[simp] theorem State.writeTx_decodeInvalid (i : Nat) (bs : List Byte) : (s.writeTx i bs).decodeInvalid = s.decodeInvalid := rfl
@[simp] theorem State.writeTx_rxCrc (i : Nat) (bs : List Byte) : (s.writeTx i bs).rxCrc = s.rxCrc := rfl
@[simp] theorem State.writeTx_rxTrailer (i : Nat) (bs : List Byte) : (s.writeTx i bs).rxTrailer = s.rxTrailer := rfl
@[simp] theorem State.writeTx_crcMismatch (i : Nat) (bs : List Byte) : (s.writeTx i bs).crcMismatch = s.crcMismatch := rfl
@[simp] theorem State.writeTx_slaveMismatch (i : Nat) (bs : List Byte) : (s.writeTx i bs).slaveMismatch = s.slaveMismatch := rfl
@[simp] theorem State.writeTx_isException (i : Nat) (bs : List Byte) : (s.writeTx i bs).isException = s.isException := rfl
@[simp] theorem State.writeTx_echoMismatch (i : Nat) (bs : List Byte) : (s.writeTx i bs).echoMismatch = s.echoMismatch := rfl
@[simp] theorem State.writeTx_functionMismatch (i : Nat) (bs : List Byte) : (s.writeTx i bs).functionMismatch = s.functionMismatch := rfl
@[simp] theorem State.writeTx_readFunction (i : Nat) (bs : List Byte) : (s.writeTx i bs).readFunction = s.readFunction := rfl
@[simp] theorem State.writeTx_byteCountInvalid (i : Nat) (bs : List Byte) : (s.writeTx i bs).byteCountInvalid = s.byteCountInvalid := rfl

/-! ### writeRx -/

@[simp] theorem State.writeRx_est (i : Nat) (bs : List Byte) : (s.writeRx i bs).est = s.est := rfl
@[simp] theorem State.writeRx_ovr (i : Nat) (bs : List Byte) : (s.writeRx i bs).ovr = s.ovr := rfl
@[simp] theorem State.writeRx_crcok (i : Nat) (bs : List Byte) : (s.writeRx i bs).crcok = s.crcok := rfl
@[simp] theorem State.writeRx_noresp (i : Nat) (bs : List Byte) : (s.writeRx i bs).noresp = s.noresp := rfl
@[simp] theorem State.writeRx_kind (i : Nat) (bs : List Byte) : (s.writeRx i bs).kind = s.kind := rfl
@[simp] theorem State.writeRx_err (i : Nat) (bs : List Byte) : (s.writeRx i bs).err = s.err := rfl
@[simp] theorem State.writeRx_crc (i : Nat) (bs : List Byte) : (s.writeRx i bs).crc = s.crc := rfl
@[simp] theorem State.writeRx_slave (i : Nat) (bs : List Byte) : (s.writeRx i bs).slave = s.slave := rfl
@[simp] theorem State.writeRx_func (i : Nat) (bs : List Byte) : (s.writeRx i bs).func = s.func := rfl
@[simp] theorem State.writeRx_addr (i : Nat) (bs : List Byte) : (s.writeRx i bs).addr = s.addr := rfl
@[simp] theorem State.writeRx_qty (i : Nat) (bs : List Byte) : (s.writeRx i bs).qty = s.qty := rfl
@[simp] theorem State.writeRx_value (i : Nat) (bs : List Byte) : (s.writeRx i bs).value = s.value := rfl
@[simp] theorem State.writeRx_plen (i : Nat) (bs : List Byte) : (s.writeRx i bs).plen = s.plen := rfl
@[simp] theorem State.writeRx_txlen (i : Nat) (bs : List Byte) : (s.writeRx i bs).txlen = s.txlen := rfl
@[simp] theorem State.writeRx_rxlen (i : Nat) (bs : List Byte) : (s.writeRx i bs).rxlen = s.rxlen := rfl
@[simp] theorem State.writeRx_rfunc (i : Nat) (bs : List Byte) : (s.writeRx i bs).rfunc = s.rfunc := rfl
@[simp] theorem State.writeRx_excode (i : Nat) (bs : List Byte) : (s.writeRx i bs).excode = s.excode := rfl
@[simp] theorem State.writeRx_rplen (i : Nat) (bs : List Byte) : (s.writeRx i bs).rplen = s.rplen := rfl
@[simp] theorem State.writeRx_rcount (i : Nat) (bs : List Byte) : (s.writeRx i bs).rcount = s.rcount := rfl
@[simp] theorem State.writeRx_tx (i : Nat) (bs : List Byte) : (s.writeRx i bs).tx = s.tx := rfl
@[simp] theorem State.writeRx_rx (i : Nat) (bs : List Byte) : (s.writeRx i bs).rx = Memory.writeFrom s.rx i bs := rfl
@[simp] theorem State.writeRx_rstN (i : Nat) (bs : List Byte) : (s.writeRx i bs).rstN = s.rstN := rfl
@[simp] theorem State.writeRx_live (i : Nat) (bs : List Byte) : (s.writeRx i bs).live = s.live := rfl
@[simp] theorem State.writeRx_prdata (i : Nat) (bs : List Byte) : (s.writeRx i bs).prdata = s.prdata := rfl
@[simp] theorem State.writeRx_inputs (i : Nat) (bs : List Byte) : (s.writeRx i bs).inputs = s.inputs := rfl
@[simp] theorem State.writeRx_latency (i : Nat) (bs : List Byte) : (s.writeRx i bs).latency = s.latency := rfl
@[simp] theorem State.writeRx_draws (i : Nat) (bs : List Byte) : (s.writeRx i bs).draws = s.draws := rfl
@[simp] theorem State.writeRx_seed (i : Nat) (bs : List Byte) : (s.writeRx i bs).seed = s.seed := rfl
@[simp] theorem State.writeRx_txByte (i : Nat) (bs : List Byte) : (s.writeRx i bs).txByte = s.txByte := rfl
@[simp] theorem State.writeRx_txBytes (i : Nat) (bs : List Byte) : (s.writeRx i bs).txBytes = s.txBytes := rfl
@[simp] theorem State.writeRx_busy (i : Nat) (bs : List Byte) : (s.writeRx i bs).busy = s.busy := rfl
@[simp] theorem State.writeRx_slaveInvalid (i : Nat) (bs : List Byte) : (s.writeRx i bs).slaveInvalid = s.slaveInvalid := rfl
@[simp] theorem State.writeRx_funcInvalid (i : Nat) (bs : List Byte) : (s.writeRx i bs).funcInvalid = s.funcInvalid := rfl
@[simp] theorem State.writeRx_plenInvalid (i : Nat) (bs : List Byte) : (s.writeRx i bs).plenInvalid = s.plenInvalid := rfl
@[simp] theorem State.writeRx_rangeInvalid (i : Nat) (bs : List Byte) : (s.writeRx i bs).rangeInvalid = s.rangeInvalid := rfl
@[simp] theorem State.writeRx_txlenInvalid (i : Nat) (bs : List Byte) : (s.writeRx i bs).txlenInvalid = s.txlenInvalid := rfl
@[simp] theorem State.writeRx_rxlenInvalid (i : Nat) (bs : List Byte) : (s.writeRx i bs).rxlenInvalid = s.rxlenInvalid := rfl
@[simp] theorem State.writeRx_decodeInvalid (i : Nat) (bs : List Byte) : (s.writeRx i bs).decodeInvalid = s.decodeInvalid := rfl
@[simp] theorem State.writeRx_readFunction (i : Nat) (bs : List Byte) : (s.writeRx i bs).readFunction = s.readFunction := rfl

/-! ### examined -/

@[simp] theorem State.examined_est : s.examined.est = s.est := rfl
@[simp] theorem State.examined_ovr : s.examined.ovr = s.ovr := rfl
@[simp] theorem State.examined_crcok : s.examined.crcok = (s.rxCrc s.rxlen.toNat == s.rxTrailer s.rxlen.toNat) := rfl
@[simp] theorem State.examined_noresp : s.examined.noresp = false := rfl
@[simp] theorem State.examined_kind : s.examined.kind = s.kind := rfl
@[simp] theorem State.examined_err : s.examined.err = s.err := rfl
@[simp] theorem State.examined_crc : s.examined.crc = s.rxCrc s.rxlen.toNat := rfl
@[simp] theorem State.examined_slave : s.examined.slave = s.slave := rfl
@[simp] theorem State.examined_func : s.examined.func = s.func := rfl
@[simp] theorem State.examined_addr : s.examined.addr = s.addr := rfl
@[simp] theorem State.examined_qty : s.examined.qty = s.qty := rfl
@[simp] theorem State.examined_value : s.examined.value = s.value := rfl
@[simp] theorem State.examined_plen : s.examined.plen = s.plen := rfl
@[simp] theorem State.examined_txlen : s.examined.txlen = s.txlen := rfl
@[simp] theorem State.examined_rxlen : s.examined.rxlen = s.rxlen := rfl
@[simp] theorem State.examined_rfunc : s.examined.rfunc = s.rxByte 1 := rfl
@[simp] theorem State.examined_excode : s.examined.excode = 0#8 := rfl
@[simp] theorem State.examined_rplen : s.examined.rplen = BitVec.ofNat 9 (s.rxlen.toNat - 4) := rfl
@[simp] theorem State.examined_rcount : s.examined.rcount = 0#8 := rfl
@[simp] theorem State.examined_tx : s.examined.tx = s.tx := rfl
@[simp] theorem State.examined_rx : s.examined.rx = s.rx := rfl
@[simp] theorem State.examined_rstN : s.examined.rstN = s.rstN := rfl
@[simp] theorem State.examined_live : s.examined.live = s.live := rfl
@[simp] theorem State.examined_prdata : s.examined.prdata = s.prdata := rfl
@[simp] theorem State.examined_inputs : s.examined.inputs = s.inputs := rfl
@[simp] theorem State.examined_latency : s.examined.latency = s.latency := rfl
@[simp] theorem State.examined_draws : s.examined.draws = s.draws := rfl
@[simp] theorem State.examined_seed : s.examined.seed = s.seed := rfl
@[simp] theorem State.examined_txByte : s.examined.txByte = s.txByte := rfl
@[simp] theorem State.examined_rxByte : s.examined.rxByte = s.rxByte := rfl
@[simp] theorem State.examined_txBytes : s.examined.txBytes = s.txBytes := rfl
@[simp] theorem State.examined_rxBytes : s.examined.rxBytes = s.rxBytes := rfl
@[simp] theorem State.examined_busy : s.examined.busy = s.busy := rfl
@[simp] theorem State.examined_slaveInvalid : s.examined.slaveInvalid = s.slaveInvalid := rfl
@[simp] theorem State.examined_funcInvalid : s.examined.funcInvalid = s.funcInvalid := rfl
@[simp] theorem State.examined_plenInvalid : s.examined.plenInvalid = s.plenInvalid := rfl
@[simp] theorem State.examined_rangeInvalid : s.examined.rangeInvalid = s.rangeInvalid := rfl
@[simp] theorem State.examined_txlenInvalid : s.examined.txlenInvalid = s.txlenInvalid := rfl
@[simp] theorem State.examined_rxlenInvalid : s.examined.rxlenInvalid = s.rxlenInvalid := rfl
@[simp] theorem State.examined_decodeInvalid : s.examined.decodeInvalid = s.decodeInvalid := rfl
@[simp] theorem State.examined_rxCrc : s.examined.rxCrc = s.rxCrc := rfl
@[simp] theorem State.examined_rxTrailer : s.examined.rxTrailer = s.rxTrailer := rfl
@[simp] theorem State.examined_crcMismatch : s.examined.crcMismatch = s.crcMismatch := rfl
@[simp] theorem State.examined_slaveMismatch : s.examined.slaveMismatch = s.slaveMismatch := rfl
@[simp] theorem State.examined_isException : s.examined.isException = s.isException := rfl
@[simp] theorem State.examined_echoMismatch : s.examined.echoMismatch = s.echoMismatch := rfl
@[simp] theorem State.examined_functionMismatch : s.examined.functionMismatch = s.functionMismatch := rfl
@[simp] theorem State.examined_readFunction : s.examined.readFunction = s.readFunction := rfl
@[simp] theorem State.examined_byteCountInvalid : s.examined.byteCountInvalid = s.byteCountInvalid := rfl

/-! ### overrun -/

@[simp] theorem State.overrun_est : s.overrun.est = s.est := rfl
@[simp] theorem State.overrun_ovr : s.overrun.ovr = true := rfl
@[simp] theorem State.overrun_crcok : s.overrun.crcok = s.crcok := rfl
@[simp] theorem State.overrun_noresp : s.overrun.noresp = s.noresp := rfl
@[simp] theorem State.overrun_kind : s.overrun.kind = s.kind := rfl
@[simp] theorem State.overrun_err : s.overrun.err = s.err := rfl
@[simp] theorem State.overrun_crc : s.overrun.crc = s.crc := rfl
@[simp] theorem State.overrun_slave : s.overrun.slave = s.slave := rfl
@[simp] theorem State.overrun_func : s.overrun.func = s.func := rfl
@[simp] theorem State.overrun_addr : s.overrun.addr = s.addr := rfl
@[simp] theorem State.overrun_qty : s.overrun.qty = s.qty := rfl
@[simp] theorem State.overrun_value : s.overrun.value = s.value := rfl
@[simp] theorem State.overrun_plen : s.overrun.plen = s.plen := rfl
@[simp] theorem State.overrun_txlen : s.overrun.txlen = s.txlen := rfl
@[simp] theorem State.overrun_rxlen : s.overrun.rxlen = s.rxlen := rfl
@[simp] theorem State.overrun_rfunc : s.overrun.rfunc = s.rfunc := rfl
@[simp] theorem State.overrun_excode : s.overrun.excode = s.excode := rfl
@[simp] theorem State.overrun_rplen : s.overrun.rplen = s.rplen := rfl
@[simp] theorem State.overrun_rcount : s.overrun.rcount = s.rcount := rfl
@[simp] theorem State.overrun_tx : s.overrun.tx = s.tx := rfl
@[simp] theorem State.overrun_rx : s.overrun.rx = s.rx := rfl
@[simp] theorem State.overrun_rstN : s.overrun.rstN = s.rstN := rfl
@[simp] theorem State.overrun_live : s.overrun.live = s.live := rfl
@[simp] theorem State.overrun_prdata : s.overrun.prdata = s.prdata := rfl
@[simp] theorem State.overrun_inputs : s.overrun.inputs = s.inputs := rfl
@[simp] theorem State.overrun_latency : s.overrun.latency = s.latency := rfl
@[simp] theorem State.overrun_draws : s.overrun.draws = s.draws := rfl
@[simp] theorem State.overrun_seed : s.overrun.seed = s.seed := rfl
@[simp] theorem State.overrun_txByte : s.overrun.txByte = s.txByte := rfl
@[simp] theorem State.overrun_rxByte : s.overrun.rxByte = s.rxByte := rfl
@[simp] theorem State.overrun_txBytes : s.overrun.txBytes = s.txBytes := rfl
@[simp] theorem State.overrun_rxBytes : s.overrun.rxBytes = s.rxBytes := rfl
@[simp] theorem State.overrun_busy : s.overrun.busy = s.busy := rfl
@[simp] theorem State.overrun_slaveInvalid : s.overrun.slaveInvalid = s.slaveInvalid := rfl
@[simp] theorem State.overrun_funcInvalid : s.overrun.funcInvalid = s.funcInvalid := rfl
@[simp] theorem State.overrun_plenInvalid : s.overrun.plenInvalid = s.plenInvalid := rfl
@[simp] theorem State.overrun_rangeInvalid : s.overrun.rangeInvalid = s.rangeInvalid := rfl
@[simp] theorem State.overrun_txlenInvalid : s.overrun.txlenInvalid = s.txlenInvalid := rfl
@[simp] theorem State.overrun_rxlenInvalid : s.overrun.rxlenInvalid = s.rxlenInvalid := rfl
@[simp] theorem State.overrun_decodeInvalid : s.overrun.decodeInvalid = s.decodeInvalid := rfl
@[simp] theorem State.overrun_rxCrc : s.overrun.rxCrc = s.rxCrc := rfl
@[simp] theorem State.overrun_rxTrailer : s.overrun.rxTrailer = s.rxTrailer := rfl
@[simp] theorem State.overrun_crcMismatch : s.overrun.crcMismatch = s.crcMismatch := rfl
@[simp] theorem State.overrun_slaveMismatch : s.overrun.slaveMismatch = s.slaveMismatch := rfl
@[simp] theorem State.overrun_isException : s.overrun.isException = s.isException := rfl
@[simp] theorem State.overrun_echoMismatch : s.overrun.echoMismatch = s.echoMismatch := rfl
@[simp] theorem State.overrun_functionMismatch : s.overrun.functionMismatch = s.functionMismatch := rfl
@[simp] theorem State.overrun_readFunction : s.overrun.readFunction = s.readFunction := rfl
@[simp] theorem State.overrun_byteCountInvalid : s.overrun.byteCountInvalid = s.byteCountInvalid := rfl

/-! ### issue -/

@[simp] theorem State.issue_est (op imm : Byte) : (s.issue op imm).est = .busy op imm := rfl
@[simp] theorem State.issue_ovr (op imm : Byte) : (s.issue op imm).ovr = s.ovr := rfl
@[simp] theorem State.issue_crcok (op imm : Byte) : (s.issue op imm).crcok = s.crcok := rfl
@[simp] theorem State.issue_noresp (op imm : Byte) : (s.issue op imm).noresp = s.noresp := rfl
@[simp] theorem State.issue_kind (op imm : Byte) : (s.issue op imm).kind = s.kind := rfl
@[simp] theorem State.issue_err (op imm : Byte) : (s.issue op imm).err = s.err := rfl
@[simp] theorem State.issue_crc (op imm : Byte) : (s.issue op imm).crc = s.crc := rfl
@[simp] theorem State.issue_slave (op imm : Byte) : (s.issue op imm).slave = s.slave := rfl
@[simp] theorem State.issue_func (op imm : Byte) : (s.issue op imm).func = s.func := rfl
@[simp] theorem State.issue_addr (op imm : Byte) : (s.issue op imm).addr = s.addr := rfl
@[simp] theorem State.issue_qty (op imm : Byte) : (s.issue op imm).qty = s.qty := rfl
@[simp] theorem State.issue_value (op imm : Byte) : (s.issue op imm).value = s.value := rfl
@[simp] theorem State.issue_plen (op imm : Byte) : (s.issue op imm).plen = s.plen := rfl
@[simp] theorem State.issue_txlen (op imm : Byte) : (s.issue op imm).txlen = s.txlen := rfl
@[simp] theorem State.issue_rxlen (op imm : Byte) : (s.issue op imm).rxlen = s.rxlen := rfl
@[simp] theorem State.issue_rfunc (op imm : Byte) : (s.issue op imm).rfunc = s.rfunc := rfl
@[simp] theorem State.issue_excode (op imm : Byte) : (s.issue op imm).excode = s.excode := rfl
@[simp] theorem State.issue_rplen (op imm : Byte) : (s.issue op imm).rplen = s.rplen := rfl
@[simp] theorem State.issue_rcount (op imm : Byte) : (s.issue op imm).rcount = s.rcount := rfl
@[simp] theorem State.issue_tx (op imm : Byte) : (s.issue op imm).tx = s.tx := rfl
@[simp] theorem State.issue_rx (op imm : Byte) : (s.issue op imm).rx = s.rx := rfl
@[simp] theorem State.issue_rstN (op imm : Byte) : (s.issue op imm).rstN = s.rstN := rfl
@[simp] theorem State.issue_live (op imm : Byte) : (s.issue op imm).live = s.live := rfl
@[simp] theorem State.issue_prdata (op imm : Byte) : (s.issue op imm).prdata = s.prdata := rfl
@[simp] theorem State.issue_inputs (op imm : Byte) : (s.issue op imm).inputs = s.inputs := rfl
@[simp] theorem State.issue_latency (op imm : Byte) : (s.issue op imm).latency = Config.latencyExtra s.draws + 1 := rfl
@[simp] theorem State.issue_draws (op imm : Byte) : (s.issue op imm).draws = s.draws + 1 := rfl
@[simp] theorem State.issue_seed (op imm : Byte) : (s.issue op imm).seed = s.seed := rfl
@[simp] theorem State.issue_txByte (op imm : Byte) : (s.issue op imm).txByte = s.txByte := rfl
@[simp] theorem State.issue_rxByte (op imm : Byte) : (s.issue op imm).rxByte = s.rxByte := rfl
@[simp] theorem State.issue_txBytes (op imm : Byte) : (s.issue op imm).txBytes = s.txBytes := rfl
@[simp] theorem State.issue_rxBytes (op imm : Byte) : (s.issue op imm).rxBytes = s.rxBytes := rfl
@[simp] theorem State.issue_slaveInvalid (op imm : Byte) : (s.issue op imm).slaveInvalid = s.slaveInvalid := rfl
@[simp] theorem State.issue_funcInvalid (op imm : Byte) : (s.issue op imm).funcInvalid = s.funcInvalid := rfl
@[simp] theorem State.issue_plenInvalid (op imm : Byte) : (s.issue op imm).plenInvalid = s.plenInvalid := rfl
@[simp] theorem State.issue_rangeInvalid (op imm : Byte) : (s.issue op imm).rangeInvalid = s.rangeInvalid := rfl
@[simp] theorem State.issue_txlenInvalid (op imm : Byte) : (s.issue op imm).txlenInvalid = s.txlenInvalid := rfl
@[simp] theorem State.issue_rxlenInvalid (op imm : Byte) : (s.issue op imm).rxlenInvalid = s.rxlenInvalid := rfl
@[simp] theorem State.issue_decodeInvalid (op imm : Byte) : (s.issue op imm).decodeInvalid = s.decodeInvalid := rfl
@[simp] theorem State.issue_rxCrc (op imm : Byte) : (s.issue op imm).rxCrc = s.rxCrc := rfl
@[simp] theorem State.issue_rxTrailer (op imm : Byte) : (s.issue op imm).rxTrailer = s.rxTrailer := rfl
@[simp] theorem State.issue_crcMismatch (op imm : Byte) : (s.issue op imm).crcMismatch = s.crcMismatch := rfl
@[simp] theorem State.issue_slaveMismatch (op imm : Byte) : (s.issue op imm).slaveMismatch = s.slaveMismatch := rfl
@[simp] theorem State.issue_isException (op imm : Byte) : (s.issue op imm).isException = s.isException := rfl
@[simp] theorem State.issue_echoMismatch (op imm : Byte) : (s.issue op imm).echoMismatch = s.echoMismatch := rfl
@[simp] theorem State.issue_functionMismatch (op imm : Byte) : (s.issue op imm).functionMismatch = s.functionMismatch := rfl
@[simp] theorem State.issue_readFunction (op imm : Byte) : (s.issue op imm).readFunction = s.readFunction := rfl
@[simp] theorem State.issue_byteCountInvalid (op imm : Byte) : (s.issue op imm).byteCountInvalid = s.byteCountInvalid := rfl

end Sys2Proof.Machine
end

