-- ==== Sys2Proof/Laws/Memory.lean ====
section
/-! SUPPORT. The laws of the frame buffers: read after write, the canonical form, and what a write of several bytes leaves. -/

namespace Sys2Proof.Machine

/-! ## One byte -/

theorem Memory.read?_write (m : Memory) (i j : Nat) (v : Byte) :
    Memory.read? (Memory.write m i v) j = if j = i then some v else Memory.read? m j := by
  induction m with
  | nil => by_cases h : i = j <;> simp [Memory.write, Memory.read?, h, eq_comm]
  | cons c m ih =>
    obtain ⟨a, b⟩ := c
    unfold Memory.write
    split
    · by_cases h : i = j <;> simp [Memory.read?, h, eq_comm]
    · split
      · subst i
        by_cases h : a = j
        · simp [Memory.read?, h]
        · simp [Memory.read?, h, Ne.symm h]
      · next hn =>
        by_cases h : a = j
        · subst h; simp [Memory.read?, Ne.symm hn]
        · simp [Memory.read?, h, ih]

@[simp] theorem Memory.read?_write_same (m : Memory) (i : Nat) (v : Byte) :
    Memory.read? (Memory.write m i v) i = some v := by simp [Memory.read?_write]

theorem Memory.read?_write_other (m : Memory) {i j : Nat} (v : Byte) (h : j ≠ i) :
    Memory.read? (Memory.write m i v) j = Memory.read? m j := by simp [Memory.read?_write, h]

/-! ## Several bytes -/

theorem Memory.read?_writeFrom (bs : List Byte) (m : Memory) (i j : Nat) :
    Memory.read? (Memory.writeFrom m i bs) j =
      if i ≤ j ∧ j < i + bs.length then some (bs.getD (j - i) 0#8) else Memory.read? m j := by
  induction bs generalizing m i with
  | nil => simp [Memory.writeFrom]
  | cons b bs ih =>
    rw [Memory.writeFrom, ih, Memory.read?_write]
    rcases Nat.lt_trichotomy j i with h | h | h
    · rw [if_neg (by omega), if_neg (by omega), if_neg (by omega)]
    · subst h
      rw [if_neg (by omega), if_pos rfl, if_pos (by simp)]
      simp
    · obtain ⟨k, rfl⟩ : ∃ k, j = i + 1 + k := ⟨j - (i + 1), by omega⟩
      have hk : i + 1 + k - i = k + 1 := by omega
      by_cases hl : k < bs.length
      · rw [if_pos (by omega), if_pos (by simp; omega), hk]; simp
      · rw [if_neg (by omega), if_neg (by omega), if_neg (by simp; omega)]

/-! ## The canonical form -/

theorem Memory.wf_cons_iff (a : Nat) (b : Byte) (m : Memory) :
    Memory.wf ((a, b) :: m) = true ↔
      a < Config.maxFrame ∧ (∀ c ∈ m, a < c.1) ∧ Memory.wf m = true := by
  induction m generalizing a b with
  | nil => simp [Memory.wf]
  | cons c m ih =>
    obtain ⟨a', b'⟩ := c
    rw [Memory.wf, Bool.and_eq_true, decide_eq_true_iff, ih]
    constructor
    · rintro ⟨h, hb, hall, hm⟩
      refine ⟨by omega, ?_, hb, hall, hm⟩
      rintro c hc
      rcases List.mem_cons.1 hc with rfl | hc
      · exact h
      · exact Nat.lt_trans h (hall c hc)
    · rintro ⟨_, hall, hb, hall', hm⟩
      exact ⟨hall (a', b') (by simp), hb, hall', hm⟩

theorem Memory.mem_write {m : Memory} {i : Nat} {v : Byte} {c : Host.Cell} (h : c ∈ Memory.write m i v) :
    c = (i, v) ∨ c ∈ m := by
  induction m with
  | nil => simpa [Memory.write] using h
  | cons d m ih =>
    obtain ⟨a, b⟩ := d
    unfold Memory.write at h
    split at h
    · simpa using h
    · split at h
      · rcases List.mem_cons.1 h with rfl | h
        · exact .inl rfl
        · exact .inr (List.mem_cons_of_mem _ h)
      · rcases List.mem_cons.1 h with rfl | h
        · simp
        · rcases ih h with h | h
          · exact .inl h
          · exact .inr (List.mem_cons_of_mem _ h)

/-- A write inside the buffer keeps the canonical form. -/
theorem Memory.wf_write {m : Memory} (hm : Memory.wf m = true) {i : Nat} (hi : i < Config.maxFrame) (v : Byte) :
    Memory.wf (Memory.write m i v) = true := by
  induction m with
  | nil => simpa [Memory.write, Memory.wf] using hi
  | cons c m ih =>
    obtain ⟨a, b⟩ := c
    obtain ⟨ha, hall, hw⟩ := (Memory.wf_cons_iff a b m).1 hm
    unfold Memory.write
    split
    · next h =>
      refine (Memory.wf_cons_iff _ _ _).2 ⟨hi, ?_, hm⟩
      rintro c hc
      rcases List.mem_cons.1 hc with rfl | hc
      · exact h
      · exact Nat.lt_trans h (hall c hc)
    · split
      · next h => subst h; exact (Memory.wf_cons_iff _ _ _).2 ⟨hi, hall, hw⟩
      · refine (Memory.wf_cons_iff _ _ _).2 ⟨ha, ?_, ih hw⟩
        intro c hc
        rcases Memory.mem_write hc with rfl | hc
        · simp; omega
        · exact hall c hc

/-- A write of several bytes inside the buffer keeps the canonical form. -/
theorem Memory.wf_writeFrom {m : Memory} (hm : Memory.wf m = true) (bs : List Byte) {i : Nat}
    (hi : i + bs.length ≤ Config.maxFrame) : Memory.wf (Memory.writeFrom m i bs) = true := by
  induction bs generalizing m i with
  | nil => exact hm
  | cons b bs ih =>
    simp only [List.length_cons] at hi
    exact ih (Memory.wf_write hm (by omega) b) (by omega)

theorem Memory.read?_eq_none_of_lt {m : Memory} {i : Nat} (h : ∀ c ∈ m, i < c.1) : Memory.read? m i = none := by
  induction m with
  | nil => rfl
  | cons c m ih =>
    obtain ⟨a, b⟩ := c
    have hia : i < a := h (a, b) (by simp)
    rw [Memory.read?, if_neg (by omega)]
    exact ih fun c hc => h c (by simp [hc])

/-- Equal memories are equal data: two memories in canonical form that list the same bytes are one list. -/
theorem Memory.eq_of_read?_eq {m m' : Memory} (hm : Memory.wf m = true) (hm' : Memory.wf m' = true)
    (h : ∀ i, Memory.read? m i = Memory.read? m' i) : m = m' := by
  induction m generalizing m' with
  | nil =>
    cases m' with
    | nil => rfl
    | cons c m' => obtain ⟨a, b⟩ := c; simpa [Memory.read?] using h a
  | cons c m ih =>
    obtain ⟨a, b⟩ := c
    obtain ⟨_, hall, hw⟩ := (Memory.wf_cons_iff a b m).1 hm
    cases m' with
    | nil => simpa [Memory.read?] using h a
    | cons c' m' =>
      obtain ⟨a', b'⟩ := c'
      obtain ⟨_, hall', hw'⟩ := (Memory.wf_cons_iff a' b' m').1 hm'
      have hlt : ∀ {x y : Nat} {u : Byte} {p q : Memory}, x < y → (∀ c ∈ q, y < c.1) →
          Memory.read? ((x, u) :: p) x ≠ Memory.read? ((y, b') :: q) x := by
        intro x y u p q hxy hq he
        have hn : Memory.read? q x = none := Memory.read?_eq_none_of_lt fun c hc => Nat.lt_trans hxy (hq c hc)
        simp [Memory.read?, hn, (Nat.ne_of_lt hxy).symm] at he
      have haa : a = a' := by
        rcases Nat.lt_trichotomy a a' with hl | hl | hl
        · exact absurd (h a) (hlt hl hall')
        · exact hl
        · have hn : Memory.read? m a' = none := Memory.read?_eq_none_of_lt fun c hc => Nat.lt_trans hl (hall c hc)
          have he := h a'
          simp [Memory.read?, hn, (Nat.ne_of_lt hl).symm] at he
      subst haa
      have hb : b = b' := by simpa [Memory.read?] using h a
      subst hb
      refine congrArg _ (ih hw hw' fun i => ?_)
      by_cases hi : a = i
      · subst hi
        rw [Memory.read?_eq_none_of_lt hall, Memory.read?_eq_none_of_lt hall']
      · simpa [Memory.read?, hi] using h i

/-! ## The buffers of the state -/

theorem State.txByte_writeTx (s : State) (i j : Nat) (bs : List Byte) :
    (s.writeTx i bs).txByte j = if i ≤ j ∧ j < i + bs.length then bs.getD (j - i) 0#8 else s.txByte j := by
  simp only [State.txByte, State.writeTx_tx, State.writeTx_seed, Memory.read?_writeFrom]
  split <;> simp

theorem State.rxByte_writeRx (s : State) (i j : Nat) (bs : List Byte) :
    (s.writeRx i bs).rxByte j = if i ≤ j ∧ j < i + bs.length then bs.getD (j - i) 0#8 else s.rxByte j := by
  simp only [State.rxByte, State.writeRx_rx, State.writeRx_seed, Memory.read?_writeFrom]
  split <;> simp

theorem State.txByte_writeTx_outside (s : State) {i j : Nat} {bs : List Byte} (h : ¬ (i ≤ j ∧ j < i + bs.length)) :
    (s.writeTx i bs).txByte j = s.txByte j := by rw [State.txByte_writeTx, if_neg h]

@[simp] theorem State.length_txBytes (s : State) (lo n : Nat) : (s.txBytes lo n).length = n := by simp [State.txBytes]

@[simp] theorem State.length_rxBytes (s : State) (lo n : Nat) : (s.rxBytes lo n).length = n := by simp [State.rxBytes]

@[simp] theorem State.txBytes_zero (s : State) (lo : Nat) : s.txBytes lo 0 = [] := rfl

@[simp] theorem State.rxBytes_zero (s : State) (lo : Nat) : s.rxBytes lo 0 = [] := rfl

theorem State.getElem_txBytes (s : State) (lo n i : Nat) (h : i < (s.txBytes lo n).length) :
    (s.txBytes lo n)[i] = s.txByte (lo + i) := by simp [State.txBytes]

theorem State.getElem_rxBytes (s : State) (lo n i : Nat) (h : i < (s.rxBytes lo n).length) :
    (s.rxBytes lo n)[i] = s.rxByte (lo + i) := by simp [State.rxBytes]

/-- Bytes of TX split at any point. -/
theorem State.txBytes_append (s : State) (lo n k : Nat) :
    s.txBytes lo (n + k) = s.txBytes lo n ++ s.txBytes (lo + n) k := by
  simp [State.txBytes, ← List.map_append]

/-- Bytes of RX split at any point. -/
theorem State.rxBytes_append (s : State) (lo n k : Nat) :
    s.rxBytes lo (n + k) = s.rxBytes lo n ++ s.rxBytes (lo + n) k := by
  simp [State.rxBytes, ← List.map_append]

/-- A range of TX that reads the same byte for byte is the same list. -/
theorem State.txBytes_congr {s t : State} {lo n : Nat} (h : ∀ i, lo ≤ i → i < lo + n → s.txByte i = t.txByte i) :
    s.txBytes lo n = t.txBytes lo n := by
  refine List.map_congr_left fun i hi => ?_
  obtain ⟨h1, h2⟩ := List.mem_range'_1.1 hi
  exact h i h1 h2

/-- A range of RX that reads the same byte for byte is the same list. -/
theorem State.rxBytes_congr {s t : State} {lo n : Nat} (h : ∀ i, lo ≤ i → i < lo + n → s.rxByte i = t.rxByte i) :
    s.rxBytes lo n = t.rxBytes lo n := by
  refine List.map_congr_left fun i hi => ?_
  obtain ⟨h1, h2⟩ := List.mem_range'_1.1 hi
  exact h i h1 h2

/-- The bytes just written read back as written. -/
theorem State.txBytes_writeTx_same (s : State) (i : Nat) (bs : List Byte) :
    (s.writeTx i bs).txBytes i bs.length = bs := by
  refine List.ext_getElem (by simp) fun k h1 h2 => ?_
  rw [State.getElem_txBytes, State.txByte_writeTx, if_pos (by omega)]
  simp [h2]

/-- A range of TX that a write does not touch reads as before. -/
theorem State.txBytes_writeTx_outside (s : State) {i lo n : Nat} {bs : List Byte}
    (h : lo + n ≤ i ∨ i + bs.length ≤ lo) : (s.writeTx i bs).txBytes lo n = s.txBytes lo n := by
  refine State.txBytes_congr fun j h1 h2 => State.txByte_writeTx_outside s ?_
  omega

end Sys2Proof.Machine
end

