-- ==== Sys2Proof/Laws/Bus.lean ====
section
/-! SUPPORT. The laws of the host bus: what each address selects, and each transaction in one lemma. -/

namespace Sys2Proof.Machine

/-! ## The address map -/

theorem decodeAddr_paddr (r : Reg) : decodeAddr r.paddr = .reg r := by cases r <;> rfl

theorem decodeAddr_txPaddr {i : Nat} (h : i < 256) : decodeAddr (txPaddr i) = .tx i := by
  have hn : (txPaddr i).toNat = 256 + i := by rw [txPaddr, BitVec.toNat_ofNat, Nat.mod_eq_of_lt (by omega)]
  rw [decodeAddr, hn, if_neg (by omega), if_pos (by omega), Nat.add_sub_cancel_left]

theorem decodeAddr_rxPaddr {i : Nat} (h : i < 256) : decodeAddr (rxPaddr i) = .rx i := by
  have hn : (rxPaddr i).toNat = 512 + i := by rw [rxPaddr, BitVec.toNat_ofNat, Nat.mod_eq_of_lt (by omega)]
  rw [decodeAddr, hn, if_neg (by omega), if_neg (by omega), if_pos (by omega), Nat.add_sub_cancel_left]

theorem regAt_of_ge {n : Nat} (h : 15 ≤ n) : regAt n = none := by
  obtain ⟨k, rfl⟩ : ∃ k, n = k + 15 := ⟨n - 15, by omega⟩
  rfl

theorem regAt_eq_some {n : Nat} {r : Reg} (h : regAt n = some r) : n = r.paddr.toNat := by
  by_cases hn : 15 ≤ n
  · rw [regAt_of_ge hn] at h; cases h
  · have : n < 15 := by omega
    interval_cases n <;> (cases h; rfl)

theorem decodeAddr_reserved_low {a : BitVec 10} (h : 15 ≤ a.toNat) (h' : a.toNat < 256) : decodeAddr a = .reserved := by
  rw [decodeAddr, if_pos h', regAt_of_ge h]

theorem decodeAddr_reserved_high {a : BitVec 10} (h : 768 ≤ a.toNat) : decodeAddr a = .reserved := by
  rw [decodeAddr, if_neg (by omega), if_neg (by omega), if_neg (by omega)]

/-- Only a register's own address selects it. -/
theorem decodeAddr_eq_reg {a : BitVec 10} {r : Reg} (h : decodeAddr a = .reg r) : a = r.paddr := by
  unfold decodeAddr at h
  split at h
  · split at h
    · next hr =>
      cases h
      exact BitVec.eq_of_toNat_eq (regAt_eq_some hr)
    · cases h
  · split at h
    · cases h
    · split at h <;> cases h

/-- A window byte's index is in the buffer. -/
theorem decodeAddr_tx_lt {a : BitVec 10} {i : Nat} (h : decodeAddr a = .tx i) : i < 256 := by
  unfold decodeAddr at h
  split at h
  · split at h <;> cases h
  · split at h
    · simp only [Target.tx.injEq] at h; omega
    · split at h <;> cases h

theorem decodeAddr_rx_lt {a : BitVec 10} {i : Nat} (h : decodeAddr a = .rx i) : i < 256 := by
  unfold decodeAddr at h
  split at h
  · split at h <;> cases h
  · split at h
    · cases h
    · split at h
      · simp only [Target.rx.injEq] at h; omega
      · cases h

/-! ## Reads -/

/-- A read while idle returns the stored value and changes nothing. -/
theorem State.busRead_of_idle {s : State} (h : s.busy = false) (a : BitVec 10) :
    s.busRead a = (s.readTarget (decodeAddr a), s) := by simp [State.busRead, h]

/-- A read while BUSY of a target with an exact value is as while idle (20_memory.md R70). -/
theorem State.busRead_of_exact {s : State} {a : BitVec 10} (h : (decodeAddr a).freeWidth = none) :
    s.busRead a = (s.readTarget (decodeAddr a), s) := by
  rw [State.busRead, h]
  cases s.busy <;> rfl

/-- Any other read while BUSY is a free value of the target's width (R70). -/
theorem State.busRead_of_free {s : State} (hb : s.busy = true) {a : BitVec 10} {w : Nat}
    (h : (decodeAddr a).freeWidth = some w) :
    s.busRead a = (((Config.busyRead s.draws).setWidth w).setWidth 32, { s with draws := s.draws + 1 }) := by
  rw [State.busRead, hb, h]

/-- Whatever is read, only the number of the next free value can change. -/
theorem State.busRead_state (s : State) (a : BitVec 10) :
    (s.busRead a).2 = s ∨ s.busy = true ∧ (s.busRead a).2 = { s with draws := s.draws + 1 } := by
  cases hb : s.busy
  · exact .inl (by rw [State.busRead_of_idle hb])
  · cases hw : (decodeAddr a).freeWidth
    · exact .inl (by rw [State.busRead_of_exact hw])
    · exact .inr ⟨rfl, by rw [State.busRead_of_free hb hw]⟩

/-! ## Writes -/

theorem State.busWrite_of_idle {s : State} (h : s.busy = false) (a : BitVec 10) (v : Word) :
    s.busWrite a v = s.writeTarget v (decodeAddr a) := by simp [State.busWrite, h]

/-- Everything a write while BUSY can do: nothing, set OVR, or clear OVR (R69). -/
theorem State.busWrite_of_busy {s : State} (hb : s.busy = true) (a : BitVec 10) (v : Word) :
    s.busWrite a v =
      match decodeAddr a with
      | .reg .status => if v.getLsbD 1 then { s with ovr := false } else s
      | .reg .rfunc => s
      | .reg .excode => s
      | .reg .rplen => s
      | .reg .rcount => s
      | .reserved => s
      | _ => { s with ovr := true } := by
  rw [State.busWrite, hb]
  cases decodeAddr a with
  | reg r => cases r <;> rfl
  | tx i => rfl
  | rx i => rfl
  | reserved => rfl

/-- A write while BUSY changes at most OVR. -/
theorem State.busWrite_of_busy_eq {s : State} (hb : s.busy = true) (a : BitVec 10) (v : Word) :
    s.busWrite a v = { s with ovr := (s.busWrite a v).ovr } := by
  rw [State.busWrite_of_busy hb]
  split <;> first | rfl | (split <;> rfl)

/-- A transaction while BUSY changes at most OVR, the number of the next free value, and prdata. -/
theorem State.transact_of_busy {s : State} (hb : s.busy = true) (t : Option Txn) :
    s.transact t =
      { s with ovr := (s.transact t).ovr, draws := (s.transact t).draws, prdata := (s.transact t).prdata } := by
  cases t with
  | none => rfl
  | some t =>
    cases t with
    | read a =>
      rcases State.busRead_state s a with h | ⟨_, h⟩ <;> simp only [State.transact, h]
    | write a v =>
      simp only [State.transact]
      rw [State.busWrite_of_busy_eq hb]

end Sys2Proof.Machine
end

