-- ==== Sys2Proof/Laws/Crc.lean ====
section
/-! SUPPORT. The laws of the CRC functions: each step is linear and one to one, a byte step is a shift by a byte and a table
entry, and the bytes of a Half. -/

namespace Sys2Proof.Machine

/-! ## Bytes of a Half -/

theorem getLsbD_loByte (v : Half) (i : Nat) : (loByte v).getLsbD i = (decide (i < 8) && v.getLsbD i) := by
  simp [loByte]

theorem getLsbD_hiByte (v : Half) (i : Nat) : (hiByte v).getLsbD i = (decide (i < 8) && v.getLsbD (8 + i)) := by
  simp [hiByte]

theorem getLsbD_halfOf (lo hi : Byte) (i : Nat) :
    (halfOf lo hi).getLsbD i = (decide (i < 16) && if i < 8 then lo.getLsbD i else hi.getLsbD (i - 8)) := by
  simp only [halfOf, BitVec.getLsbD_or, BitVec.getLsbD_setWidth, BitVec.getLsbD_shiftLeft]
  by_cases h : i < 8
  · have : i < 16 := by omega
    simp only [h, this, decide_true, Bool.true_and, Bool.not_true, Bool.and_false, Bool.false_and, Bool.or_false, if_true]
  · by_cases h' : i < 16
    · have : i - 8 < 16 := by omega
      have hl : lo.getLsbD i = false := BitVec.getLsbD_of_ge lo i (by omega)
      simp only [h, h', this, hl, decide_true, decide_false, Bool.true_and, Bool.not_false, Bool.false_or, if_false]
    · simp only [h', decide_false, Bool.false_and, Bool.or_false]

@[simp] theorem halfOf_bytes (c : Half) : halfOf (loByte c) (hiByte c) = c := by
  refine BitVec.eq_of_getLsbD_eq fun i hi => ?_
  rw [getLsbD_halfOf, getLsbD_loByte, getLsbD_hiByte]
  by_cases h : i < 8
  · simp [h, hi]
  · have h1 : 8 + (i - 8) = i := by omega
    have h2 : i - 8 < 8 := by omega
    simp [h, hi, h1, h2]

@[simp] theorem loByte_halfOf (lo hi : Byte) : loByte (halfOf lo hi) = lo := by
  refine BitVec.eq_of_getLsbD_eq fun i hi => ?_
  rw [getLsbD_loByte, getLsbD_halfOf]
  have : i < 16 := by omega
  simp [hi, this]

@[simp] theorem hiByte_halfOf (lo hi : Byte) : hiByte (halfOf lo hi) = hi := by
  refine BitVec.eq_of_getLsbD_eq fun i hi => ?_
  rw [getLsbD_hiByte, getLsbD_halfOf]
  have h1 : 8 + i < 16 := by omega
  have h2 : ¬ 8 + i < 8 := by omega
  have h3 : 8 + i - 8 = i := by omega
  simp [hi, h1, h2, h3]

/-- Two pairs of bytes make one Half only where they are the same pair. -/
theorem halfOf_inj {a b c d : Byte} : halfOf a b = halfOf c d ↔ a = c ∧ b = d := by
  constructor
  · intro h
    exact ⟨by simpa using congrArg loByte h, by simpa using congrArg hiByte h⟩
  · rintro ⟨rfl, rfl⟩; rfl

/-! ## One iteration -/

theorem crcShift_eq (c : Half) : crcShift c = (c >>> 1) ^^^ (if c.getLsbD 0 then 0xA001#16 else 0#16) := by
  unfold crcShift; split <;> simp

theorem crcShift_xor (c d : Half) : crcShift (c ^^^ d) = crcShift c ^^^ crcShift d := by
  rw [crcShift_eq, crcShift_eq, crcShift_eq, BitVec.ushiftRight_xor_distrib, BitVec.getLsbD_xor]
  have swap : ∀ a b x y : Half, a ^^^ b ^^^ (x ^^^ y) = a ^^^ x ^^^ (b ^^^ y) := fun a b x y => by ac_rfl
  rw [swap (c >>> 1)]
  congr 1
  cases c.getLsbD 0 <;> cases d.getLsbD 0 <;> decide

/-- Bit 15 of the result tells the bit that was shifted out, so an iteration loses nothing. -/
theorem crcShift_injective : Function.Injective crcShift := by
  intro c d h
  have h0 : c.getLsbD 0 = d.getLsbD 0 := by
    have := congrArg (BitVec.getLsbD · 15) h
    simp only [crcShift_eq, BitVec.getLsbD_xor, BitVec.getLsbD_ushiftRight] at this
    revert this
    cases c.getLsbD 0 <;> cases d.getLsbD 0 <;> simp
  rw [crcShift_eq, crcShift_eq, h0, BitVec.xor_left_inj] at h
  refine BitVec.eq_of_getLsbD_eq fun i hi => ?_
  cases i with
  | zero => exact h0
  | succ i =>
    have := congrArg (BitVec.getLsbD · i) h
    simpa [Nat.add_comm] using this

theorem crcShifts_xor (k : Nat) (c d : Half) : crcShifts k (c ^^^ d) = crcShifts k c ^^^ crcShifts k d := by
  induction k generalizing c d with
  | zero => rfl
  | succ k ih => rw [crcShifts, crcShift_xor, ih]; rfl

theorem crcShifts_injective (k : Nat) : Function.Injective (crcShifts k) := by
  induction k with
  | zero => exact fun _ _ h => h
  | succ k ih => exact fun c d h => crcShift_injective (ih h)

/-- Where the low `k` bits are 0, `k` iterations only shift. -/
theorem crcShifts_of_low_zero (k : Nat) (c : Half) (h : ∀ i < k, c.getLsbD i = false) : crcShifts k c = c >>> k := by
  induction k generalizing c with
  | zero => simp [crcShifts]
  | succ k ih =>
    have h0 : crcShift c = c >>> 1 := by rw [crcShift, h 0 (by omega)]; rfl
    rw [crcShifts, h0, ih]
    · rw [Nat.add_comm k 1, BitVec.shiftRight_add]
    · intro i hi
      rw [BitVec.getLsbD_ushiftRight, Nat.add_comm]
      exact h _ (by omega)

/-! ## One byte -/

theorem crcStep_inj_left (b : Byte) {c d : Half} (h : crcStep c b = crcStep d b) : c = d := by
  simpa [BitVec.xor_left_inj] using crcShifts_injective 8 h

theorem crcStep_inj_right (c : Half) {a b : Byte} (h : crcStep c a = crcStep c b) : a = b := by
  have h := crcShifts_injective 8 h
  rw [BitVec.xor_right_inj] at h
  have := congrArg (BitVec.setWidth 8) h
  simpa using this

/-- A byte step whose byte is the register's low byte shifts the high byte down. -/
theorem crcStep_loByte (c : Half) : crcStep c (loByte c) = (hiByte c).setWidth 16 := by
  rw [crcStep, crcShifts_of_low_zero]
  · refine BitVec.eq_of_getLsbD_eq fun i hi => ?_
    rw [BitVec.getLsbD_ushiftRight, BitVec.getLsbD_xor, BitVec.getLsbD_setWidth, getLsbD_loByte, BitVec.getLsbD_setWidth,
      getLsbD_hiByte]
    have h8 : ¬ 8 + i < 8 := by omega
    by_cases h : i < 8
    · simp only [h, h8, hi, decide_true, decide_false, Bool.false_and, Bool.and_false, Bool.xor_false, Bool.true_and]
    · rw [BitVec.getLsbD_of_ge c (8 + i) (by omega)]
      simp only [h8, decide_false, Bool.and_false, Bool.xor_false]
  · intro i hi
    have : i < 16 := by omega
    rw [BitVec.getLsbD_xor, BitVec.getLsbD_setWidth, getLsbD_loByte]
    simp only [hi, this, decide_true, Bool.true_and, Bool.xor_self]

theorem crcStep_zero_high (b : Byte) : crcStep (b.setWidth 16) b = 0#16 := by
  simp [crcStep, crcShifts, crcShift]

/-! ## Sequences -/

theorem crcFold_injective (bs : List Byte) {c d : Half} (h : bs.foldl crcStep c = bs.foldl crcStep d) : c = d := by
  induction bs generalizing c d with
  | nil => exact h
  | cons b bs ih => exact crcStep_inj_left b (ih h)

theorem crc16_append (as bs : List Byte) : crc16 (as ++ bs) = bs.foldl crcStep (crc16 as) := List.foldl_append

/-- A changed byte changes the CRC. -/
theorem crc16_set_ne (bs : List Byte) (i : Nat) (hi : i < bs.length) (b : Byte) (hb : b ≠ bs[i]) :
    crc16 (bs.set i b) ≠ crc16 bs := by
  have hs : bs.set i b = bs.take i ++ b :: bs.drop (i + 1) := List.set_eq_take_append_cons_drop.trans (if_pos hi)
  have ho : bs = bs.take i ++ bs[i] :: bs.drop (i + 1) := by simp
  intro h
  rw [hs, crc16_append, List.foldl_cons] at h
  conv at h => rhs; rw [ho, crc16_append, List.foldl_cons]
  exact hb (crcStep_inj_right _ (crcFold_injective _ h))

/-- The CRC bytes of a sequence are appended in the order that clears the register. -/
theorem crc16_append_wire (bs : List Byte) : crc16 (bs ++ crcWire (crc16 bs)) = 0#16 := by
  rw [crc16_append, crcWire, List.foldl_cons, List.foldl_cons, List.foldl_nil, crcStep_loByte, crcStep_zero_high]

/-- verify on a sequence followed by two bytes compares its CRC with them. -/
theorem verify_append_two (bs : List Byte) (x y : Byte) : verify (bs ++ [x, y]) = (crc16 bs == halfOf x y) := by
  simp [verify]

theorem getD_rxBytes (s : State) (lo n i : Nat) (h : i < n) : (s.rxBytes lo n).getD i 0#8 = s.rxByte (lo + i) := by
  rw [List.getD_eq_getElem _ _ (by simpa using h), State.getElem_rxBytes]

/-- VERIFY_RX's comparison is verify on the valid bytes of RX (40_crc.md R119). -/
theorem verify_rxBytes (s : State) (n : Nat) (h : 2 ≤ n) : verify (s.rxBytes 0 n) = (s.rxCrc n == s.rxTrailer n) := by
  obtain ⟨k, rfl⟩ : ∃ k, n = k + 2 := ⟨n - 2, by omega⟩
  have h2 : s.rxBytes (0 + k) 2 = [s.rxByte k, s.rxByte (k + 1)] := by simp [State.rxBytes, List.range']
  rw [State.rxBytes_append, h2, verify_append_two, State.rxCrc, State.rxTrailer]
  simp

end Sys2Proof.Machine
end

