-- ==== Sys2Proof/Laws/Frames.lean ====
section
/-! SUPPORT. The shared operations, each with one lemma that says once what it does: completion, failure, the sealing of a
frame; and that every update a command makes keeps the command frame. -/

namespace Sys2Proof.Safety

open Sys2Proof.Machine

/-! ## Completion -/

@[simp] theorem complete_eq_next {k : Kind} {s t : State} : complete k s = .next t ↔ s.setOutcome k .noError = t := by
  simp [complete]

@[simp] theorem raise_eq_next {e : Err} {s t : State} : raise e s = .next t ↔ s.setOutcome .failed e = t := by
  simp [raise]

/-! ## Frames compose -/

theorem TxKept.refl (s : State) : TxKept s s := fun _ => rfl

theorem RxKept.refl (s : State) : RxKept s s := fun _ => rfl

/-- A state that is `s` but for what a command may write is in `s`'s command frame. -/
theorem CommandFrame.of_eq {s t : State} (h : t =
    { s with
      est := t.est, crcok := t.crcok, noresp := t.noresp, kind := t.kind, err := t.err, crc := t.crc, func := t.func,
      txlen := t.txlen, rxlen := t.rxlen, rfunc := t.rfunc, excode := t.excode, rplen := t.rplen, rcount := t.rcount,
      tx := t.tx }) : CommandFrame s t := by
  rw [h]
  exact ⟨⟨rfl, rfl, rfl, rfl, rfl⟩, rfl, fun _ => rfl, ⟨rfl, rfl, rfl, rfl, rfl, rfl, rfl⟩⟩

theorem CommandFrame.refl (s : State) : CommandFrame s s := .of_eq rfl

theorem CommandFrame.trans {s t u : State} (h : CommandFrame s t) (h' : CommandFrame t u) : CommandFrame s u where
  operands := ⟨h'.operands.slave.trans h.operands.slave, h'.operands.addr.trans h.operands.addr,
    h'.operands.qty.trans h.operands.qty, h'.operands.value.trans h.operands.value, h'.operands.plen.trans h.operands.plen⟩
  ovr := h'.ovr.trans h.ovr
  rx := fun i => (h'.rx i).trans (h.rx i)
  port := ⟨h'.port.rstN.trans h.port.rstN, h'.port.live.trans h.port.live, h'.port.prdata.trans h.port.prdata,
    h'.port.inputs.trans h.port.inputs, h'.port.latency.trans h.port.latency, h'.port.draws.trans h.port.draws,
    h'.port.seed.trans h.port.seed⟩

theorem ResultsKept.trans {s t u : State} (h : ResultsKept s t) (h' : ResultsKept t u) : ResultsKept s u :=
  ⟨h'.rfunc.trans h.rfunc, h'.excode.trans h.excode, h'.rplen.trans h.rplen, h'.rcount.trans h.rcount⟩

theorem LengthsKept.trans {s t u : State} (h : LengthsKept s t) (h' : LengthsKept t u) : LengthsKept s u :=
  ⟨h'.func.trans h.func, h'.txlen.trans h.txlen, h'.rxlen.trans h.rxlen⟩

theorem TxKept.trans {s t u : State} (h : TxKept s t) (h' : TxKept t u) : TxKept s u := fun i => (h' i).trans (h i)

/-! ## Every update of a command keeps the command frame -/

theorem commandFrame_beginCommand (s : State) : CommandFrame s s.beginCommand := .of_eq rfl

theorem commandFrame_setOutcome (s : State) (k : Kind) (e : Err) : CommandFrame s (s.setOutcome k e) := .of_eq rfl

theorem commandFrame_setCrc (s : State) (c : Half) : CommandFrame s (s.setCrc c) := .of_eq rfl

theorem commandFrame_setCrcok (s : State) (b : Bool) : CommandFrame s (s.setCrcok b) := .of_eq rfl

theorem commandFrame_setFunc (s : State) (f : Byte) : CommandFrame s (s.setFunc f) := .of_eq rfl

theorem commandFrame_setFramed (s : State) (n : Nat) (c : Half) : CommandFrame s (s.setFramed n c) := .of_eq rfl

theorem commandFrame_clearResults (s : State) : CommandFrame s s.clearResults := .of_eq rfl

theorem commandFrame_setExamined (s : State) (f : Byte) (n : Nat) : CommandFrame s (s.setExamined f n) := .of_eq rfl

theorem commandFrame_setExcode (s : State) (e : Byte) : CommandFrame s (s.setExcode e) := .of_eq rfl

theorem commandFrame_setRcount (s : State) (n : Byte) : CommandFrame s (s.setRcount n) := .of_eq rfl

theorem commandFrame_writeTx (s : State) (i : Nat) (bs : List Byte) : CommandFrame s (s.writeTx i bs) := .of_eq rfl

theorem commandFrame_examined (s : State) : CommandFrame s s.examined := .of_eq rfl

/-! ## A failing command -/

/-- A command that fails before writing anything changes only STATUS and EST. -/
theorem onlyStatusChanged_raise (s : State) (e : Err) :
    Finished (s.beginCommand.setOutcome .failed e) .failed e false false ∧
      OnlyStatusChanged s (s.beginCommand.setOutcome .failed e) :=
  ⟨⟨rfl, rfl, rfl, rfl, rfl⟩, ⟨.of_eq rfl, ⟨rfl, rfl, rfl, rfl⟩, ⟨rfl, rfl, rfl⟩, rfl, fun _ => rfl⟩⟩

/-! ## Sealing a frame -/

/-- The state in which sealing leaves the block (41_encode.md R143). -/
def sealed (n : Nat) (s : State) : State :=
  ((s.writeTx n (crcWire (crc16 (s.txBytes 0 n)))).setFramed (n + 2) (crc16 (s.txBytes 0 n))).setOutcome .ok .noError

theorem sealFrame_eq (n : Nat) (s : State) : sealFrame n s = .next (sealed n s) := rfl

theorem txByte_sealed (n : Nat) (s : State) {i : Nat} (h : i ≠ n) (h' : i ≠ n + 1) :
    (sealed n s).txByte i = s.txByte i :=
  State.txByte_writeTx_outside s (bs := crcWire (crc16 (s.txBytes 0 n))) (i := n) (by simp [crcWire]; omega)

/-- The frame: the bytes that stood there and their CRC, low byte first. -/
theorem txBytes_sealed (n : Nat) (s : State) :
    (sealed n s).txBytes 0 (n + 2) = s.txBytes 0 n ++ crcWire (crc16 (s.txBytes 0 n)) := by
  change (s.writeTx n (crcWire (crc16 (s.txBytes 0 n)))).txBytes 0 (n + 2) = _
  rw [State.txBytes_append, Nat.zero_add, State.txBytes_writeTx_outside s (by omega)]
  exact congrArg _ (State.txBytes_writeTx_same s n (crcWire (crc16 (s.txBytes 0 n))))

theorem txBytes_sealed_body (n : Nat) (s : State) : (sealed n s).txBytes 0 n = s.txBytes 0 n :=
  State.txBytes_congr fun i _ h => txByte_sealed n s (by omega) (by omega)

/-- Every register after sealing. -/
theorem sealed_registers (n : Nat) (s : State) :
    Finished (sealed n s) .ok .noError s.crcok (decide (s.slave = 0#8)) ∧ (sealed n s).rxlen = 0#9 ∧
      (sealed n s).txlen = BitVec.ofNat 9 (n + 2) ∧ (sealed n s).crc = crc16 (s.txBytes 0 n) ∧ (sealed n s).func = s.func ∧
      CommandFrame s (sealed n s) ∧ ResultsKept s (sealed n s) :=
  ⟨⟨rfl, rfl, rfl, rfl, rfl⟩, rfl, rfl, rfl, rfl, .of_eq rfl, ⟨rfl, rfl, rfl, rfl⟩⟩

/-- A header just written at the start of TX reads back, and the bytes after it are as before. -/
theorem txBytes_writeTx_header (s : State) (bs : List Byte) (n : Nat) :
    (s.writeTx 0 bs).txBytes 0 (bs.length + n) = bs ++ s.txBytes bs.length n := by
  rw [State.txBytes_append, State.txBytes_writeTx_same, Nat.zero_add, State.txBytes_writeTx_outside s (by omega)]

end Sys2Proof.Safety
end

