-- ==== Sys2Proof/Laws/Parse.lean ====
section
/-! SUPPORT. DECODE in one lemma: its checks as checks on the state at issue, and the states it ends in. -/

namespace Sys2Proof.Safety

open Sys2Proof.Machine

/-- The checks after the length check read nothing DECODE has written: they are checks on the state before it. -/
theorem parseFrame_examined (m : Config.ExcFuncMatch) (n : Nat) (s : State) :
    parseFrame m n s.examined =
      if s.crcMismatch n then raise .checksumMismatch s.examined
      else if s.slaveMismatch then raise .slaveMismatch s.examined
      else if s.isException then
        if decide (m = .strict) && s.echoMismatch then raise .functionMismatch s.examined
        else if n - 4 = 0 then raise .payloadLengthMismatch s.examined
        else complete .exception (s.examined.setExcode (s.rxByte 2))
      else if s.functionMismatch then raise .functionMismatch s.examined
      else if s.readFunction then
        if n - 4 = 0 then raise .payloadLengthMismatch s.examined
        else if s.byteCountInvalid n then raise .payloadLengthMismatch s.examined
        else complete .data (s.examined.setRcount (BitVec.ofNat 8 ((s.rxByte 2).toNat / 2)))
      else complete .data s.examined := rfl

/-- The operand check passes where SLAVE, FUNC and RXLEN hold values of the source's types (42_decode.md R171). -/
theorem decodeInvalid_eq_false {s : State} (h1 : s.slave.toNat ≤ 247) (h2 : s.func.getLsbD 7 = false)
    (h3 : s.rxlen.toNat ≤ 256) : s.decodeInvalid = false := by
  have a : s.slaveInvalid = false := by simpa [State.slaveInvalid, Config.maxSlave]
  have b : s.rxlenInvalid = false := by simpa [State.rxlenInvalid, Config.maxFrame]
  rw [State.decodeInvalid, a, b, show s.funcInvalid = false from h2]
  rfl

/-- Past the operand and length checks, DECODE is the checks on the frame. -/
theorem decodeWith_of_valid (m : Config.ExcFuncMatch) {s : State} (h1 : s.slave.toNat ≤ 247)
    (h2 : s.func.getLsbD 7 = false) (h3 : 4 ≤ s.rxlen.toNat) (h4 : s.rxlen.toNat ≤ 256) :
    decodeWith m s = parseFrame m s.rxlen.toNat s.examined := by
  have hi := decodeInvalid_eq_false h1 h2 h4
  exact (if_neg (by rw [hi]; decide)).trans (if_neg (by omega))

/-- The CRC check fails exactly where the frame does not verify (42_decode.md R173). -/
theorem crcMismatch_eq_not_verify (s : State) (h : 2 ≤ s.rxlen.toNat) :
    s.crcMismatch s.rxlen.toNat = !verify (s.rxBytes 0 s.rxlen.toNat) := by
  rw [verify_rxBytes s _ h, State.crcMismatch, bne]

/-- What the registers hold once the CRC is compared (42_decode.md R181). -/
theorem examined_registers (s : State) (h : s.rxlen.toNat ≤ 256) :
    s.examined.crc = crc16 (s.rxBytes 0 (s.rxlen.toNat - 2)) ∧ s.examined.rfunc = s.rxByte 1 ∧ s.examined.excode = 0#8 ∧
      s.examined.rplen.toNat = s.rxlen.toNat - 4 ∧ s.examined.rcount = 0#8 ∧ CommandFrame s s.examined ∧
      LengthsKept s s.examined ∧ TxKept s s.examined := by
  refine ⟨rfl, rfl, rfl, ?_, rfl, commandFrame_examined s, ⟨rfl, rfl, rfl⟩, fun _ => rfl⟩
  rw [State.examined_rplen, BitVec.toNat_ofNat, Nat.mod_eq_of_lt (by omega)]

/-- The cases DECODE can end in: it fails before reading RX with the result registers cleared, or it fails, or reports an
exception, or data, with the frame examined. -/
theorem decodeWith_cases (m : Config.ExcFuncMatch) (s : State) :
    (∃ e, (e = .argumentInvalid ∨ e = .tooShort) ∧
      decodeWith m s = .next (s.beginCommand.clearResults.setOutcome .failed e)) ∨
    (4 ≤ s.rxlen.toNat ∧ s.rxlen.toNat ≤ 256 ∧
      ((s.examined.crcok = false ∧ decodeWith m s = .next (s.examined.setOutcome .failed .checksumMismatch)) ∨
       (s.examined.crcok = true ∧
        ((∃ e, (e = .slaveMismatch ∨ e = .functionMismatch ∨ e = .payloadLengthMismatch) ∧
            decodeWith m s = .next (s.examined.setOutcome .failed e)) ∨
         (s.isException = true ∧ (m = .strict → s.echoMismatch = false) ∧ s.rxlen.toNat ≠ 4 ∧
            decodeWith m s = .next ((s.examined.setExcode (s.rxByte 2)).setOutcome .exception .noError)) ∨
         (s.functionMismatch = false ∧ s.readFunction = true ∧ s.byteCountInvalid s.rxlen.toNat = false ∧
            s.rxlen.toNat ≠ 4 ∧
            decodeWith m s = .next ((s.examined.setRcount (BitVec.ofNat 8 ((s.rxByte 2).toNat / 2))).setOutcome .data .noError)) ∨
         (s.functionMismatch = false ∧ s.readFunction = false ∧
            decodeWith m s = .next (s.examined.setOutcome .data .noError)))))) := by
  rw [decodeWith]
  by_cases hi : s.decodeInvalid = true
  · exact .inl ⟨_, .inl rfl, if_pos hi⟩
  rw [if_neg hi]
  by_cases hn : s.rxlen.toNat < 4
  · exact .inl ⟨_, .inr rfl, if_pos hn⟩
  rw [if_neg hn, parseFrame_examined]
  have hl : s.rxlen.toNat ≤ 256 := by
    refine Nat.le_of_not_lt fun h => hi ?_
    simp [State.decodeInvalid, State.rxlenInvalid, Config.maxFrame, h]
  refine .inr ⟨by omega, hl, ?_⟩
  have hc : s.examined.crcok = !s.crcMismatch s.rxlen.toNat := by simp [State.crcMismatch, bne]
  rw [hc]
  cases s.crcMismatch s.rxlen.toNat
  swap
  · exact .inl ⟨rfl, rfl⟩
  refine .inr ⟨rfl, ?_⟩
  cases s.slaveMismatch
  swap
  · exact .inl ⟨_, .inl rfl, rfl⟩
  by_cases hx : s.isException = true
  · rw [if_pos hx]
    by_cases he : (decide (m = .strict) && s.echoMismatch) = true
    · exact .inl ⟨_, .inr (.inl rfl), if_pos he⟩
    rw [if_neg he]
    by_cases h4 : s.rxlen.toNat - 4 = 0
    · exact .inl ⟨_, .inr (.inr rfl), if_pos h4⟩
    · exact .inr (.inl ⟨hx, fun hm => by simpa [hm] using he, by omega, if_neg h4⟩)
  · rw [if_neg hx]
    cases s.functionMismatch
    swap
    · exact .inl ⟨_, .inr (.inl rfl), rfl⟩
    cases s.readFunction
    · exact .inr (.inr (.inr ⟨rfl, rfl, rfl⟩))
    by_cases h4 : s.rxlen.toNat - 4 = 0
    · exact .inl ⟨_, .inr (.inr rfl), if_pos h4⟩
    cases hb : s.byteCountInvalid s.rxlen.toNat
    · exact .inr (.inr (.inl ⟨rfl, rfl, rfl, by omega, if_neg h4⟩))
    · exact .inl ⟨_, .inr (.inr rfl), if_neg h4⟩

end Sys2Proof.Safety
end

