-- ==== Sys2Proof/Laws/Commands.lean ====
section
/-! SUPPORT. Everything a command can do, in one lemma, and from it what every command keeps. -/

namespace Sys2Proof.Safety

open Sys2Proof.Machine

/-- The cases of a command's completion: it fails on its arguments, or leaves a CRC and a verdict, or seals a frame of at most
256 bytes behind a header, or is DECODE. -/
theorem exec_cases (i : Instr) (s : State) :
    exec i s = .next (s.beginCommand.setOutcome .failed .argumentInvalid) ∨
    (∃ c b, exec i s = .next (((s.beginCommand.setCrc c).setCrcok b).setOutcome .ok .noError)) ∨
    (∃ n hd f, hd.length ≤ n ∧ n ≤ 254 ∧ exec i s = .next (sealed n ((s.beginCommand.writeTx 0 hd).setFunc f))) ∨
    (i = .decode ∧ exec i s = decodeWith Config.excFuncMatch s) := by
  cases i
  case crcInit => exact .inr (.inl ⟨0xFFFF#16, false, rfl⟩)
  case crcByte b => exact .inr (.inl ⟨crcStep s.crc b, false, rfl⟩)
  case crcTx =>
    by_cases h : s.txlenInvalid = true
    · exact .inl (if_pos h)
    · exact .inr (.inl ⟨crc16 (s.txBytes 0 s.txlen.toNat), false, if_neg h⟩)
  case crcRx =>
    by_cases h : s.rxlenInvalid = true
    · exact .inl (if_pos h)
    · exact .inr (.inl ⟨crc16 (s.rxBytes 0 s.rxlen.toNat), false, if_neg h⟩)
  case verifyRx =>
    by_cases h : s.rxlenInvalid = true
    · exact .inl (if_pos h)
    by_cases h2 : s.rxlen.toNat < 2
    · exact .inr (.inl ⟨s.crc, false, (if_neg h).trans (if_pos h2)⟩)
    · exact .inr (.inl ⟨_, _, (if_neg h).trans (if_neg h2)⟩)
  case encRaw =>
    by_cases h : (s.slaveInvalid || s.funcInvalid || s.plenInvalid) = true
    · exact .inl (if_pos h)
    · have hp : ¬ s.plen.toNat > 252 := fun hp => h (by simp [State.plenInvalid, Config.maxFrame, hp])
      exact .inr (.inr (.inl ⟨2 + s.plen.toNat, [s.slave, s.func], s.func, by simp, by omega, if_neg h⟩))
  case encRhr =>
    by_cases h : (s.slaveInvalid || s.rangeInvalid Config.maxReadQty) = true
    · exact .inl (if_pos h)
    · exact .inr (.inr (.inl ⟨6, _, _, by simp [packedHeader, be16], by omega, if_neg h⟩))
  case encRir =>
    by_cases h : (s.slaveInvalid || s.rangeInvalid Config.maxReadQty) = true
    · exact .inl (if_pos h)
    · exact .inr (.inr (.inl ⟨6, _, _, by simp [packedHeader, be16], by omega, if_neg h⟩))
  case encWsr =>
    by_cases h : s.slaveInvalid = true
    · exact .inl (if_pos h)
    · exact .inr (.inr (.inl ⟨6, _, _, by simp [packedHeader, be16], by omega, if_neg h⟩))
  case encWmr =>
    by_cases h : (s.slaveInvalid || s.rangeInvalid Config.maxWriteQty) = true
    · exact .inl (if_pos h)
    · have hq : ¬ s.qty.toNat > 123 := fun hq => h (by simp [State.rangeInvalid, Config.maxWriteQty, hq])
      exact .inr (.inr (.inl ⟨7 + 2 * s.qty.toNat, _, _, by simp [packedHeader, be16], by omega, if_neg h⟩))
  case decode => exact .inr (.inr (.inr ⟨rfl, rfl⟩))

/-- What a completed command of any kind leaves: the engine idle, its frame, a consistent STATUS, the result registers as they
were or consistent, and TX canonical. -/
structure CommandEffect (s t : State) : Prop where
  est : t.est = .idle
  frame : CommandFrame s t
  rx : t.rx = s.rx
  status : StatusConsistent t
  results : ResultsKept s t ∨ ResultsConsistent t
  tx_wf : Memory.wf s.tx = true → Memory.wf t.tx = true

theorem ResultsConsistent.of_kept {s t : State} (h : ResultsConsistent s) (k : ResultsKept s t) : ResultsConsistent t where
  rplen_le := by rw [k.rplen]; exact h.rplen_le
  excode_frame := by rw [k.excode, k.rfunc, k.rplen, k.rcount]; exact h.excode_frame
  rcount_frame := by rw [k.excode, k.rfunc, k.rplen, k.rcount]; exact h.rcount_frame

/-- Failure with the flags of a command that compared no CRC. -/
theorem statusConsistent_failed {t : State} {e : Err} (h : Finished t .failed e false false) (he : e ≠ .noError) :
    StatusConsistent t where
  err_iff_failed := by simp [h.kind, h.err, he]
  frame_crcok := by simp [h.kind]
  noresp_ok := by simp [h.noresp]
  crcok_err := by simp [h.crcok]

theorem commandEffect_sealed (n : Nat) (hd : List Byte) (f : Byte) (s : State) (h1 : hd.length ≤ n) (h2 : n ≤ 254) :
    CommandEffect s (sealed n ((s.beginCommand.writeTx 0 hd).setFunc f)) where
  est := rfl
  frame := .of_eq rfl
  rx := rfl
  status := ⟨by simp [sealed], by simp [sealed], fun _ => ⟨rfl, rfl⟩, fun h => absurd h Bool.false_ne_true⟩
  results := .inl ⟨rfl, rfl, rfl, rfl⟩
  tx_wf := fun hw => Memory.wf_writeFrom
    (Memory.wf_writeFrom hw hd (by simp [Config.maxFrame]; omega)) _ (by simp [crcWire, Config.maxFrame]; omega)

theorem commandEffect_raise (s : State) (e : Err) (he : e ≠ .noError) :
    CommandEffect s (s.beginCommand.setOutcome .failed e) where
  est := rfl
  frame := .of_eq rfl
  rx := rfl
  status := statusConsistent_failed ⟨rfl, rfl, rfl, rfl, rfl⟩ he
  results := .inl ⟨rfl, rfl, rfl, rfl⟩
  tx_wf := id

/-- A DECODE that fails once the frame is examined. -/
theorem commandEffect_examined_failed (s : State) (e : Err) (h : s.rxlen.toNat ≤ 256) (he : e ≠ .noError)
    (hc : s.examined.crcok = true → e ≠ .tooShort ∧ e ≠ .checksumMismatch ∧ e ≠ .argumentInvalid ∧ e ≠ .illegalCommand) :
    CommandEffect s (s.examined.setOutcome .failed e) where
  est := rfl
  frame := (commandFrame_examined s).trans (commandFrame_setOutcome _ _ _)
  rx := rfl
  status := ⟨by simp [he], by simp, fun hn => absurd hn Bool.false_ne_true, hc⟩
  results := .inr ⟨by have := (examined_registers s h).2.2.2.1; simp at this ⊢; omega, by simp, by simp⟩
  tx_wf := id

theorem decodeWith_effect (m : Config.ExcFuncMatch) (s : State) : ∃ t, decodeWith m s = .next t ∧ CommandEffect s t := by
  rcases decodeWith_cases m s with ⟨e, he, h⟩ | ⟨h4, h256, h⟩
  · refine ⟨_, h, rfl, .of_eq rfl, rfl, statusConsistent_failed ⟨rfl, rfl, rfl, rfl, rfl⟩ (by rcases he with rfl | rfl <;> simp),
      .inr ⟨by simp, by simp, by simp⟩, id⟩
  have hl : s.examined.rplen.toNat = s.rxlen.toNat - 4 := (examined_registers s h256).2.2.2.1
  have frame : ∀ {u : State} {k e}, CommandFrame s.examined u → CommandFrame s (u.setOutcome k e) := fun hu =>
    ((commandFrame_examined s).trans hu).trans (commandFrame_setOutcome _ _ _)
  rcases h with ⟨hc, h⟩ | ⟨hc, ⟨e, he, h⟩ | ⟨hx, hm, hn, h⟩ | ⟨hf, hr, hb, hn, h⟩ | ⟨hf, hr, h⟩⟩
  · exact ⟨_, h, commandEffect_examined_failed s _ h256 (by simp) fun hc' => by rw [hc] at hc'; cases hc'⟩
  · exact ⟨_, h, commandEffect_examined_failed s _ h256 (by rcases he with rfl | rfl | rfl <;> simp)
      fun _ => by rcases he with rfl | rfl | rfl <;> simp⟩
  · refine ⟨_, h, rfl, frame (commandFrame_setExcode _ _), rfl, ⟨by simp, fun _ => hc, fun hn => absurd hn Bool.false_ne_true, by simp⟩,
      .inr ⟨?_, fun _ => ⟨hx, ?_, rfl⟩, fun h' => absurd rfl h'⟩, id⟩
    · change s.examined.rplen.toNat ≤ 252; omega
    · change 1 ≤ s.examined.rplen.toNat; omega
  · refine ⟨_, h, rfl, frame (commandFrame_setRcount _ _), rfl, ⟨by simp, fun _ => hc, fun hn => absurd hn Bool.false_ne_true, by simp⟩,
      .inr ⟨?_, fun h' => absurd rfl h', fun _ => ⟨?_, ?_, rfl⟩⟩, id⟩
    · change s.examined.rplen.toNat ≤ 252; omega
    · have e : s.rxByte 1 = s.func := by simpa [State.functionMismatch] using hf
      change s.rxByte 1 = 0x03#8 ∨ s.rxByte 1 = 0x04#8
      rw [e]; simpa [State.readFunction] using hr
    · change s.examined.rplen.toNat = 2 * (BitVec.ofNat 8 ((s.rxByte 2).toNat / 2)).toNat + 1
      rw [BitVec.toNat_ofNat, Nat.mod_eq_of_lt (by omega), hl]
      simp [State.byteCountInvalid] at hb
      omega
  · refine ⟨_, h, rfl, frame (.refl _), rfl, ⟨by simp, fun _ => hc, fun hn => absurd hn Bool.false_ne_true, by simp⟩,
      .inr ⟨?_, by simp, by simp⟩, id⟩
    change s.examined.rplen.toNat ≤ 252; omega

/-- Every command, in every state, completes with the effect of a command. -/
theorem exec_effect (i : Instr) (s : State) : ∃ t, exec i s = .next t ∧ CommandEffect s t := by
  rcases exec_cases i s with h | ⟨c, b, h⟩ | ⟨n, hd, f, h1, h2, h⟩ | ⟨rfl, h⟩
  · exact ⟨_, h, commandEffect_raise s _ (by simp)⟩
  · exact ⟨_, h, rfl, .of_eq rfl, rfl, ⟨by simp, by simp, fun hn => absurd hn Bool.false_ne_true, by simp⟩,
      .inl ⟨rfl, rfl, rfl, rfl⟩, id⟩
  · exact ⟨_, h, commandEffect_sealed n hd f s h1 h2⟩
  · obtain ⟨t, ht, e⟩ := decodeWith_effect Config.excFuncMatch s
    exact ⟨t, h.trans ht, e⟩

/-- No command but DECODE touches the result registers (10_state.md R42 to R45). -/
theorem resultsKept_exec {i : Instr} (hi : i ≠ .decode) {s t : State} (h : exec i s = .next t) : ResultsKept s t := by
  rcases exec_cases i s with h' | ⟨c, b, h'⟩ | ⟨n, hd, f, _, _, h'⟩ | ⟨rfl, _⟩
  · rw [h'] at h; cases h; exact ⟨rfl, rfl, rfl, rfl⟩
  · rw [h'] at h; cases h; exact ⟨rfl, rfl, rfl, rfl⟩
  · rw [h'] at h; cases h; exact ⟨rfl, rfl, rfl, rfl⟩
  · exact absurd rfl hi

end Sys2Proof.Safety
end

