-- ==== Sys2Proof/Laws/Decode.lean ====
section
/-! SUPPORT. The laws of the command word: the fields of an encoded word, and what each opcode decodes to. -/

namespace Sys2Proof

/-- The three fields of an encoded word (30_encoding.md R90): opcode, immediate, and the reserved bits 0. -/
theorem encode_fields (i : Instr) :
    opField (encode i) = opcode i ∧ immField (encode i) = immediate i ∧ (encode i).extractLsb' 16 16 = 0#16 := by
  unfold encode opField immField
  generalize immediate i = a
  generalize opcode i = b
  refine ⟨?_, ?_, ?_⟩ <;> refine BitVec.eq_of_getLsbD_eq fun j hj => ?_ <;>
    simp only [BitVec.getLsbD_extractLsb', BitVec.getLsbD_or, BitVec.getLsbD_shiftLeft, BitVec.getLsbD_setWidth]
  · simp [hj]; omega
  · have h1 : 8 + j < 32 := by omega
    have h2 : ¬ 8 + j < 8 := by omega
    have h3 : j < 32 := by omega
    simp [hj, h1, h2, h3]
  · have h1 : 16 + j < 32 := by omega
    have h2 : ¬ 16 + j < 8 := by omega
    rw [BitVec.getLsbD_of_ge a _ (by omega), BitVec.getLsbD_of_ge b _ (by omega)]
    simp

/-- The opcode map read backwards (R94). -/
theorem decodeOp_opcode (i : Instr) : decodeOp (opcode i) (immediate i) = .command i := by cases i <;> rfl

/-- An opcode decodes to a command or to its own illegal command, and to nothing else (R100). -/
theorem decodeOp_cases (op imm : Byte) :
    decodeOp op imm = .illegal op ∨ ∃ i, opcode i = op ∧ decodeOp op imm = .command i := by
  generalize hd : decodeOp op imm = d
  unfold decodeOp at hd
  repeat' (split at hd; · subst hd; subst_vars; exact .inr ⟨_, rfl, rfl⟩)
  exact .inl hd.symm

end Sys2Proof
end

