-- ==== Sys2Proof/Laws/PerInstr.lean ====
section
/-! SUPPORT. The family EncodedFields, one lemma per command: its word holds its opcode in bits 7 to 0, its immediate in bits
15 to 8 and zeros in the reserved bits (30_encoding.md R90, R98, R99). -/

namespace Sys2Proof.Laws.EncodedFields

open Sys2Proof

/-- The three fields of the command's word. -/
def Statement (i : Instr) : Prop :=
  i.WellFormed = true →
    (encode i).extractLsb' 0 8 = opcode i ∧ (encode i).extractLsb' 8 8 = immediate i ∧
      (encode i).extractLsb' 16 16 = 0#16

theorem crcInit : Statement .crcInit := fun _ => encode_fields _
theorem crcByte (b : Byte) : Statement (.crcByte b) := fun _ => encode_fields _
theorem crcTx : Statement .crcTx := fun _ => encode_fields _
theorem crcRx : Statement .crcRx := fun _ => encode_fields _
theorem verifyRx : Statement .verifyRx := fun _ => encode_fields _
theorem encRaw : Statement .encRaw := fun _ => encode_fields _
theorem encRhr : Statement .encRhr := fun _ => encode_fields _
theorem encRir : Statement .encRir := fun _ => encode_fields _
theorem encWsr : Statement .encWsr := fun _ => encode_fields _
theorem encWmr : Statement .encWmr := fun _ => encode_fields _
theorem decode : Statement .decode := fun _ => encode_fields _

end Sys2Proof.Laws.EncodedFields
end

