-- ==== Sys2Proof/Laws/Step.lean ====
section
/-! SUPPORT. Everything a step can do: the events, the completion, and the cases of a step in one lemma. -/

namespace Sys2Proof.Safety

open Sys2Proof.Machine

/-! ## The completion of the command in flight -/

/-- The command in flight, or the illegal command, is what completes. -/
theorem completePending_of_command {s : State} {op imm : Byte} {i : Instr} (he : s.est = .busy op imm)
    (hd : decodeOp op imm = .command i) : completePending s = exec i s := by simp only [completePending, he, hd]

theorem completePending_of_illegal {s : State} {op imm o : Byte} (he : s.est = .busy op imm)
    (hd : decodeOp op imm = .illegal o) : completePending s = execIllegal o s := by simp only [completePending, he, hd]

theorem busy_iff {s : State} : s.busy = true ↔ ∃ op imm, s.est = .busy op imm := by
  unfold State.busy
  cases s.est <;> simp

/-- Whatever is in flight, its completion has the effect of a command; only a DECODE changes the result registers. -/
theorem completePending_effect {s : State} (hb : s.busy = true) :
    ∃ t, completePending s = .next t ∧ CommandEffect s t ∧ (ResultsKept s t ∨ ∃ imm, s.est = .busy 0x20#8 imm) := by
  obtain ⟨op, imm, he⟩ := busy_iff.1 hb
  rcases decodeOp_cases op imm with hd | ⟨i, hi, hd⟩
  · exact ⟨_, completePending_of_illegal he hd, commandEffect_raise s .illegalCommand (by simp), .inl ⟨rfl, rfl, rfl, rfl⟩⟩
  · obtain ⟨t, ht, e⟩ := exec_effect i s
    refine ⟨t, (completePending_of_command he hd).trans ht, e, ?_⟩
    by_cases h : i = .decode
    · subst h
      exact .inr ⟨imm, by rw [he, ← hi]; rfl⟩
    · exact .inl (resultsKept_exec h ht)

/-! ## Clock edges -/

/-- While a command is in flight, an edge changes at most OVR, the free-value number and prdata, and ticks (30_encoding.md
R91). -/
theorem runningEdge_of_busy {s : State} (hb : s.busy = true) (x : Option Txn) :
    ∃ o d p, s.draws ≤ d ∧ s.runningEdge x = { s with ovr := o, draws := d, prdata := p, latency := s.latency - 1 } := by
  have ht := State.transact_of_busy hb x
  refine ⟨(s.transact x).ovr, (s.transact x).draws, (s.transact x).prdata, ?_, ?_⟩
  · cases x with
    | none => exact Nat.le_refl _
    | some x =>
      cases x with
      | read a =>
        change s.draws ≤ (s.busRead a).2.draws
        rcases State.busRead_state s a with h | ⟨_, h⟩ <;> rw [h]
        exact Nat.le_succ _
      | write a v =>
        change s.draws ≤ (s.busWrite a v).draws
        rw [State.busWrite_of_busy_eq hb]
  · have hb' : (s.transact x).busy = true := by rw [ht]; exact hb
    rw [State.runningEdge, if_pos hb, State.tick, if_pos hb']
    rw [ht]

theorem runningEdge_of_idle {s : State} (hb : s.busy = false) (x : Option Txn) : s.runningEdge x = s.transact x := by
  rw [State.runningEdge, if_neg (by simp [hb])]

/-- An edge is its transaction, the tick apart. -/
theorem runningEdge_eq_transact (s : State) (x : Option Txn) :
    ∃ n, s.runningEdge x = { s.transact x with latency := n } := by
  unfold State.runningEdge State.tick
  split
  · split
    · exact ⟨_, rfl⟩
    · exact ⟨(s.transact x).latency, rfl⟩
  · exact ⟨(s.transact x).latency, rfl⟩

/-- An event of an edge is the edge with the coming transaction; what is then to come was to come before. -/
theorem event_of_edge {s : State} (h : s.comingEdge = true) :
    ∃ l, (∀ x ∈ l, x ∈ s.inputs) ∧ s.event = { s.clockEdge s.comingTxn with inputs := l } := by
  unfold State.comingEdge at h
  unfold State.event State.comingTxn
  cases hi : s.inputs with
  | nil =>
    refine ⟨[], by simp, ?_⟩
    have : (s.clockEdge none).inputs = [] := by
      unfold State.clockEdge State.runningEdge State.tick
      split
      · split
        · split <;> exact hi
        · exact hi
      · exact hi
    change s.clockEdge none = { s.clockEdge none with inputs := [] }
    rw [← this]
  | cons x rest =>
    cases x with
    | edge t => exact ⟨rest, fun x hx => List.mem_cons_of_mem _ hx, rfl⟩
    | poll =>
      refine ⟨_, ?_, rfl⟩
      intro x hx
      split at hx
      · exact hx
      · exact List.mem_cons_of_mem _ hx
    | rst lv => rw [hi] at h; cases h

/-- The coming event is a change of rst_n exactly where it is no edge. -/
theorem event_of_not_edge {s : State} (h : s.comingEdge = false) :
    ∃ lv rest, s.inputs = .rst lv :: rest ∧
      s.event = { (if lv then s.releaseReset else s.assertReset) with inputs := rest } := by
  unfold State.comingEdge at h
  cases hi : s.inputs with
  | nil => rw [hi] at h; cases h
  | cons x rest =>
    cases x with
    | edge t => rw [hi] at h; cases h
    | poll => rw [hi] at h; cases h
    | rst lv =>
      refine ⟨lv, rest, rfl, ?_⟩
      unfold State.event
      rw [hi]
      cases lv <;> rfl

/-! ## Steps -/

/-- A step without a completion is its event. -/
theorem step_of_not_due {s : State} (h : s.completionDue = false) : step s = .next s.event := by
  rw [step, if_neg (by simp [h])]

theorem step_of_due {s : State} (h : s.completionDue = true) : step s = completePending s.event := by
  rw [step, if_pos h]

theorem completionDue_iff {s : State} :
    s.completionDue = true ↔ s.comingEdge = true ∧ s.running = true ∧ s.busy = true ∧ s.latency ≤ 1 := by
  simp [State.completionDue, and_assoc]

/-- Everything a step can do. -/
inductive StepCase (s t : State) : Prop where
  /-- rst_n changes. -/
  | reset (level : Bool) (rest : List Input) (h : s.inputs = .rst level :: rest)
      (ht : t = { (if level then s.releaseReset else s.assertReset) with inputs := rest })
  /-- An edge in reset. -/
  | held (l : List Input) (he : s.comingEdge = true) (hr : s.running = false)
      (ht : t = { s.heldEdge s.comingTxn with inputs := l })
  /-- An edge with no command in flight before it. -/
  | idle (l : List Input) (he : s.comingEdge = true) (hr : s.running = true) (hb : s.busy = false)
      (ht : t = { s.transact s.comingTxn with inputs := l })
  /-- An edge in flight that is not the last. -/
  | wait (o : Bool) (d : Nat) (p : Option Word) (l : List Input) (he : s.comingEdge = true) (hr : s.running = true)
      (hb : s.busy = true) (hl : 1 < s.latency) (hd : s.draws ≤ d) (hs : ∀ x ∈ l, x ∈ s.inputs)
      (ho : o = (s.transact s.comingTxn).ovr)
      (ht : t = { s with ovr := o, draws := d, prdata := p, latency := s.latency - 1, inputs := l })
  /-- The last edge of a command: its completion, on the state the edge leaves. -/
  | complete (o : Bool) (d : Nat) (p : Option Word) (l : List Input) (u : State) (he : s.comingEdge = true)
      (hr : s.running = true) (hb : s.busy = true) (hl : s.latency ≤ 1) (hd : s.draws ≤ d) (hs : ∀ x ∈ l, x ∈ s.inputs)
      (ho : o = (s.transact s.comingTxn).ovr)
      (hu : u = { s with ovr := o, draws := d, prdata := p, latency := s.latency - 1, inputs := l })
      (hc : completePending u = .next t)
      (ht : CommandEffect u t) (hk : ResultsKept u t ∨ ∃ imm, s.est = .busy 0x20#8 imm)

/-- An edge in flight, as `StepCase` says it. -/
theorem event_in_flight {s : State} (he : s.comingEdge = true) (hr : s.running = true) (hb : s.busy = true) :
    ∃ d p l, s.draws ≤ d ∧ (∀ x ∈ l, x ∈ s.inputs) ∧
      s.event = { s with ovr := (s.transact s.comingTxn).ovr, draws := d, prdata := p, latency := s.latency - 1, inputs := l } := by
  obtain ⟨l, hl, hev⟩ := event_of_edge he
  obtain ⟨o, d, p, hd, hrun⟩ := runningEdge_of_busy hb s.comingTxn
  have ho : o = (s.transact s.comingTxn).ovr := by
    have h1 : (s.runningEdge s.comingTxn).ovr = o := by rw [hrun]
    rw [← h1, State.runningEdge, if_pos hb, State.tick]
    split <;> rfl
  refine ⟨d, p, l, hd, hl, ?_⟩
  rw [hev, State.clockEdge, if_pos hr, hrun, ho]

/-- The cases of a step: every step answers a next state, and it is one of these. -/
theorem step_cases (s : State) : ∃ t, step s = .next t ∧ StepCase s t := by
  cases he : s.comingEdge
  · obtain ⟨lv, rest, hi, hev⟩ := event_of_not_edge he
    have hd : s.completionDue = false := by simp [State.completionDue, he]
    exact ⟨_, step_of_not_due hd, .reset lv rest hi hev⟩
  cases hr : s.running
  · obtain ⟨l, -, hev⟩ := event_of_edge he
    have hd : s.completionDue = false := by simp [State.completionDue, hr]
    exact ⟨_, step_of_not_due hd, .held l he hr (by rw [hev, State.clockEdge, if_neg (by simp [hr])])⟩
  cases hb : s.busy
  · obtain ⟨l, -, hev⟩ := event_of_edge he
    have hd : s.completionDue = false := by simp [State.completionDue, hb]
    exact ⟨_, step_of_not_due hd, .idle l he hr hb (by rw [hev, State.clockEdge, if_pos hr, runningEdge_of_idle hb])⟩
  obtain ⟨d, p, l, hd, hs, hev⟩ := event_in_flight he hr hb
  by_cases hl : 1 < s.latency
  · have hn : s.completionDue = false := by simp [State.completionDue]; omega
    exact ⟨_, step_of_not_due hn, .wait _ d p l he hr hb hl hd hs rfl hev⟩
  · have hn : s.completionDue = true := completionDue_iff.2 ⟨he, hr, hb, by omega⟩
    have hb' : s.event.busy = true := by rw [hev]; exact hb
    obtain ⟨t, ht, e, hk⟩ := completePending_effect hb'
    have hest : s.event.est = s.est := by rw [hev]
    exact ⟨t, (step_of_due hn).trans ht, .complete _ d p l s.event he hr hb (by omega) hd hs rfl hev ht e (by rwa [hest] at hk)⟩

/-- The cases of a step that answered `t`. -/
theorem step_inversion {s t : State} (h : step s = .next t) : StepCase s t := by
  obtain ⟨u, hu, hc⟩ := step_cases s
  rw [hu] at h
  cases h
  exact hc

/-- An edge in reset is the held edge of its transaction; a POLL reads 0 there, so it ends like any other transaction. -/
theorem step_held {s : State} (he : s.comingEdge = true) (hr : s.running = false) :
    step s = .next { s.heldEdge s.comingTxn with inputs := s.inputs.tail } := by
  rw [step_of_not_due (by simp [State.completionDue, hr])]
  unfold State.event State.comingTxn
  unfold State.comingEdge at he
  cases hi : s.inputs with
  | nil =>
    have h0 : (s.heldEdge none).inputs = [] := hi
    change Host.Outcome.next (s.clockEdge none) = .next { s.heldEdge none with inputs := [] }
    rw [← h0, State.clockEdge, if_neg (by simp [hr])]
  | cons x rest =>
    cases x with
    | edge t => simp only [State.clockEdge, hr]; rfl
    | poll => simp only [State.clockEdge, hr]; rfl
    | rst lv => rw [hi] at he; cases he

/-- An edge without a transaction, out of reset and with no command in flight, changes nothing but the port. -/
theorem step_quiet {s : State} (he : s.comingEdge = true) (hr : s.running = true) (hb : s.busy = false)
    (hx : s.comingTxn = none) : step s = .next { s with prdata := none, inputs := s.inputs.tail } := by
  rw [step_of_not_due (by simp [State.completionDue, hb])]
  unfold State.event
  unfold State.comingEdge at he
  unfold State.comingTxn at hx
  cases hi : s.inputs with
  | nil =>
    change Host.Outcome.next (s.clockEdge none) = .next { s with prdata := none, inputs := [] }
    rw [← hi, State.clockEdge, if_pos hr, runningEdge_of_idle hb]; rfl
  | cons x rest =>
    rw [hi] at he hx
    cases x with
    | edge t => cases hx; simp only [State.clockEdge, hr, runningEdge_of_idle hb]; rfl
    | poll => cases hx
    | rst lv => cases he

/-- A change of rst_n takes the step by itself: no command completes at it. -/
theorem step_rst {s : State} {lv : Bool} {rest : List Input} (hi : s.inputs = .rst lv :: rest) :
    step s = .next { (if lv then s.releaseReset else s.assertReset) with inputs := rest } := by
  have he : s.comingEdge = false := by unfold State.comingEdge; rw [hi]
  rw [step_of_not_due (by simp [State.completionDue, he])]
  unfold State.event; rw [hi]; cases lv <;> rfl

/-! ## Runs -/

/-- The first step of a run. -/
theorem run_succ {s t : State} (h : step s = .next t) (k : Nat) :
    Host.Core.run Sys2Proof.core (k + 1) s = Host.Core.run Sys2Proof.core k t := by
  have h' : Sys2Proof.core.step s = .next t := h
  simp only [Host.Core.run, h']

/-- Where no reset is to come, the coming event is an edge. -/
theorem comingEdge_of_noReset {s : State} (h : NoReset s) : s.comingEdge = true := by
  cases he : s.comingEdge
  · obtain ⟨lv, rest, hi, -⟩ := event_of_not_edge he
    exact absurd (by rw [hi]; simp) (h lv)
  · rfl

/-! ## What a host write leaves -/

/-- The outcome of the last command does not change with what else does. -/
theorem StatusConsistent.of_eq {s t : State} (h : StatusConsistent s) (h1 : t.err = s.err) (h2 : t.kind = s.kind)
    (h3 : t.crcok = s.crcok) (h4 : t.noresp = s.noresp) : StatusConsistent t where
  err_iff_failed := by rw [h1, h2]; exact h.err_iff_failed
  frame_crcok := by rw [h2, h3]; exact h.frame_crcok
  noresp_ok := by rw [h2, h3, h4]; exact h.noresp_ok
  crcok_err := by rw [h1, h3]; exact h.crcok_err

/-- What no host write changes: the outcome, the result registers, the pins and the buffers' draw. -/
structure WriteFrame (s t : State) : Prop where
  err : t.err = s.err
  kind : t.kind = s.kind
  crcok : t.crcok = s.crcok
  noresp : t.noresp = s.noresp
  results : ResultsKept s t
  rstN : t.rstN = s.rstN
  live : t.live = s.live
  inputs : t.inputs = s.inputs
  seed : t.seed = s.seed
  draws : s.draws ≤ t.draws

theorem writeFrame_busWrite (s : State) (a : BitVec 10) (v : Word) : WriteFrame s (s.busWrite a v) := by
  have refl : ∀ u : State, WriteFrame u u := fun u =>
    ⟨rfl, rfl, rfl, rfl, ⟨rfl, rfl, rfl, rfl⟩, rfl, rfl, rfl, rfl, Nat.le_refl _⟩
  unfold State.busWrite
  split
  · exact ⟨rfl, rfl, rfl, rfl, ⟨rfl, rfl, rfl, rfl⟩, rfl, rfl, rfl, rfl, Nat.le_refl _⟩
  cases decodeAddr a with
  | reserved => exact refl s
  | tx i => exact ⟨rfl, rfl, rfl, rfl, ⟨rfl, rfl, rfl, rfl⟩, rfl, rfl, rfl, rfl, Nat.le_refl _⟩
  | rx i => exact ⟨rfl, rfl, rfl, rfl, ⟨rfl, rfl, rfl, rfl⟩, rfl, rfl, rfl, rfl, Nat.le_refl _⟩
  | reg r =>
    cases r
    case status =>
      change WriteFrame s (s.writeStatus v)
      unfold State.writeStatus
      split
      · exact ⟨rfl, rfl, rfl, rfl, ⟨rfl, rfl, rfl, rfl⟩, rfl, rfl, rfl, rfl, Nat.le_refl _⟩
      · exact refl s
    case cmd => exact ⟨rfl, rfl, rfl, rfl, ⟨rfl, rfl, rfl, rfl⟩, rfl, rfl, rfl, rfl, Nat.le_succ _⟩
    all_goals exact ⟨rfl, rfl, rfl, rfl, ⟨rfl, rfl, rfl, rfl⟩, rfl, rfl, rfl, rfl, Nat.le_refl _⟩

/-- A host write that leaves the block busy leaves it a cycle or more to go: it was in flight, or it is issued there. -/
theorem latency_busWrite {s : State} (h : s.busy = false) (a : BitVec 10) (v : Word) (hb : (s.busWrite a v).busy = true) :
    decodeAddr a = .reg .cmd ∧ 1 ≤ (s.busWrite a v).latency := by
  have no : ∀ u : State, u.est = s.est → u.busy = true → False := by
    intro u hu hb
    obtain ⟨op, imm, he⟩ := busy_iff.1 hb
    rw [busy_iff.2 ⟨op, imm, hu.symm.trans he⟩] at h
    cases h
  rw [State.busWrite_of_idle h] at hb ⊢
  cases hd : decodeAddr a with
  | reserved => rw [hd] at hb; exact (no _ rfl hb).elim
  | tx i => rw [hd] at hb; exact (no _ rfl hb).elim
  | rx i => rw [hd] at hb; exact (no _ rfl hb).elim
  | reg r =>
    rw [hd] at hb
    cases r
    case cmd => exact ⟨rfl, Nat.le_add_left _ _⟩
    case status =>
      refine (no (s.writeStatus v) ?_ hb).elim
      unfold State.writeStatus
      split <;> rfl
    all_goals exact (no _ rfl hb).elim

/-! ## The buffers stay canonical -/

/-- A host write keeps the canonical form of both buffers. -/
theorem wf_busWrite {s : State} (ht : Memory.wf s.tx = true) (hr : Memory.wf s.rx = true) (a : BitVec 10) (v : Word) :
    Memory.wf (s.busWrite a v).tx = true ∧ Memory.wf (s.busWrite a v).rx = true := by
  unfold State.busWrite
  split
  · exact ⟨ht, hr⟩
  cases hd : decodeAddr a with
  | reserved => exact ⟨ht, hr⟩
  | tx i => exact ⟨Memory.wf_writeFrom ht _ (decodeAddr_tx_lt hd), hr⟩
  | rx i => exact ⟨ht, Memory.wf_writeFrom hr _ (decodeAddr_rx_lt hd)⟩
  | reg r =>
    cases r
    case status =>
      change Memory.wf (s.writeStatus v).tx = true ∧ Memory.wf (s.writeStatus v).rx = true
      unfold State.writeStatus
      split <;> exact ⟨ht, hr⟩
    all_goals exact ⟨ht, hr⟩

/-- A transaction keeps the canonical form of both buffers. -/
theorem wf_transact {s : State} (ht : Memory.wf s.tx = true) (hr : Memory.wf s.rx = true) (x : Option Txn) :
    Memory.wf (s.transact x).tx = true ∧ Memory.wf (s.transact x).rx = true := by
  cases x with
  | none => exact ⟨ht, hr⟩
  | some x =>
    cases x with
    | read a =>
      change Memory.wf (s.busRead a).2.tx = true ∧ Memory.wf (s.busRead a).2.rx = true
      rcases State.busRead_state s a with h | ⟨_, h⟩ <;> (rw [h]; exact ⟨ht, hr⟩)
    | write a v => exact wf_busWrite ht hr a v

/-- Reset leaves both buffers canonical: nothing is listed. -/
theorem wf_reset : Memory.wf State.reset.tx = true ∧ Memory.wf State.reset.rx = true := ⟨rfl, rfl⟩

end Sys2Proof.Safety
end

