-- ==== Sys2Proof/Tests/Slice0.lean ====
section
/-! SUPPORT. The model's own tests. Expected results are the spec's worked values (95_test_vectors.md, cited by the vector's
name, and the examples of the rules); words are written out from 30_encoding.md R90 and R94. The witnesses at the end meet
the hypotheses of the statements in Certificates/Slice0/Obligations.lean. -/

namespace Sys2Proof.Tests

open Sys2Proof Sys2Proof.Machine Sys2Proof.Safety

/-! ## Helpers -/

/-- The reset state with operands SLAVE, FUNC and QTY and the frame `bs` in RX. -/
def received (slave func : Byte) (qty : Half) (bs : List Byte) : State :=
  { State.reset with
    slave := slave, func := func, qty := qty, rx := Memory.writeFrom [] 0 bs, rxlen := BitVec.ofNat 9 bs.length }

/-- The reset state with operands SLAVE, ADDR and QTY. -/
def request (slave : Byte) (addr qty : Half) : State := { State.reset with slave := slave, addr := addr, qty := qty }

/-- The state in which a command leaves the block. -/
def after (i : Instr) (s : State) : Option State :=
  match exec i s with
  | .next t => some t
  | .fault _ => none
  | .refused _ => none

/-- The state after one step. -/
def stepped (s : State) : Option State :=
  match step s with
  | .next t => some t
  | .fault _ => none
  | .refused _ => none

/-- STATUS, CRC, RFUNC, EXCODE, RPLEN and RCOUNT: the columns of 95_test_vectors.md 2.5. -/
def results (s : State) : List Word :=
  [s.statusWord, s.regWord .crc, s.regWord .rfunc, s.regWord .excode, s.regWord .rplen, s.regWord .rcount]

/-- STATUS, CRC, TXLEN, RXLEN and FUNC. -/
def framed (s : State) : List Word :=
  [s.statusWord, s.regWord .crc, s.regWord .txlen, s.regWord .rxlen, s.regWord .func]

/-- A command in flight with two edges to go. -/
def inFlight (op imm : Byte) (l : List Input) : State :=
  { State.reset with est := .busy op imm, latency := 2, inputs := l }

/-! ## Well-formedness: each check refuses an ill-formed term -/

theorem test_wf_reserved_bits : cmdWordWellFormed 0x00010001#32 = false := by decide
theorem test_wf_word : cmdWordWellFormed 0x0000FF02#32 = true := by decide
theorem test_wf_wrTx : Line.wf (.wrTx 256 0#32) = false ∧ Line.wf (.wrTx 255 0#32) = true := by decide
theorem test_wf_wrRx : Line.wf (.wrRx 256 0#32) = false ∧ Line.wf (.wrRx 255 0#32) = true := by decide
theorem test_wf_rdTx : Line.wf (.rdTx 256) = false ∧ Line.wf (.rdTx 255) = true := by decide
theorem test_wf_rdRx : Line.wf (.rdRx 256) = false ∧ Line.wf (.rdRx 255) = true := by decide
theorem test_wf_loadTx : Line.wf (.loadTx 255 [0#8, 0#8]) = false ∧ Line.wf (.loadTx 254 [0#8, 0#8]) = true := by decide
theorem test_wf_loadRx : Line.wf (.loadRx 255 [0#8, 0#8]) = false ∧ Line.wf (.loadRx 254 [0#8, 0#8]) = true := by decide
theorem test_wf_rxFrame : Line.wf (.rxFrame (List.replicate 257 0#8)) = false := by decide +kernel
theorem test_wf_memory_order : Memory.wf [(1, 0#8), (0, 0#8)] = false := by decide
theorem test_wf_memory_twice : Memory.wf [(1, 0#8), (1, 0#8)] = false := by decide
theorem test_wf_memory_bound : Memory.wf [(256, 0#8)] = false ∧ Memory.wf [(255, 0#8)] = true := by decide

/-! ## Decoding: one word for every command -/

theorem test_decode_crcInit : decodeTableWord 32 0x00000001 = some .crcInit := by decide
theorem test_decode_crcByte : decodeTableWord 32 0x00003102 = some (.crcByte 0x31#8) := by decide
theorem test_decode_crcTx : decodeTableWord 32 0x00000003 = some .crcTx := by decide
theorem test_decode_crcRx : decodeTableWord 32 0x00000004 = some .crcRx := by decide
theorem test_decode_verifyRx : decodeTableWord 32 0x00000005 = some .verifyRx := by decide
theorem test_decode_encRaw : decodeTableWord 32 0x00000010 = some .encRaw := by decide
theorem test_decode_encRhr : decodeTableWord 32 0x00000011 = some .encRhr := by decide
theorem test_decode_encRir : decodeTableWord 32 0x00000012 = some .encRir := by decide
theorem test_decode_encWsr : decodeTableWord 32 0x00000013 = some .encWsr := by decide
theorem test_decode_encWmr : decodeTableWord 32 0x00000014 = some .encWmr := by decide
theorem test_decode_decode : decodeTableWord 32 0x00000020 = some .decode := by decide

/-- The unassigned opcodes of 95_test_vectors.md 2.6, X-1 to X-6. -/
theorem test_decode_illegal :
    [0x00000000#32, 0x00000006#32, 0x0000000F#32, 0x00000015#32, 0x00000021#32, 0xFFFFFFFF#32].map decodeWord =
      [.illegal 0x00#8, .illegal 0x06#8, .illegal 0x0F#8, .illegal 0x15#8, .illegal 0x21#8, .illegal 0xFF#8] := by decide

/-- Ignored fields (30_encoding.md R99): 0xFFFF0001 and 0x0000AB01 are CRC_INIT. -/
theorem test_decode_ignored :
    decodeWord 0xFFFF0001#32 = .command .crcInit ∧ decodeWord 0x0000AB01#32 = .command .crcInit := by decide

/-! ## The CRC functions: the examples of 40_crc.md R110 to R113 -/

theorem test_crcStep :
    crcStep 0xFFFF#16 0x00#8 = 0x40BF#16 ∧ crcStep 0xFFFF#16 0x01#8 = 0x807E#16 ∧ crcStep 0x0000#16 0x00#8 = 0x0000#16 ∧
      crcStep 0x0000#16 0x01#8 = 0xC0C1#16 := by decide +kernel

theorem test_crc16 : crc16 [0x01#8, 0x03#8, 0x00#8, 0x00#8, 0x00#8, 0x05#8] = 0xC985#16 ∧ crc16 [] = 0xFFFF#16 ∧
    crcWire 0xC985#16 = [0x85#8, 0xC9#8] := by decide +kernel

theorem test_verify_short : verify [0xFF#8, 0xFF#8] = true ∧ verify [0xFF#8, 0xFE#8] = false ∧ verify [0xFF#8] = false := by
  decide +kernel

/-! ## One step of each command -/

/-- R115's example. -/
theorem test_crcInit : (after .crcInit { State.reset with crc := 0x1234#16 }).map framed =
    some [0#32, 0xFFFF#32, 0#32, 0#32, 0#32] := by decide +kernel

/-- R116's example, CMD word 0x00000102. -/
theorem test_crcByte : (after (.crcByte 0x01#8) State.reset).map framed = some [0#32, 0x807E#32, 0#32, 0#32, 0#32] := by
  decide +kernel

/-- R117's example. -/
theorem test_crcTx :
    (after .crcTx { State.reset with
      tx := Memory.writeFrom [] 0 [0x01#8, 0x03#8, 0x00#8, 0x00#8, 0x00#8, 0x05#8], txlen := 6#9 }).map framed =
      some [0#32, 0xC985#32, 6#32, 0#32, 0#32] := by decide +kernel

/-- R117: TXLEN above 256 fails, CRC unchanged. -/
theorem test_crcTx_length : (after .crcTx { State.reset with txlen := 257#9 }).map framed =
    some [0x630#32, 0xFFFF#32, 257#32, 0#32, 0#32] := by decide +kernel

/-- R118's example. -/
theorem test_crcRx : (after .crcRx (received 0#8 0#8 0#16 [0x01#8, 0x83#8, 0x02#8])).map framed =
    some [0#32, 0xF1C0#32, 0#32, 3#32, 0#32] := by decide +kernel

theorem test_crcRx_length : (after .crcRx { State.reset with rxlen := 257#9 }).map framed =
    some [0x630#32, 0xFFFF#32, 0#32, 257#32, 0#32] := by decide +kernel

/-- R119's example. -/
theorem test_verifyRx :
    (after .verifyRx (received 0#8 0#8 0#16 [0x01#8, 0x03#8, 0x00#8, 0x00#8, 0x00#8, 0x05#8, 0x85#8, 0xC9#8])).map framed =
      some [0x4#32, 0xC985#32, 0#32, 8#32, 0#32] := by decide +kernel

/-- R119: one byte is a failed verification, not an error, and CRC is unchanged. -/
theorem test_verifyRx_short : (after .verifyRx { received 0#8 0#8 0#16 [0x01#8] with crc := 0x1234#16 }).map framed =
    some [0#32, 0x1234#32, 0#32, 1#32, 0#32] := by decide +kernel

/-- R144's example. -/
theorem test_encRaw :
    (after .encRaw { State.reset with
      slave := 0x01#8, func := 0x03#8, plen := 4#9, rxlen := 7#9,
      tx := Memory.writeFrom [] 2 [0x00#8, 0x00#8, 0x00#8, 0x0A#8] }).map (fun t => (t.txBytes 0 8, framed t)) =
      some ([0x01#8, 0x03#8, 0x00#8, 0x00#8, 0x00#8, 0x0A#8, 0xC5#8, 0xCD#8], [0#32, 0xCDC5#32, 8#32, 0#32, 3#32]) := by
  decide +kernel

/-- R144: a function code with bit 7 is no function code. -/
theorem test_encRaw_func : (after .encRaw { State.reset with slave := 1#8, func := 0x80#8, rxlen := 7#9 }).map framed =
    some [0x630#32, 0xFFFF#32, 0#32, 7#32, 0x80#32] := by decide +kernel

/-- Scenario 1 (R146's example). -/
theorem test_encRhr : (after .encRhr (request 1#8 0x0000#16 5#16)).map (fun t => (t.txBytes 0 8, framed t)) =
    some ([0x01#8, 0x03#8, 0x00#8, 0x00#8, 0x00#8, 0x05#8, 0x85#8, 0xC9#8], [0#32, 0xC985#32, 8#32, 0#32, 3#32]) := by
  decide +kernel

/-- R146: the last register may be read, but not one past it. -/
theorem test_encRhr_range :
    (after .encRhr (request 1#8 0xFFFF#16 1#16)).map State.statusWord = some 0#32 ∧
      (after .encRhr (request 1#8 0xFFFF#16 2#16)).map State.statusWord = some 0x630#32 := by decide +kernel

/-- 95_test_vectors.md 2.3: ADDR = 0xFF80, QTY = 125. -/
theorem test_encRir : (after .encRir (request 1#8 0xFF80#16 125#16)).map (fun t => (t.txBytes 0 6, framed t)) =
    some ([0x01#8, 0x04#8, 0xFF#8, 0x80#8, 0x00#8, 0x7D#8], [0#32, 0xD701#32, 8#32, 0#32, 4#32]) := by decide +kernel

/-- Broadcast sets NORESP (R143). -/
theorem test_encRir_broadcast : (after .encRir (request 0#8 0#16 1#16)).map State.statusWord = some 0x8#32 := by
  decide +kernel

/-- R149's example, E-S1. -/
theorem test_encWsr :
    (after .encWsr { request 0x11#8 0x0001#16 0#16 with value := 0x0003#16 }).map (fun t => (t.txBytes 0 8, framed t)) =
      some ([0x11#8, 0x06#8, 0x00#8, 0x01#8, 0x00#8, 0x03#8, 0x9A#8, 0x9B#8], [0#32, 0x9B9A#32, 8#32, 0#32, 6#32]) := by
  decide +kernel

/-- E-S2 and E-S3. -/
theorem test_encWsr_slave :
    (after .encWsr { request 0#8 1#16 0#16 with value := 0xFFFF#16 }).map framed =
        some [0x8#32, 0x6BD8#32, 8#32, 0#32, 6#32] ∧
      (after .encWsr { request 248#8 1#16 0#16 with value := 3#16 }).map framed =
        some [0x630#32, 0xFFFF#32, 0#32, 0#32, 0#32] := by decide +kernel

/-- R150's example, E-M1. -/
theorem test_encWmr :
    (after .encWmr { request 0x11#8 0x0001#16 2#16 with tx := Memory.writeFrom [] 7 [0x00#8, 0x0A#8, 0x01#8, 0x02#8] }).map
      (fun t => (t.txBytes 0 13, framed t)) =
      some ([0x11#8, 0x10#8, 0x00#8, 0x01#8, 0x00#8, 0x02#8, 0x04#8, 0x00#8, 0x0A#8, 0x01#8, 0x02#8, 0xC6#8, 0xF0#8],
        [0#32, 0xF0C6#32, 13#32, 0#32, 0x10#32]) := by decide +kernel

/-- E-M3, E-M4 and E-M5. -/
theorem test_encWmr_range :
    [request 1#8 0#16 124#16, request 1#8 0#16 0#16, request 1#8 0xFFFF#16 2#16].map
      (fun s => (after .encWmr s).map State.statusWord) = [some 0x630#32, some 0x630#32, some 0x630#32] := by decide +kernel

/-- Scenario 1 (D-01): the response decodes to five values. -/
theorem test_decode_data :
    (after .decode (received 1#8 0x03#8 5#16 [0x01#8, 0x03#8, 0x0A#8, 0x00#8, 0x01#8, 0x00#8, 0x02#8, 0x00#8, 0x03#8,
      0x00#8, 0x04#8, 0x00#8, 0x05#8, 0xCF#8, 0x24#8])).map (fun t => (results t, (List.range 5).map t.regValue)) =
      some ([0x14#32, 0x24CF#32, 3#32, 0#32, 11#32, 5#32], [1#16, 2#16, 3#16, 4#16, 5#16]) := by decide +kernel

/-- D-03, D-06, D-07, D-08, D-09, D-13, D-14, D-21 and D-22: each outcome of DECODE. -/
theorem test_decode_outcomes :
    [received 1#8 0x03#8 0#16 [0x01#8, 0x83#8, 0x02#8, 0xC0#8, 0xF1#8],
     received 1#8 0x03#8 1#16 [0x02#8, 0x03#8, 0x02#8, 0x00#8, 0x07#8, 0xBD#8, 0x86#8],
     received 1#8 0x03#8 1#16 [0x01#8, 0x04#8, 0x02#8, 0x00#8, 0x07#8, 0xF8#8, 0xF2#8],
     received 1#8 0x03#8 1#16 [0x01#8, 0x84#8, 0x02#8, 0xC2#8, 0xC1#8],
     received 1#8 0x03#8 1#16 [0x01#8, 0x83#8, 0x41#8, 0x81#8],
     received 1#8 0x03#8 1#16 [0x01#8, 0x03#8, 0x03#8, 0x00#8, 0x07#8, 0x00#8, 0x47#8, 0xBE#8],
     received 1#8 0x03#8 2#16 [0x01#8, 0x03#8, 0x04#8, 0x00#8, 0x07#8, 0x19#8, 0x87#8],
     received 1#8 0x07#8 0#16 [0x01#8, 0x07#8, 0x41#8, 0xE2#8],
     received 1#8 0x03#8 1#16 [0x02#8, 0x03#8, 0x02#8, 0x00#8, 0x07#8, 0x00#8, 0x00#8]].map
      (fun s => (after .decode s).map results) =
    [some [0x24#32, 0xF1C0#32, 0x83#32, 2#32, 1#32, 0#32],
     some [0x334#32, 0x86BD#32, 3#32, 0#32, 3#32, 0#32],
     some [0x434#32, 0xF2F8#32, 4#32, 0#32, 3#32, 0#32],
     some [0x434#32, 0xC1C2#32, 0x84#32, 0#32, 1#32, 0#32],
     some [0x534#32, 0x8141#32, 0x83#32, 0#32, 0#32, 0#32],
     some [0x534#32, 0xBE47#32, 3#32, 0#32, 4#32, 0#32],
     some [0x534#32, 0x8719#32, 3#32, 0#32, 3#32, 0#32],
     some [0x14#32, 0xE241#32, 7#32, 0#32, 0#32, 0#32],
     some [0x230#32, 0x86BD#32, 3#32, 0#32, 3#32, 0#32]] := by decide +kernel

/-- D-08b: the other reading of P_EXC_FUNC_MATCH. -/
theorem test_decode_bit7Only :
    (match decodeWith .bit7Only (received 1#8 0x03#8 1#16 [0x01#8, 0x84#8, 0x02#8, 0xC2#8, 0xC1#8]) with
      | .next t => results t
      | .fault _ => []
      | .refused _ => []) = [0x24#32, 0xC1C2#32, 0x84#32, 2#32, 1#32, 0#32] := by decide +kernel

/-- R95: an illegal command, in one step from its issue (X-1 with CRC = 0x1234). -/
theorem test_illegal : (stepped ({ State.reset with crc := 0x1234#16 }.withFetchWord 32 0)).map results =
    some [0x730#32, 0x1234#32, 0#32, 0#32, 0#32, 0#32] := by decide +kernel

/-- R116's example, the CMD word 0x00000102, placed and run as the first command after reset. -/
theorem test_step_runs : (stepped (State.reset.withFetchWord 32 0x00000102)).map (fun t => (t.est, t.crc)) =
    some (.idle, 0x807E#16) := by decide +kernel

/-! ## Bus and reset vectors (95_test_vectors.md 2.7) -/

/-- B-01. -/
theorem test_bus_reset :
    [Reg.status, .crc, .slave, .rxlen].map (fun r => (State.reset.busRead r.paddr).1) =
      [0#32, 0xFFFF#32, 0#32, 0#32] := by decide +kernel

/-- B-02, B-03 and B-04. -/
theorem test_bus_widths :
    ((State.reset.busWrite 2#10 0x12345678#32).busRead 2#10).1 = 0x5678#32 ∧
      ((State.reset.busWrite 8#10 0xFFFFFFFF#32).busRead 8#10).1 = 0x1FF#32 ∧
      State.reset.busWrite 11#10 0x55#32 = State.reset := by decide +kernel

/-- B-05: CMD, 0x03C and 0xC00 read 0. -/
theorem test_bus_reserved :
    [0#10, 15#10, 768#10].map (fun a => (State.reset.busRead a).1) = [0#32, 0#32, 0#32] ∧
      State.reset.busWrite 15#10 1#32 = State.reset := by decide +kernel

/-- B-07, B-10 and B-11. -/
theorem test_bus_busy :
    (inFlight 1#8 0#8 []).busWrite 3#10 5#32 = { inFlight 1#8 0#8 [] with ovr := true } ∧
      { State.reset with ovr := true }.busWrite 1#10 0#32 = { State.reset with ovr := true } ∧
      { State.reset with ovr := true }.busWrite 1#10 0xFFFFFFFF#32 = State.reset := by decide +kernel

/-- B-12. -/
theorem test_bus_buffer : ((State.reset.busWrite 256#10 0x1FF#32).busRead 256#10).1 = 0xFF#32 := by decide +kernel

/-- B-13. -/
theorem test_reset_abandons : (stepped (inFlight 1#8 0#8 [.rst false])).map results =
    some [0#32, 0xFFFF#32, 0#32, 0#32, 0#32, 0#32] := by decide +kernel

/-- R208: a read at the completion edge sees BUSY = 1, and the command completes at that edge. -/
theorem test_read_at_completion :
    (stepped { inFlight 1#8 0#8 [.edge (some (.read 1#10))] with latency := 1 }).map (fun t => (t.prdata, t.est)) =
      some (some 1#32, .idle) := by decide +kernel

/-! ## Witnesses: states and operands that meet the hypotheses of the statements, at boundary values -/

theorem witness_DecodeOfEncodeIsTheCommand : (Instr.crcByte 0xFF#8).WellFormed = true ∧ Instr.decode.WellFormed = true := by
  decide

/-- One word for each command and one for an opcode that is none. -/
theorem witness_command_words :
    [0x01#32, 0x02#32, 0x03#32, 0x04#32, 0x05#32, 0x10#32, 0x11#32, 0x12#32, 0x13#32, 0x14#32, 0x20#32].map
      (fun w => (w.extractLsb' 0 8).toNat) = [0x01, 0x02, 0x03, 0x04, 0x05, 0x10, 0x11, 0x12, 0x13, 0x14, 0x20] := by decide

theorem witness_IgnoredFieldsDoNotChangeTheCommand :
    (0xFFFF0001#32).extractLsb' 0 8 = (0x0000AB01#32).extractLsb' 0 8 ∧
      (0xFFFF5502#32).extractLsb' 0 8 = (0x00005502#32).extractLsb' 0 8 ∧ (0xFFFF5502#32).extractLsb' 0 8 = 0x02#8 ∧
      (0xFFFF5502#32).extractLsb' 8 8 = (0x00005502#32).extractLsb' 8 8 := by decide

theorem witness_CrcRoundTripSensitivityAndResidue :
    15 < 8 * (([] : List Byte).length + 2) ∧ 0 < 8 * ([0x01#8].length + 2) ∧ 23 < 8 * ([0x01#8].length + 2) := by decide

theorem witness_CrcTxComputesOverTheTxBuffer :
    { State.reset with txlen := 256#9 }.txlen.toNat ≤ 256 ∧ 256 < { State.reset with txlen := 257#9 }.txlen.toNat := by decide

theorem witness_CrcRxComputesOverTheRxBuffer :
    { State.reset with rxlen := 256#9 }.rxlen.toNat ≤ 256 ∧ 256 < { State.reset with rxlen := 257#9 }.rxlen.toNat := by decide

theorem witness_VerifyRxReportsVerify :
    (2 ≤ { State.reset with rxlen := 2#9 }.rxlen.toNat ∧ { State.reset with rxlen := 2#9 }.rxlen.toNat ≤ 256) ∧
      (2 ≤ { State.reset with rxlen := 256#9 }.rxlen.toNat ∧ { State.reset with rxlen := 256#9 }.rxlen.toNat ≤ 256) ∧
      { State.reset with rxlen := 1#9 }.rxlen.toNat < 2 ∧ 256 < { State.reset with rxlen := 257#9 }.rxlen.toNat := by decide

theorem witness_EncRawFramesThePayload :
    (let s := { State.reset with slave := 247#8, func := 0x7F#8, plen := 252#9 }
     s.slave.toNat ≤ 247 ∧ s.func.getLsbD 7 = false ∧ s.plen.toNat ≤ 252) ∧
      247 < { State.reset with slave := 248#8 }.slave.toNat ∧ { State.reset with func := 0x80#8 }.func.getLsbD 7 = true ∧
      252 < { State.reset with plen := 253#9 }.plen.toNat := by decide

theorem witness_ReadEncodersFrameAddressAndQuantity :
    ((Instr.encRhr = .encRhr ∧ (0x03#8 : Byte) = 0x03#8) ∧ (Instr.encRir = .encRir ∧ (0x04#8 : Byte) = 0x04#8)) ∧
      (let s := request 247#8 0xFF83#16 125#16
       s.slave.toNat ≤ 247 ∧ 1 ≤ s.qty.toNat ∧ s.qty.toNat ≤ 125 ∧ s.addr.toNat + s.qty.toNat ≤ 0x10000) ∧
      (let s := request 0#8 0xFFFF#16 1#16
       s.slave.toNat ≤ 247 ∧ 1 ≤ s.qty.toNat ∧ s.qty.toNat ≤ 125 ∧ s.addr.toNat + s.qty.toNat ≤ 0x10000) := by decide

theorem witness_EncWsrFramesAddressAndValue : (request 247#8 0xFFFF#16 0#16).slave.toNat ≤ 247 := by decide

theorem witness_EncWmrFramesTheValues :
    let s := request 247#8 0xFF85#16 123#16
    s.slave.toNat ≤ 247 ∧ 1 ≤ s.qty.toNat ∧ s.qty.toNat ≤ 123 ∧ s.addr.toNat + s.qty.toNat ≤ 0x10000 := by decide

/-- The failing arguments of the packing encoders, each by one. -/
theorem witness_encoder_argument_failures :
    247 < (request 248#8 0#16 1#16).slave.toNat ∧ (request 1#8 0#16 0#16).qty.toNat = 0 ∧
      125 < (request 1#8 0#16 126#16).qty.toNat ∧ 123 < (request 1#8 0#16 124#16).qty.toNat ∧
      0x10000 < (request 1#8 0xFFFF#16 2#16).addr.toNat + (request 1#8 0xFFFF#16 2#16).qty.toNat := by decide

/-- Every encoder succeeds on one small request; the statements about what follows a success have this witness. -/
theorem witness_EncodedFramesVerify :
    [Instr.encRaw, .encRhr, .encRir, .encWsr, .encWmr].map
      (fun i => (after i { request 1#8 0#16 1#16 with func := 3#8, tx := [(7, 0#8), (8, 0#8)] }).map State.kind) =
      [some .ok, some .ok, some .ok, some .ok, some .ok] := by decide +kernel

theorem witness_DecodeAfterEncodeIsTooShort : ∃ t, exec .encRhr (request 1#8 0#16 5#16) = .next t ∧ t.kind = .ok :=
  ⟨_, rfl, rfl⟩

theorem witness_DecodeRejectsInvalidOperands :
    247 < (received 248#8 0x03#8 0#16 []).slave.toNat ∧ (received 1#8 0x83#8 0#16 []).func.getLsbD 7 = true ∧
      256 < { received 1#8 0x03#8 0#16 [] with rxlen := 257#9 }.rxlen.toNat := by decide

/-- D-04. -/
theorem witness_DecodeRejectsShortFrames :
    let s := received 1#8 0x03#8 1#16 [0x01#8, 0x03#8, 0x00#8]
    s.slave.toNat ≤ 247 ∧ s.func.getLsbD 7 = false ∧ s.rxlen.toNat < 4 ∧ { s with rxlen := 4#9 }.rxlen.toNat = 4 := by decide

/-- The premises shared by the statements about a frame of at least 4 bytes. -/
def examinable (s : State) : Bool :=
  decide (s.slave.toNat ≤ 247) && !s.func.getLsbD 7 && decide (4 ≤ s.rxlen.toNat) && decide (s.rxlen.toNat ≤ 256)

theorem examinable_iff (s : State) : examinable s = true ↔
    s.slave.toNat ≤ 247 ∧ s.func.getLsbD 7 = false ∧ 4 ≤ s.rxlen.toNat ∧ s.rxlen.toNat ≤ 256 := by
  simp [examinable, and_assoc]

/-- D-21 with its last byte changed. -/
theorem witness_DecodeRejectsBadChecksums :
    let s := received 247#8 0x7F#8 0#16 [0x01#8, 0x07#8, 0x41#8, 0xE3#8]
    examinable s = true ∧ verify (s.rxBytes 0 s.rxlen.toNat) = false := by decide +kernel

/-- D-21 for another slave, 0 among them. -/
theorem witness_DecodeRejectsOtherSlaves :
    let s := received 0#8 0x07#8 0#16 [0x01#8, 0x07#8, 0x41#8, 0xE2#8]
    examinable s = true ∧ verify (s.rxBytes 0 s.rxlen.toNat) = true ∧ s.rxByte 0 ≠ s.slave := by decide +kernel

/-- D-09 for another function, D-09, D-03. -/
theorem witness_DecodeRoutesExceptionFrames :
    (let s := received 1#8 0x04#8 0#16 [0x01#8, 0x83#8, 0x41#8, 0x81#8]
     examinable s = true ∧ verify (s.rxBytes 0 s.rxlen.toNat) = true ∧ s.rxByte 0 = s.slave ∧
       (s.rxByte 1).getLsbD 7 = true ∧ s.rxByte 1 &&& 0x7F#8 ≠ s.func) ∧
      (let s := received 1#8 0x03#8 0#16 [0x01#8, 0x83#8, 0x41#8, 0x81#8]
       examinable s = true ∧ verify (s.rxBytes 0 s.rxlen.toNat) = true ∧ s.rxByte 0 = s.slave ∧
         (s.rxByte 1).getLsbD 7 = true ∧ s.rxByte 1 &&& 0x7F#8 = s.func ∧ s.rxlen.toNat = 4) ∧
      (let s := received 1#8 0x03#8 0#16 [0x01#8, 0x83#8, 0x02#8, 0xC0#8, 0xF1#8]
       examinable s = true ∧ verify (s.rxBytes 0 s.rxlen.toNat) = true ∧ s.rxByte 0 = s.slave ∧
         (s.rxByte 1).getLsbD 7 = true ∧ s.rxByte 1 &&& 0x7F#8 = s.func ∧ 4 < s.rxlen.toNat) := by decide +kernel

theorem witness_DecodeRejectsOtherFunctions :
    let s := received 1#8 0x03#8 0#16 [0x01#8, 0x07#8, 0x41#8, 0xE2#8]
    examinable s = true ∧ verify (s.rxBytes 0 s.rxlen.toNat) = true ∧ s.rxByte 0 = s.slave ∧
      (s.rxByte 1).getLsbD 7 = false ∧ s.rxByte 1 ≠ s.func := by decide +kernel

/-- The premises of the statement about a verified normal frame of the slave and function. -/
def answers (s : State) : Bool :=
  examinable s && verify (s.rxBytes 0 s.rxlen.toNat) && decide (s.rxByte 0 = s.slave) && decide (s.rxByte 1 = s.func)

/-- D-21; D-12, D-13, D-14, D-15; D-17, D-16. -/
theorem witness_DecodeChecksReadPayloads :
    answers (received 1#8 0x07#8 0#16 [0x01#8, 0x07#8, 0x41#8, 0xE2#8]) = true ∧
      (let s := received 1#8 0x03#8 1#16 [0x01#8, 0x03#8, 0x40#8, 0x21#8]
       answers s = true ∧ s.rxlen.toNat = 4) ∧
      (let s := received 1#8 0x03#8 1#16 [0x01#8, 0x03#8, 0x03#8, 0x00#8, 0x07#8, 0x00#8, 0x47#8, 0xBE#8]
       answers s = true ∧ (s.rxByte 2).toNat % 2 = 1) ∧
      (let s := received 1#8 0x03#8 2#16 [0x01#8, 0x03#8, 0x04#8, 0x00#8, 0x07#8, 0x19#8, 0x87#8]
       answers s = true ∧ (s.rxByte 2).toNat ≠ s.rxlen.toNat - 5) ∧
      (let s := received 1#8 0x03#8 2#16 [0x01#8, 0x03#8, 0x02#8, 0x00#8, 0x07#8, 0xF9#8, 0x86#8]
       answers s = true ∧ (s.rxByte 2).toNat / 2 ≠ s.qty.toNat) ∧
      (let s := received 1#8 0x03#8 0#16 [0x01#8, 0x03#8, 0x00#8, 0x20#8, 0xF0#8]
       answers s = true ∧ 5 ≤ s.rxlen.toNat ∧ (s.rxByte 2).toNat = s.rxlen.toNat - 5 ∧
         (s.rxByte 2).toNat = 2 * s.qty.toNat) ∧
      (let s := received 1#8 0x03#8 1#16 [0x01#8, 0x03#8, 0x02#8, 0x00#8, 0x07#8, 0xF9#8, 0x86#8]
       answers s = true ∧ 5 ≤ s.rxlen.toNat ∧ (s.rxByte 2).toNat = s.rxlen.toNat - 5 ∧
         (s.rxByte 2).toNat = 2 * s.qty.toNat) := by decide +kernel

/-- Two states that differ beyond RXLEN, in TX, in STATUS and in other registers. -/
theorem witness_DecodeReadsOnlyItsOperands :
    let s := received 1#8 0x03#8 1#16 [0x01#8, 0x03#8, 0x02#8]
    let s' := { s with kind := .failed, err := .tooShort, addr := 7#16, tx := [(0, 1#8)],
                       rx := Memory.writeFrom [] 0 [0x01#8, 0x03#8, 0x02#8, 0x55#8] }
    s ≠ s' ∧ s.slave = s'.slave ∧ s.func = s'.func ∧ s.qty = s'.qty ∧ s.rxlen = s'.rxlen ∧ s.crc = s'.crc ∧
      ∀ i, i < s.rxlen.toNat → s.rxByte i = s'.rxByte i := by decide +kernel

/-- D-03. -/
theorem witness_ExceptionReportsTheRequestedFunction :
    (after .decode (received 1#8 0x03#8 0#16 [0x01#8, 0x83#8, 0x02#8, 0xC0#8, 0xF1#8])).map State.kind = some .exception := by
  decide +kernel

/-- D-03 echoes FUNC, and a normal frame has no bit 7. -/
theorem witness_ReadingsDifferOnlyOnForeignExceptions :
    (let s := received 1#8 0x03#8 0#16 [0x01#8, 0x83#8]
     (s.rxByte 1).getLsbD 7 = true ∧ s.rxByte 1 &&& 0x7F#8 = s.func) ∧
      ((received 1#8 0x03#8 0#16 [0x01#8, 0x07#8]).rxByte 1).getLsbD 7 = false := by decide +kernel

/-- Scenario 1, and D-17 with no value at all. -/
theorem witness_ReadResponsesDecodeToTheirValues :
    (let vs : List Half := [1#16, 2#16, 3#16, 4#16, 5#16]
     let s := received 1#8 0x03#8 5#16 [0x01#8, 0x03#8, 0x0A#8, 0x00#8, 0x01#8, 0x00#8, 0x02#8, 0x00#8, 0x03#8, 0x00#8,
       0x04#8, 0x00#8, 0x05#8, 0xCF#8, 0x24#8]
     vs.length ≤ 125 ∧ s.slave.toNat ≤ 247 ∧ s.func = 0x03#8 ∧ s.qty.toNat = vs.length ∧
       s.rxlen.toNat = 5 + 2 * vs.length ∧ s.rxBytes 0 (5 + 2 * vs.length) = encodeRequest s.slave 0x03#8 (readPayload vs)) ∧
      (let s := received 1#8 0x03#8 0#16 [0x01#8, 0x03#8, 0x00#8, 0x20#8, 0xF0#8]
       s.qty.toNat = 0 ∧ s.rxlen.toNat = 5 ∧ s.rxBytes 0 5 = encodeRequest s.slave 0x03#8 (readPayload [])) := by
  decide +kernel

theorem witness_IllegalCommandsChangeOnlyStatus :
    ((inFlight 0x00#8 0xAB#8 []).est = .busy 0x00#8 0xAB#8 ∧ ∀ i : Instr, opcode i ≠ 0x00#8) ∧
      ((inFlight 0xFF#8 0#8 []).est = .busy 0xFF#8 0#8 ∧ ∀ i : Instr, opcode i ≠ 0xFF#8) ∧
      (State.reset.busy = false ∧ ∀ i : Instr, opcode i ≠ (0xFFFFFFFF#32).extractLsb' 0 8) ∧
      (inFlight 0x00#8 0#8 []).ovr = false :=
  ⟨⟨rfl, fun i => by cases i <;> simp [opcode]⟩, ⟨rfl, fun i => by cases i <;> simp [opcode]⟩,
   ⟨rfl, fun i => by cases i <;> simp [opcode]⟩, rfl⟩

/-- A failing encoder, and every other kind of command. -/
theorem witness_CommandsWriteOnlyTheirBufferBytes :
    (∃ t, exec .encRhr State.reset = .next t ∧ t.kind = .failed) ∧
      (∃ t, exec .encRaw State.reset = .next t ∧ t.kind = .ok) ∧
      (∃ t, exec .encRhr (request 1#8 0#16 5#16) = .next t ∧ t.kind = .ok) ∧
      (∃ t, exec .encWmr (request 1#8 0#16 1#16) = .next t ∧ t.kind = .ok) ∧ ∃ t, exec .crcTx State.reset = .next t :=
  ⟨⟨_, rfl, rfl⟩, ⟨_, rfl, rfl⟩, ⟨_, rfl, rfl⟩, ⟨_, rfl, rfl⟩, ⟨_, rfl⟩⟩

theorem witness_AddressMapSelectsRegistersWindowsAndReserved :
    (15 ≤ (15#10).toNat ∧ (15#10).toNat < 256) ∧ (15 ≤ (255#10).toNat ∧ (255#10).toNat < 256) ∧ 0 < 256 ∧ 255 < 256 ∧
      768 ≤ (768#10).toNat ∧ 768 ≤ (1023#10).toNat := by decide

theorem witness_IdleRegisterWriteReadsBack :
    State.reset.busy = false ∧ Reg.crc.access = .rw ∧ Reg.rxlen.access = .rw ∧ Reg.slave ≠ Reg.crc := by decide

theorem witness_IdleBufferWriteReadsBack : State.reset.busy = false ∧ 0 < 256 ∧ 255 < 256 ∧ 0 ≠ 255 := by decide

theorem witness_HostWritesObeyTheBusyRule :
    State.reset.busy = false ∧ (inFlight 1#8 0#8 []).busy = true ∧ (decodeAddr 0#10 = .reg .cmd ∧ Reg.cmd.access = .wo) ∧
      (decodeAddr 10#10 = .reg .rxlen ∧ Reg.rxlen.access = .rw) ∧ decodeAddr 256#10 = .tx 0 ∧ decodeAddr 511#10 = .tx 255 ∧
      decodeAddr 512#10 = .rx 0 ∧ decodeAddr 767#10 = .rx 255 ∧ (decodeAddr 14#10 = .reg .rcount ∧ Reg.rcount.access = .ro) ∧
      decodeAddr 15#10 = .reserved ∧ decodeAddr 768#10 = .reserved ∧ decodeAddr 1#10 = .reg .status := by decide

theorem witness_BusyReadsAreExactOrFree :
    let s := inFlight 1#8 0#8 []
    let s' := { inFlight 0x20#8 0#8 [] with crc := 0#16 }
    s.busy = true ∧ s'.busy = true ∧ s.draws = s'.draws ∧ decodeAddr 1#10 = .reg .status ∧ decodeAddr 0#10 = .reg .cmd ∧
      decodeAddr 15#10 = .reserved ∧ (decodeAddr 2#10 = .reg .crc ∧ Reg.crc ≠ .status ∧ Reg.crc ≠ .cmd) ∧
      decodeAddr 511#10 = .tx 255 ∧ decodeAddr 512#10 = .rx 0 := by decide

theorem witness_ReadsHaveNoSideEffect : State.reset.busy = false := by decide

theorem witness_ResetValuesOfTheRegisters : Reg.cmd ≠ .crc ∧ Reg.rcount ≠ .crc := by decide

theorem witness_CmdWriteIssuesTheCommand : State.reset.busy = false ∧ Reg.crc ≠ .status := by decide

/-- A step without a completion, one that completes a command, one that completes an illegal command; words of one byte, and
of four. -/
theorem witness_StepRunsTheDecodedCommand :
    State.reset.completionDue = false ∧
      ((State.reset.withFetchWord 32 0x20).completionDue = true ∧
        (State.reset.withFetchWord 32 0x20).est = .busy 0x20#8 0#8 ∧ decodeOp 0x20#8 0#8 = .command .decode) ∧
      ((State.reset.withFetchWord 32 0).completionDue = true ∧ (State.reset.withFetchWord 32 0).est = .busy 0#8 0#8 ∧
        decodeOp 0#8 0#8 = .illegal 0#8) ∧
      decodeTableWord 8 0x20 = some .decode ∧ decodeTableWord 32 0xFF02 = some (.crcByte 0xFF#8) := by decide

theorem witness_BusTransactionsTakeEffectAtTheirEdge :
    (let s := { State.reset with inputs := [.edge (some (.read 2#10))] }
     s.running = true ∧ s.completionDue = false ∧ s.inputs = .edge (some (.read 2#10)) :: []) ∧
      (let s := inFlight 1#8 0#8 [.edge (some (.write 767#10 0xFF#32))]
       s.running = true ∧ s.completionDue = false ∧ s.inputs = .edge (some (.write 767#10 0xFF#32)) :: []) := by decide

theorem witness_EdgesInFlightKeepTheBlock :
    let s := inFlight 1#8 0#8 [.edge (some (.write 3#10 5#32))]
    s.running = true ∧ s.comingEdge = true ∧ s.busy = true := by decide

/-- A state that meets the invariant, with a command in flight, whatever OVR is and whatever is to come. -/
theorem witness_inv (op imm : Byte) (o : Bool) (l : List Input) : Inv { inFlight op imm l with ovr := o } where
  tx_wf := rfl
  rx_wf := rfl
  status := ⟨by simp [inFlight, State.reset], by simp [inFlight, State.reset], by simp [inFlight, State.reset],
    by simp [inFlight, State.reset]⟩
  results := ⟨by simp [inFlight, State.reset], by simp [inFlight, State.reset], by simp [inFlight, State.reset]⟩
  held := fun h => absurd h (by simp [State.running, inFlight, State.reset])
  live_rstN := fun _ => rfl
  latency_pos := fun _ => by simp [inFlight]
  seed_lt := by simp [inFlight, State.reset]

theorem witness_EveryStepKeepsTheInvariant :
    ∃ s t : State, Inv s ∧ step s = .next t ∧ t.est = s.est ∧ t.latency ≠ s.latency :=
  ⟨_, _, witness_inv 1#8 0#8 false [], rfl, rfl, by decide⟩

theorem witness_CommandResultIsFixedAtIssue :
    ∃ s u : State, s.running = true ∧ s.busy = true ∧ NoReset s ∧ completePending s = .next u :=
  ⟨inFlight 1#8 0#8 [.edge (some (.write 3#10 5#32))], _, rfl, rfl, by intro lv h; simp [inFlight] at h, rfl⟩

theorem witness_EveryCommandCompletes :
    (inFlight 1#8 0#8 []).running = true ∧ (inFlight 1#8 0#8 []).busy = true ∧ NoReset (inFlight 1#8 0#8 []) ∧
      1 < max 1 (inFlight 1#8 0#8 []).latency := ⟨rfl, rfl, by intro lv h; simp [inFlight] at h, by decide⟩

theorem witness_PollReadsStatusUntilIdle :
    ({ State.reset with inputs := [.poll] }.running = true ∧ { State.reset with inputs := [.poll] }.busy = false) ∧
      (inFlight 1#8 0#8 [.poll]).running = true ∧ (inFlight 1#8 0#8 [.poll]).busy = true := by decide

/-- OVR falls by a STATUS write and by reset, and rises by a dropped write. -/
theorem witness_OvrIsSticky :
    (∃ s t : State, Inv s ∧ step s = .next t ∧ s.ovr = true ∧ t.ovr = false ∧
      s.comingTxn = some (.write Reg.status.paddr 2#32)) ∧
    (∃ s t : State, Inv s ∧ step s = .next t ∧ s.ovr = true ∧ t.ovr = false ∧ s.inputs = [.rst false]) ∧
    (∃ s t : State, Inv s ∧ step s = .next t ∧ s.ovr = false ∧ t.ovr = true ∧ s.comingTxn = some (.write 767#10 5#32)) :=
  ⟨⟨_, _, witness_inv 1#8 0#8 true [.edge (some (.write 1#10 2#32))], rfl, rfl, rfl, rfl⟩,
   ⟨_, _, witness_inv 1#8 0#8 true [.rst false], rfl, rfl, rfl, rfl⟩,
   ⟨_, _, witness_inv 1#8 0#8 false [.edge (some (.write 767#10 5#32))], rfl, rfl, rfl, rfl⟩⟩

theorem witness_OperandRegistersChangeOnlyByHostWrites :
    let s := { State.reset with inputs := [.edge (some (.write 3#10 5#32))] }
    s.running = true ∧ s.comingEdge = true ∧ ∃ t, step s = .next t ∧ t.regWord .slave ≠ s.regWord .slave :=
  ⟨rfl, rfl, _, rfl, by decide⟩

theorem witness_RxChangesOnlyByHostWrites :
    let s := { State.reset with rx := [(255, 0#8)], inputs := [.edge (some (.write 767#10 5#32))] }
    s.running = true ∧ s.comingEdge = true ∧ ∃ t, step s = .next t ∧ t.rxByte 255 ≠ s.rxByte 255 :=
  ⟨rfl, rfl, _, rfl, by decide⟩

/-- D-03, completed by a step. -/
theorem witness_ResultRegistersChangeOnlyByDecode :
    let s := received 1#8 0x03#8 0#16 [0x01#8, 0x83#8, 0x02#8, 0xC0#8, 0xF1#8]
    (s.withFetchWord 32 0x20).running = true ∧ (s.withFetchWord 32 0x20).comingEdge = true ∧
      (stepped (s.withFetchWord 32 0x20)).map (fun t => t.excode) = some 0x02#8 ∧ s.excode = 0#8 := by decide +kernel

theorem witness_HostLinesExpandToTransactions : ∀ b, Instr.crcInit ≠ .crcByte b := by intro b h; cases h

/-- The reset state with rst_n at a level, not yet sampled 1, and `l` to come. -/
def held (level : Bool) (l : List Input) : State := { State.reset with rstN := level, live := false, inputs := l }

/-- An edge with a read, a POLL, and nothing to come. -/
theorem witness_ResetAbandonsAndHolds :
    (inFlight 1#8 0#8 [.rst false]).inputs = .rst false :: [] ∧
      ((held false [.edge (some (.read 2#10))]).rstN = false ∧ (held false [.edge (some (.read 2#10))]).comingEdge = true ∧
        (held false [.edge (some (.read 2#10))]).comingTxn = some (.read 2#10)) ∧
      ((held false [.poll]).rstN = false ∧ (held false [.poll]).comingEdge = true ∧
        (held false [.poll]).comingTxn = some (.read 1#10)) ∧
      (held false []).rstN = false ∧ (held false []).comingEdge = true := by decide

/-- The release, and the edge after it with a read, a POLL, and nothing to come. -/
theorem witness_ReleaseTakesTheBlockOutOfReset :
    (held false [.rst true]).inputs = .rst true :: [] ∧
      ((held true [.edge (some (.read 2#10))]).rstN = true ∧ (held true [.edge (some (.read 2#10))]).live = false ∧
        (held true [.edge (some (.read 2#10))]).comingEdge = true ∧
        (held true [.edge (some (.read 2#10))]).comingTxn = some (.read 2#10)) ∧
      ((held true [.poll]).comingEdge = true ∧ (held true [.poll]).comingTxn = some (.read 1#10)) ∧
      (held true []).comingEdge = true := by decide

/-- A program that ends in a POLL, which is read once, with an idle edge after it. -/
theorem witness_EndedRunsHaveOneResult :
    ∃ t, Ended { State.reset with inputs := [.poll, .edge none] } t ∧ NoReset t :=
  ⟨{ State.reset with prdata := some 0#32, inputs := [.edge none] },
    ⟨0, _, rfl, rfl, rfl, rfl, ⟨0#32, rfl, rfl⟩, by simp [bringsTransaction]⟩, by intro level h; simp at h⟩

/-- R245: a program whose last transaction is the CMD write has not ended, nor one whose last read of STATUS has BUSY = 1. -/
theorem test_ended_needs_idle_read :
    (∀ t, ¬ EndingStep { State.reset with inputs := [.edge (some (.write 0#10 1#32))] } t) ∧
      ∀ t, ¬ EndingStep { inFlight 1#8 0#8 [.edge (some (.read 1#10))] with latency := 1 } t := by
  refine ⟨fun t h => ?_, fun t h => ?_⟩
  · have h1 := h.readsStatus
    revert h1
    decide
  · obtain ⟨hn, -, -, ⟨w, hw, h0⟩, -⟩ := h
    cases hn
    cases hw
    revert h0
    decide

end Sys2Proof.Tests
end

section
/-! SUPPORT. The state of the block (10_state.md): the bits of the STATUS word, and what a host write and a transaction change. -/

namespace Sys2Proof.Machine

/-! ## The STATUS word -/

/-- Bit `i` of the STATUS word, field by field from bit 0 up (10_state.md R26). -/
theorem State.getLsbD_statusWord (s : State) (i : Nat) :
    s.statusWord.getLsbD i =
      if i < 1 then (BitVec.ofBool s.busy).getLsbD i
      else if i < 2 then (BitVec.ofBool s.ovr).getLsbD (i - 1)
      else if i < 3 then (BitVec.ofBool s.crcok).getLsbD (i - 2)
      else if i < 4 then (BitVec.ofBool s.noresp).getLsbD (i - 3)
      else if i < 6 then s.kind.bits.getLsbD (i - 4)
      else if i < 8 then false
      else if i < 12 then s.err.code.getLsbD (i - 8)
      else false := by
  change BitVec.getLsbD (w := 20 + 4 + 2 + 2 + 1 + 1 + 1 + 1) (0#20 ++ s.err.code ++ 0#2 ++ s.kind.bits ++
    BitVec.ofBool s.noresp ++ BitVec.ofBool s.crcok ++ BitVec.ofBool s.ovr ++ BitVec.ofBool s.busy) i = _
  simp only [BitVec.getLsbD_append, BitVec.getLsbD_zero, Nat.sub_sub]
  grind

theorem State.statusWord_busy (s : State) : s.statusWord.getLsbD 0 = s.busy := by
  rw [State.getLsbD_statusWord]; simp

theorem State.statusWord_ovr (s : State) : s.statusWord.getLsbD 1 = s.ovr := by
  rw [State.getLsbD_statusWord]; simp

theorem State.statusWord_crcok (s : State) : s.statusWord.getLsbD 2 = s.crcok := by
  rw [State.getLsbD_statusWord]; simp

theorem State.statusWord_noresp (s : State) : s.statusWord.getLsbD 3 = s.noresp := by
  rw [State.getLsbD_statusWord]; simp

theorem State.busy_eq_decide (s : State) : s.busy = decide (s.est ≠ .idle) := by
  unfold State.busy; cases s.est <;> rfl

/-! ## The address map, read backwards -/

/-- Only a byte's own window word selects it in RX. -/
theorem decodeAddr_eq_rx {a : BitVec 10} {i : Nat} (h : decodeAddr a = .rx i) : a = rxPaddr i := by
  unfold decodeAddr at h
  split at h
  · split at h <;> cases h
  · split at h
    · cases h
    · split at h
      · simp only [Target.rx.injEq] at h
        exact BitVec.eq_of_toNat_eq (by rw [rxPaddr, BitVec.toNat_ofNat]; omega)
      · cases h

/-- What BUSY guards (20_memory.md R69): CMD, the RW registers and the buffer bytes. -/
theorem Target.dropsWhenBusy_iff (g : Target) :
    g.dropsWhenBusy = true ↔
      (∃ r : Reg, g = .reg r ∧ (r.access = .wo ∨ r.access = .rw)) ∨ ∃ i, g = .tx i ∨ g = .rx i := by
  cases g with
  | reg r => cases r <;> simp [Target.dropsWhenBusy, Reg.access]
  | tx i => simp [Target.dropsWhenBusy]
  | rx i => simp [Target.dropsWhenBusy]
  | reserved => simp [Target.dropsWhenBusy]

/-! ## What a write to a target changes -/

/-- A write to STATUS leaves every other register (10_state.md R28). -/
theorem State.regWord_writeStatus (s : State) (v : Word) {r : Reg} (h : r ≠ .status) :
    (s.writeStatus v).regWord r = s.regWord r := by
  unfold State.writeStatus
  split
  · cases r with
    | status => exact absurd rfl h
    | _ => rfl
  · rfl

/-- Issue leaves every register but STATUS (30_encoding.md R91). -/
theorem State.regWord_issue (s : State) (op imm : Byte) {r : Reg} (h : r ≠ .status) :
    (s.issue op imm).regWord r = s.regWord r := by
  cases r with
  | status => exact absurd rfl h
  | _ => rfl

/-- A RW register takes the low bits of the written word (20_memory.md R67). -/
theorem State.regWord_storeReg_same (s : State) (v : Word) {r : Reg} (h : r.access = .rw) :
    (s.storeReg v r).regWord r = (v.setWidth r.width).setWidth 32 := by
  cases r with
  | cmd | status | rfunc | excode | rplen | rcount => cases h
  | _ => rfl

/-- A write to a register leaves every other register, but for STATUS, which CMD and STATUS writes may change. -/
theorem State.regWord_storeReg_other (s : State) (v : Word) {q r : Reg} (hq : q ≠ r) (hr : r ≠ .status) :
    (s.storeReg v q).regWord r = s.regWord r := by
  cases q with
  | cmd => exact s.regWord_issue _ _ hr
  | status => exact s.regWord_writeStatus v hr
  | _ => cases r <;> simp [State.storeReg, State.regWord] at hq hr ⊢

/-- A write leaves every RW register but its target, which takes the low bits of the word. -/
theorem State.regWord_writeTarget (s : State) (v : Word) (g : Target) {r : Reg} (hr : r.access = .rw) :
    (s.writeTarget v g).regWord r = s.regWord r ∨
      g = .reg r ∧ (s.writeTarget v g).regWord r = (v.setWidth r.width).setWidth 32 := by
  cases g with
  | reg q =>
    by_cases hq : q = r
    · subst hq
      exact .inr ⟨rfl, s.regWord_storeReg_same v hr⟩
    · exact .inl (s.regWord_storeReg_other v hq (by rintro rfl; cases hr))
  | tx i => exact .inl rfl
  | rx i => exact .inl rfl
  | reserved => exact .inl rfl

/-- A write to a register changes no byte of RX. -/
theorem State.rxByte_storeReg (s : State) (v : Word) (r : Reg) (i : Nat) : (s.storeReg v r).rxByte i = s.rxByte i := by
  cases r with
  | status =>
    change (s.writeStatus v).rxByte i = _
    unfold State.writeStatus
    split <;> rfl
  | _ => rfl

/-- A write leaves every byte of RX but its target, which takes the low byte of the word. -/
theorem State.rxByte_writeTarget (s : State) (v : Word) (g : Target) (i : Nat) :
    (s.writeTarget v g).rxByte i = s.rxByte i ∨
      g = .rx i ∧ (s.writeTarget v g).rxByte i = v.setWidth 8 := by
  cases g with
  | reg r => exact .inl (s.rxByte_storeReg v r i)
  | tx j => exact .inl rfl
  | rx j =>
    change (s.writeRx j [v.setWidth 8]).rxByte i = _ ∨ Target.rx j = .rx i ∧ (s.writeRx j [v.setWidth 8]).rxByte i = _
    rw [State.rxByte_writeRx]
    by_cases h : j = i
    · subst h; exact .inr ⟨rfl, by simp⟩
    · exact .inl (if_neg (by simp; omega))
  | reserved => exact .inl rfl

/-- A write that is not dropped keeps OVR, or is the write to STATUS that clears it (10_state.md R28). -/
theorem State.ovr_writeTarget (s : State) (v : Word) (g : Target) :
    (s.writeTarget v g).ovr = s.ovr ∨
      g = .reg .status ∧ v.getLsbD 1 = true ∧ (s.writeTarget v g).ovr = false := by
  cases g with
  | reg r =>
    cases r with
    | status =>
      change (s.writeStatus v).ovr = s.ovr ∨ _ ∧ _ ∧ (s.writeStatus v).ovr = false
      by_cases h : v.getLsbD 1 = true
      · exact .inr ⟨rfl, h, by rw [State.writeStatus, if_pos h]⟩
      · exact .inl (by rw [State.writeStatus, if_neg h])
    | _ => exact .inl rfl
  | tx i => exact .inl rfl
  | rx i => exact .inl rfl
  | reserved => exact .inl rfl

/-- While idle, a write to CMD is the issue of its command (10_state.md R25). -/
theorem State.busWrite_cmd_of_idle {s : State} (h : s.busy = false) (w : Word) :
    s.busWrite Reg.cmd.paddr w = s.issue (opField w) (immField w) := by
  rw [State.busWrite_of_idle h, decodeAddr_paddr]; rfl

/-! ## What a transaction changes -/

/-- OVR after a transaction (10_state.md R28): as it was, cleared by a write to STATUS, or set by a write that BUSY drops. -/
theorem State.ovr_transact (s : State) (x : Option Txn) :
    (s.transact x).ovr = s.ovr ∨
    (∃ v, x = some (.write Reg.status.paddr v) ∧ v.getLsbD 1 = true ∧ (s.transact x).ovr = false) ∨
    (s.busy = true ∧ (∃ a v, x = some (.write a v) ∧ (decodeAddr a).dropsWhenBusy = true) ∧
      (s.transact x).ovr = true) := by
  cases x with
  | none => exact .inl rfl
  | some x =>
    cases x with
    | read a =>
      refine .inl (?_ : (s.busRead a).2.ovr = s.ovr)
      rcases State.busRead_state s a with h | ⟨-, h⟩ <;> rw [h]
    | write a v =>
      by_cases hd : (s.busy && (decodeAddr a).dropsWhenBusy) = true
      · obtain ⟨hb, hg⟩ := Bool.and_eq_true_iff.1 hd
        exact .inr (.inr ⟨hb, ⟨a, v, rfl, hg⟩, by rw [State.transact, State.busWrite, if_pos hd]; rfl⟩)
      have hw : s.transact (some (.write a v)) = { s.writeTarget v (decodeAddr a) with prdata := none } := by
        rw [State.transact, State.busWrite, if_neg hd]
      rw [hw]
      rcases s.ovr_writeTarget v (decodeAddr a) with h | ⟨ha, hv, h⟩
      · exact .inl h
      · exact .inr (.inl ⟨v, by rw [decodeAddr_eq_reg ha], hv, h⟩)

/-- While idle, a transaction is a write to its target, or it changes nothing but prdata. -/
theorem State.transact_of_idle {s : State} (hb : s.busy = false) (x : Option Txn) :
    (∃ a v, x = some (.write a v) ∧ s.transact x = { s.writeTarget v (decodeAddr a) with prdata := none }) ∨
      ∃ p, s.transact x = { s with prdata := p } := by
  cases x with
  | none => exact .inr ⟨none, rfl⟩
  | some x =>
    cases x with
    | read a => exact .inr ⟨_, by rw [State.transact, State.busRead_of_idle hb]⟩
    | write a v => exact .inl ⟨a, v, rfl, by rw [State.transact, State.busWrite_of_idle hb]⟩

end Sys2Proof.Machine
end

section
/-! SUPPORT. What a step at an edge out of reset does, and the parts of the invariant's preservation, one for each case of a
step. -/

namespace Sys2Proof.Safety

open Sys2Proof.Machine

/-! ## Edges out of reset -/

/-- What a step at an edge keeps while a command is in flight: only the completion of a DECODE changes the result
registers. -/
structure InFlightEdge (s t : State) : Prop where
  busy : s.busy = true
  operands : OperandsKept s t
  rx : RxKept s t
  results : ResultsKept s t ∨ s.completionDue = true ∧ ∃ imm, s.est = .busy 0x20#8 imm

/-- A step at an edge out of reset is the edge's transaction while idle, and an edge in flight otherwise. -/
theorem step_at_edge {s t : State} (hr : s.running = true) (he : s.comingEdge = true) (h : step s = .next t) :
    (s.busy = false ∧ ∃ l, t = { s.transact s.comingTxn with inputs := l }) ∨ InFlightEdge s t := by
  cases step_inversion h with
  | reset level rest hi _ => rw [State.comingEdge, hi] at he; cases he
  | held l _ hr' _ => rw [hr] at hr'; cases hr'
  | idle l _ _ hb ht => exact .inl ⟨hb, l, ht⟩
  | wait o d p l _ _ hb _ _ _ _ ht =>
    subst ht
    exact .inr ⟨hb, ⟨rfl, rfl, rfl, rfl, rfl⟩, fun _ => rfl, .inl ⟨rfl, rfl, rfl, rfl⟩⟩
  | complete o d p l u _ _ hb hl _ _ _ hu _ e hk =>
    subst hu
    obtain ⟨hops, -, hrx, -⟩ := e.frame
    refine .inr ⟨hb, ⟨hops.slave, hops.addr, hops.qty, hops.value, hops.plen⟩, hrx, ?_⟩
    rcases hk with k | k
    · exact .inl ⟨k.rfunc, k.excode, k.rplen, k.rcount⟩
    · exact .inr ⟨completionDue_iff.2 ⟨he, hr, hb, hl⟩, k⟩

/-- The operand registers, as the host sees them. -/
theorem OperandsKept.regWord {s t : State} (h : OperandsKept s t) {r : Reg}
    (hr : r = .slave ∨ r = .addr ∨ r = .qty ∨ r = .value ∨ r = .plen) : t.regWord r = s.regWord r := by
  obtain ⟨hslave, haddr, hqty, hvalue, hplen⟩ := h
  rcases hr with rfl | rfl | rfl | rfl | rfl <;> simp only [State.regWord, *]

/-! ## The invariant in reset -/

/-- Out of reset nothing is held. -/
theorem heldInReset_of_running {t : State} (h : t.running = true) : HeldInReset t := fun h' => by
  rw [h] at h'; cases h'

/-- A state whose registers and engine are at their reset values meets the invariant, whatever its buffers, pins and inputs
hold within their own part of it. -/
theorem inv_of_reset_registers {t : State}
    (h : t = { State.reset with
      tx := t.tx, rx := t.rx, rstN := t.rstN, live := t.live, prdata := t.prdata, inputs := t.inputs, draws := t.draws,
      seed := t.seed })
    (htx : Memory.wf t.tx = true) (hrx : Memory.wf t.rx = true) (hlive : t.live = true → t.rstN = true)
    (hseed : t.seed < t.draws) : Inv t := by
  refine ⟨htx, hrx, ?_, ?_, fun _ => ?_, hlive, ?_, hseed⟩ <;> rw [h]
  · exact ⟨by simp [State.reset], by simp [State.reset], nofun, nofun⟩
  · exact ⟨Nat.zero_le _, fun hn => absurd rfl hn, fun hn => absurd rfl hn⟩
  · exact ⟨rfl, fun _ => rfl⟩
  · intro hb; cases hb

/-- While the block is held in reset OVR is 0. -/
theorem Inv.ovr_eq_false_of_held {s : State} (h : Inv s) (hr : s.running = false) : s.ovr = false := by
  have hword : s.statusWord = State.reset.statusWord := (h.held hr).2 .status
  rw [← s.statusWord_ovr, hword, State.statusWord_ovr]; rfl

/-- Asserting rst_n keeps the invariant. -/
theorem inv_assertReset (s : State) (rest : List Input) : Inv { s.assertReset with inputs := rest } :=
  inv_of_reset_registers rfl rfl rfl (fun h => by cases h) (Nat.lt_succ_self s.draws)

/-- Releasing rst_n keeps the invariant: the block stays in reset where it was. -/
theorem Inv.releaseReset {s : State} (h : Inv s) (rest : List Input) : Inv { s.releaseReset with inputs := rest } where
  tx_wf := h.tx_wf
  rx_wf := h.rx_wf
  status := h.status.of_eq rfl rfl rfl rfl
  results := h.results.of_kept ⟨rfl, rfl, rfl, rfl⟩
  held := fun hr => by
    have hlive : s.live = false := hr
    exact h.held (by rw [State.running, hlive, Bool.and_false])
  live_rstN := fun _ => rfl
  latency_pos := h.latency_pos
  seed_lt := h.seed_lt

/-- An edge in reset keeps the invariant. -/
theorem Inv.heldEdge {s : State} (h : Inv s) (x : Option Txn) (l : List Input) :
    Inv { s.heldEdge x with inputs := l } :=
  inv_of_reset_registers rfl h.tx_wf h.rx_wf id h.seed_lt

/-! ## OVR -/

/-- OVR after a step: as it was, 0 after an assertion of rst_n, or what the edge's transaction makes of it. -/
theorem ovr_step_cases {s t : State} (h : Inv s) (hst : step s = .next t) :
    t.ovr = s.ovr ∨ (∃ rest, s.inputs = .rst false :: rest) ∧ t.ovr = false ∨
      t.ovr = (s.transact s.comingTxn).ovr := by
  cases step_inversion hst with
  | reset level rest hi ht =>
    subst ht
    cases level
    · exact .inr (.inl ⟨⟨rest, hi⟩, rfl⟩)
    · exact .inl rfl
  | held l _ hr ht => subst ht; exact .inl (h.ovr_eq_false_of_held hr).symm
  | idle l _ _ _ ht => subst ht; exact .inr (.inr rfl)
  | wait o d p l _ _ _ _ _ _ ho ht => subst ht; exact .inr (.inr ho)
  | complete o d p l u _ _ _ _ _ _ ho hu _ e _ => subst hu; exact .inr (.inr (e.frame.ovr.trans ho))

/-! ## The invariant out of reset -/

/-- Neither the read data nor what is to come is part of the invariant. -/
theorem Inv.withPort {s : State} (h : Inv s) (p : Option Word) (l : List Input) : Inv { s with prdata := p, inputs := l } where
  tx_wf := h.tx_wf
  rx_wf := h.rx_wf
  status := h.status.of_eq rfl rfl rfl rfl
  results := h.results.of_kept ⟨rfl, rfl, rfl, rfl⟩
  held := h.held
  live_rstN := h.live_rstN
  latency_pos := h.latency_pos
  seed_lt := h.seed_lt

/-- A host write while idle and out of reset keeps the invariant. -/
theorem Inv.busWrite {s : State} (h : Inv s) (hr : s.running = true) (hb : s.busy = false) (a : BitVec 10) (v : Word) :
    Inv (s.busWrite a v) := by
  have w := writeFrame_busWrite s a v
  obtain ⟨htx, hrx⟩ := wf_busWrite h.tx_wf h.rx_wf a v
  exact {
    tx_wf := htx
    rx_wf := hrx
    status := h.status.of_eq w.err w.kind w.crcok w.noresp
    results := h.results.of_kept w.results
    held := heldInReset_of_running (by rw [State.running, w.rstN, w.live]; exact hr)
    live_rstN := by rw [w.rstN, w.live]; exact h.live_rstN
    latency_pos := fun hb' => (latency_busWrite hb a v hb').2
    seed_lt := by rw [w.seed]; exact Nat.lt_of_lt_of_le h.seed_lt w.draws }

/-- A transaction while idle and out of reset keeps the invariant. -/
theorem Inv.transact {s : State} (h : Inv s) (hr : s.running = true) (hb : s.busy = false) (x : Option Txn)
    (l : List Input) : Inv { s.transact x with inputs := l } := by
  rcases State.transact_of_idle hb x with ⟨a, v, -, hx⟩ | ⟨p, hx⟩
  · rw [hx, ← State.busWrite_of_idle hb]
    exact (h.busWrite hr hb a v).withPort none l
  · rw [hx]
    exact h.withPort p l

/-- An edge in flight that leaves cycles to go keeps the invariant. -/
theorem Inv.edgeInFlight {s : State} (h : Inv s) (hr : s.running = true) (o : Bool) {d n : Nat} (p : Option Word) (l : List Input)
    (hd : s.draws ≤ d) (hn : 1 ≤ n) : Inv { s with ovr := o, draws := d, prdata := p, latency := n, inputs := l } where
  tx_wf := h.tx_wf
  rx_wf := h.rx_wf
  status := h.status.of_eq rfl rfl rfl rfl
  results := h.results.of_kept ⟨rfl, rfl, rfl, rfl⟩
  held := heldInReset_of_running hr
  live_rstN := h.live_rstN
  latency_pos := fun _ => hn
  seed_lt := Nat.lt_of_lt_of_le h.seed_lt hd

/-- A completion keeps the invariant, all but the count of cycles, which has run out before it. -/
theorem CommandEffect.inv {u t : State} (e : CommandEffect u t) (hr : u.running = true) (htx : Memory.wf u.tx = true)
    (hrx : Memory.wf u.rx = true) (hres : ResultsConsistent u) (hseed : u.seed < u.draws) : Inv t := by
  have p := e.frame.port
  have hrun : t.running = true := by rw [State.running, p.rstN, p.live]; exact hr
  exact {
    tx_wf := e.tx_wf htx
    rx_wf := by rw [e.rx]; exact hrx
    status := e.status
    results := e.results.elim hres.of_kept id
    held := heldInReset_of_running hrun
    live_rstN := fun _ => (Bool.and_eq_true_iff.1 hrun).1
    latency_pos := fun hb => by rw [State.busy, e.est] at hb; cases hb
    seed_lt := by rw [p.seed, p.draws]; exact hseed }

/-! ## Commands and flags -/

/-- Two completions that answer the same state, OVR apart. -/
def CompleteAlike (ovr : Bool) (r r' : Result) : Prop := ∃ t, r = .next t ∧ r' = .next { t with ovr := ovr }

/-- A check that both make splits both the same way. -/
theorem CompleteAlike.ite {ovr : Bool} {c : Prop} [Decidable c] {a b a' b' : Result} (ha : CompleteAlike ovr a a')
    (hb : CompleteAlike ovr b b') : CompleteAlike ovr (if c then a else b) (if c then a' else b') := by
  split
  · exact ha
  · exact hb

end Sys2Proof.Safety
end

section
/-! PROOFS. The statements about the state of the block. -/

namespace Sys2Proof.Safety

open Sys2Proof.Machine

/-- Settles O46: each case of a step keeps the invariant. -/
theorem everyStepKeepsTheInvariant : Obligations.EveryStepKeepsTheInvariant := by
  intro s t h hst
  cases step_inversion hst with
  | reset level rest _ ht =>
    subst ht
    cases level
    · exact inv_assertReset s rest
    · exact h.releaseReset rest
  | held l _ _ ht => subst ht; exact h.heldEdge s.comingTxn l
  | idle l _ hr hb ht => subst ht; exact h.transact hr hb s.comingTxn l
  | wait o d p l _ hr _ hl hd _ _ ht => subst ht; exact h.edgeInFlight hr o p l hd (by omega)
  | complete o d p l u _ hr _ _ hd _ _ hu _ e _ =>
    subst hu
    exact e.inv hr h.tx_wf h.rx_wf (h.results.of_kept ⟨rfl, rfl, rfl, rfl⟩) (Nat.lt_of_lt_of_le h.seed_lt hd)

/-- Settles O32: the checks of each command read no flag, and its last statements write every flag but OVR. -/
theorem noCommandReadsAFlag : Obligations.NoCommandReadsAFlag := by
  intro i s est ovr crcok noresp k e
  change CompleteAlike ovr (exec i s) _
  have leaf : ∀ t : State, CompleteAlike ovr (.next t) (.next { t with ovr := ovr }) := fun t => ⟨t, rfl, rfl⟩
  cases i with
  | crcInit => exact leaf _
  | crcByte b => exact leaf _
  | crcTx => exact .ite (leaf _) (leaf _)
  | crcRx => exact .ite (leaf _) (leaf _)
  | verifyRx => exact .ite (leaf _) (.ite (leaf _) (leaf _))
  | encRaw => exact .ite (leaf _) (leaf _)
  | encRhr => exact .ite (leaf _) (leaf _)
  | encRir => exact .ite (leaf _) (leaf _)
  | encWsr => exact .ite (leaf _) (leaf _)
  | encWmr => exact .ite (leaf _) (leaf _)
  | decode =>
    refine .ite (leaf _) (.ite (leaf _) (.ite (leaf _) (.ite (leaf _) (.ite ?exceptionPath ?normalPath))))
    case exceptionPath => exact .ite (leaf _) (.ite (leaf _) (leaf _))
    case normalPath => exact .ite (leaf _) (.ite (.ite (leaf _) (.ite (leaf _) (leaf _))) (leaf _))

/-- Settles O51: a step leaves OVR as it was, resets it, or makes of it what the edge's transaction does, which clears it by
a write to STATUS and sets it by a write that BUSY drops. -/
theorem ovrIsSticky : Obligations.OvrIsSticky := by
  intro s t h hst
  rcases ovr_step_cases h hst with ht | ⟨hreset, ht⟩ | ht
  · rw [ht]
    exact ⟨fun h1 h0 => by simp [h1] at h0, fun h0 h1 => by simp [h0] at h1⟩
  · exact ⟨fun _ _ => .inl hreset, fun _ h1 => by simp [ht] at h1⟩
  rw [ht]
  rcases s.ovr_transact s.comingTxn with hx | ⟨v, hx, hv, hclear⟩ | ⟨hb, ⟨a, v, hx, hdrop⟩, hset⟩
  · rw [hx]
    exact ⟨fun h1 h0 => by simp [h1] at h0, fun h0 h1 => by simp [h0] at h1⟩
  · exact ⟨fun _ _ => .inr ⟨v, hx, hv⟩, fun _ h1 => by simp [hclear] at h1⟩
  · exact ⟨fun _ h0 => by simp [hset] at h0, fun _ _ => ⟨hb, a, v, hx, (Target.dropsWhenBusy_iff _).1 hdrop⟩⟩

/-- Settles O52: in flight the operands are kept, and while idle only a write to the register changes it. -/
theorem operandRegistersChangeOnlyByHostWrites : Obligations.OperandRegistersChangeOnlyByHostWrites := by
  intro s t r hr hrun he hst hne
  have hrw : r.access = .rw := by rcases hr with rfl | rfl | rfl | rfl | rfl <;> rfl
  rcases step_at_edge hrun he hst with ⟨hb, l, rfl⟩ | e
  swap
  · exact absurd (e.operands.regWord hr) hne
  refine ⟨hb, ?_⟩
  rcases State.transact_of_idle hb s.comingTxn with ⟨a, v, hx, hw⟩ | ⟨p, hw⟩
  · rw [hw] at hne ⊢
    obtain h | ⟨ha, hval⟩ := s.regWord_writeTarget v (decodeAddr a) hrw
    · exact absurd h hne
    · exact ⟨v, by rw [hx, decodeAddr_eq_reg ha], hval⟩
  · rw [hw] at hne
    exact absurd rfl hne

/-- Settles O53: in flight RX is kept, and while idle only a write to the byte's window word changes it. -/
theorem rxChangesOnlyByHostWrites : Obligations.RxChangesOnlyByHostWrites := by
  intro s t i hrun he hst hne
  rcases step_at_edge hrun he hst with ⟨hb, l, rfl⟩ | e
  swap
  · exact absurd (e.rx i) hne
  rcases State.transact_of_idle hb s.comingTxn with ⟨a, v, hx, hw⟩ | ⟨p, hw⟩
  · rw [hw] at hne ⊢
    obtain h | ⟨ha, hval⟩ := s.rxByte_writeTarget v (decodeAddr a) i
    · exact absurd h hne
    · exact ⟨hb, decodeAddr_rx_lt ha, v, by rw [hx, decodeAddr_eq_rx ha], hval⟩
  · rw [hw] at hne
    exact absurd rfl hne

/-- Settles O54: no host write changes the result registers, and in flight only the completion of a DECODE does. -/
theorem resultRegistersChangeOnlyByDecode : Obligations.ResultRegistersChangeOnlyByDecode := by
  intro s t hrun he hst hne
  rcases step_at_edge hrun he hst with ⟨hb, l, rfl⟩ | e
  · refine absurd ?_ hne
    rcases State.transact_of_idle hb s.comingTxn with ⟨a, v, -, hw⟩ | ⟨p, hw⟩ <;> rw [hw]
    · have k := (writeFrame_busWrite s a v).results
      rw [State.busWrite_of_idle hb] at k
      exact ⟨k.rfunc, k.excode, k.rplen, k.rcount⟩
    · exact ⟨rfl, rfl, rfl, rfl⟩
  · exact e.results.resolve_left hne

/-- Settles O34: the bits of the STATUS word, field by field. -/
theorem statusWordHasItsFields : Obligations.StatusWordHasItsFields := by
  intro s
  refine ⟨s.statusWord_busy.trans s.busy_eq_decide, s.statusWord_ovr, s.statusWord_crcok, s.statusWord_noresp, ?_, ?_, ?_,
    ?_⟩
  all_goals
    refine BitVec.eq_of_getLsbD_eq fun i hi => ?_
    rw [BitVec.getLsbD_extractLsb', State.getLsbD_statusWord]
    grind

/-- Settles O41: the write is the issue of the command, which changes only the engine and the model's counters. -/
theorem cmdWriteIssuesTheCommand : Obligations.CmdWriteIssuesTheCommand := by
  intro s w hb
  rw [State.busWrite_cmd_of_idle hb]
  exact ⟨rfl, State.statusWord_busy _, Nat.le_add_left 1 _, fun _ hr => s.regWord_issue _ _ hr, rfl, rfl, rfl, rfl, rfl,
    fun _ => rfl, fun _ => rfl⟩

/-- Settles O47: the registers are at their reset values, and the buffers list nothing. -/
theorem resetMeetsTheInvariant : Obligations.ResetMeetsTheInvariant :=
  inv_of_reset_registers rfl wf_reset.1 wf_reset.2 id Nat.zero_lt_one

/-- Settles O55: each register's reset value, read off State.reset. -/
theorem resetValuesOfTheRegisters : Obligations.ResetValuesOfTheRegisters := by
  refine ⟨rfl, fun r hr => ?_, rfl, rfl, rfl⟩
  cases r with
  | crc => exact absurd rfl hr
  | _ => rfl

end Sys2Proof.Safety
end

section
/-! SUPPORT. The host bus (20_memory.md): what each transaction returns and leaves, target by target, and which bytes of TX a
command may write. -/

namespace Sys2Proof.Machine

/-! ## Buffer bytes just written -/

@[simp] theorem State.txByte_writeTx_same (s : State) (i : Nat) (b : Byte) : (s.writeTx i [b]).txByte i = b := by
  simp [State.txByte_writeTx]

@[simp] theorem State.rxByte_writeRx_same (s : State) (i : Nat) (b : Byte) : (s.writeRx i [b]).rxByte i = b := by
  simp [State.rxByte_writeRx]

theorem State.txByte_writeTx_other (s : State) {i j : Nat} (b : Byte) (h : j ≠ i) :
    (s.writeTx i [b]).txByte j = s.txByte j :=
  s.txByte_writeTx_outside (by simp only [List.length_singleton]; omega)

theorem State.rxByte_writeRx_other (s : State) {i j : Nat} (b : Byte) (h : j ≠ i) :
    (s.writeRx i [b]).rxByte j = s.rxByte j := by
  rw [State.rxByte_writeRx, if_neg (by simp only [List.length_singleton]; omega)]

/-! ## Writes to a register -/

/-- A RO register ignores a write (20_memory.md R68). -/
theorem State.storeReg_of_ro (s : State) (v : Word) {r : Reg} (h : r.access = .ro) : s.storeReg v r = s := by
  cases r with
  | rfunc | excode | rplen | rcount => rfl
  | _ => cases h

/-- A write to a RW register changes neither the engine nor STATUS. -/
theorem State.est_statusWord_storeReg (s : State) (v : Word) {r : Reg} (h : r.access = .rw) :
    (s.storeReg v r).est = s.est ∧ (s.storeReg v r).statusWord = s.statusWord := by
  cases r with
  | cmd | status => cases h
  | _ => exact ⟨rfl, rfl⟩

/-- A write to a register changes no byte of TX. -/
theorem State.txByte_storeReg (s : State) (v : Word) (r : Reg) (i : Nat) : (s.storeReg v r).txByte i = s.txByte i := by
  cases r with
  | status =>
    change (s.writeStatus v).txByte i = _
    unfold State.writeStatus
    split <;> rfl
  | _ => rfl

/-! ## Writes that BUSY guards, and those it does not (20_memory.md R69) -/

theorem Target.dropsWhenBusy_of_ro {r : Reg} (h : r.access = .ro) : (Target.reg r).dropsWhenBusy = false := by
  simp [Target.dropsWhenBusy, h]

/-- A write that BUSY does not guard is the same in flight as while idle. -/
theorem State.busWrite_of_unguarded (s : State) {a : BitVec 10} (v : Word) (h : (decodeAddr a).dropsWhenBusy = false) :
    s.busWrite a v = s.writeTarget v (decodeAddr a) := by
  rw [State.busWrite, h, Bool.and_false, if_neg Bool.false_ne_true]

/-- A write that BUSY guards is dropped in flight. -/
theorem State.busWrite_of_dropped {s : State} {a : BitVec 10} (v : Word) (hb : s.busy = true)
    (h : (decodeAddr a).dropsWhenBusy = true) : s.busWrite a v = s.overrun := by
  rw [State.busWrite, hb, h, Bool.and_true, if_pos rfl]

/-! ## Reads in flight (20_memory.md R70) -/

theorem Target.freeWidth_reg {r : Reg} (hs : r ≠ .status) (hc : r ≠ .cmd) :
    (Target.reg r).freeWidth = some r.width := by
  cases r with
  | status => exact absurd rfl hs
  | cmd => exact absurd rfl hc
  | _ => rfl

/-- A free read is the draw's value cut to the target's width: two blocks in flight that are at the same draw read the same
word, and it fits the width. -/
theorem State.busRead_free_word {s s' : State} (hb : s.busy = true) (hb' : s'.busy = true) (hd : s.draws = s'.draws)
    {a : BitVec 10} {w : Nat} (h : (decodeAddr a).freeWidth = some w) :
    (s.busRead a).1 = (s'.busRead a).1 ∧ (s.busRead a).1.toNat < 2 ^ w := by
  rw [State.busRead_of_free hb h, State.busRead_of_free hb' h]
  refine ⟨by rw [hd], ?_⟩
  rw [BitVec.toNat_setWidth]
  exact Nat.lt_of_le_of_lt (Nat.mod_le _ _) (BitVec.isLt _)

end Sys2Proof.Machine

namespace Sys2Proof.Safety

open Sys2Proof.Machine

/-! ## An edge's transaction as a step -/

/-- A step at an edge out of reset, without a completion, is the edge's transaction, the count of cycles apart. -/
theorem step_edge_of_not_due {s : State} {x : Option Txn} {rest : List Input} (hr : s.running = true)
    (hd : s.completionDue = false) (hi : s.inputs = .edge x :: rest) :
    ∃ n, step s = .next { s.transact x with latency := n, inputs := rest } := by
  obtain ⟨n, hn⟩ := runningEdge_eq_transact s x
  refine ⟨n, ?_⟩
  have hev : s.event = { s.clockEdge x with inputs := rest } := by simp only [State.event, hi]
  rw [step_of_not_due hd, hev, State.clockEdge, if_pos hr, hn]

/-- The number of the next draw and the port are no part of the block. -/
theorem sameBlock_of_port (s : State) (n d : Nat) (p : Option Word) (l : List Input) :
    SameBlock s { s with latency := n, draws := d, prdata := p, inputs := l } :=
  ⟨⟨rfl, rfl, rfl, rfl, rfl⟩, ⟨rfl, rfl, rfl, rfl⟩, ⟨rfl, rfl, rfl⟩, rfl, rfl, rfl, rfl, rfl, rfl, fun _ => rfl,
    fun _ => rfl⟩

/-- A read changes nothing but the number of the next draw, which does not fall (20_memory.md R76). -/
theorem busRead_state_eq (s : State) (a : BitVec 10) :
    (s.busRead a).2 = { s with draws := (s.busRead a).2.draws } ∧ s.draws ≤ (s.busRead a).2.draws := by
  rcases State.busRead_state s a with h | ⟨-, h⟩ <;> rw [h]
  · exact ⟨rfl, Nat.le_refl _⟩
  · exact ⟨rfl, Nat.le_succ _⟩

/-! ## The bytes of TX a command may write (20_memory.md R77) -/

/-- The indices of TX that a succeeding command may write: an encoder's header and its CRC. -/
def MayWriteTx (s : State) : Instr → Nat → Prop
  | .encRaw, j => j < 2 ∨ j = 2 + s.plen.toNat ∨ j = 3 + s.plen.toNat
  | .encRhr, j | .encRir, j | .encWsr, j => j < 8
  | .encWmr, j => j < 7 ∨ j = 7 + 2 * s.qty.toNat ∨ j = 8 + 2 * s.qty.toNat
  | .crcInit, _ | .crcByte _, _ | .crcTx, _ | .crcRx, _ | .verifyRx, _ | .decode, _ => False

/-- A completion that writes TX at the indices `P` only, and not at all where it fails. -/
def WritesTxWithin (P : Nat → Prop) (s : State) (r : Result) : Prop :=
  ∀ t, r = .next t → TxKeptOutside (fun j => t.kind ≠ .failed ∧ P j) s t

/-- A completion that leaves TX. -/
theorem WritesTxWithin.of_kept {P : Nat → Prop} {s t : State} (h : t.txByte = s.txByte) : WritesTxWithin P s (.next t) := by
  rintro _ ⟨⟩ j -
  rw [h]

/-- A check splits into its two outcomes. -/
theorem WritesTxWithin.ite {P : Nat → Prop} {s : State} {c : Prop} [Decidable c] {r r' : Result}
    (h : WritesTxWithin P s r) (h' : WritesTxWithin P s r') : WritesTxWithin P s (if c then r else r') := by
  split
  · exact h
  · exact h'

/-- Sealing `n` bytes behind a header writes the header and the two bytes of the CRC. -/
theorem WritesTxWithin.of_sealed {P : Nat → Prop} {s : State} {n : Nat} {hd : List Byte} {f : Byte}
    (hhd : ∀ j < hd.length, P j) (hlo : P n) (hhi : P (n + 1)) :
    WritesTxWithin P s (.next (sealed n ((s.beginCommand.writeTx 0 hd).setFunc f))) := by
  rintro _ ⟨⟩ j hj
  have hP : ¬ P j := fun hP => hj ⟨nofun, hP⟩
  have hout : ¬ (0 ≤ j ∧ j < 0 + hd.length) := fun h => hP (hhd j (by omega))
  rw [txByte_sealed _ _ (by rintro rfl; exact hP hlo) (by rintro rfl; exact hP hhi)]
  exact State.txByte_writeTx_outside s.beginCommand hout

/-- A request that is a packed header and its CRC takes the first eight bytes. -/
theorem WritesTxWithin.of_packSix {s : State} (f : Byte) (v : Half) :
    WritesTxWithin (· < 8) s (packSix f v s.beginCommand) :=
  .of_sealed (fun j hj => Nat.lt_of_lt_of_le hj (by simp [packedHeader, be16])) (by decide) (by decide)

/-- DECODE reads frames and writes none. -/
theorem WritesTxWithin.of_decodeWith {P : Nat → Prop} (m : Config.ExcFuncMatch) (s : State) :
    WritesTxWithin P s (decodeWith m s) := by
  rcases decodeWith_cases m s with
    ⟨e, -, h⟩ | ⟨-, -, ⟨-, h⟩ | ⟨-, ⟨e, -, h⟩ | ⟨-, -, -, h⟩ | ⟨-, -, -, -, h⟩ | ⟨-, -, h⟩⟩⟩
  all_goals
    rw [h]
    exact .of_kept rfl

/-- Every command writes TX within its bytes. -/
theorem writesTxWithin_exec (i : Instr) (s : State) : WritesTxWithin (MayWriteTx s i) s (exec i s) := by
  cases i with
  | crcInit => exact .of_kept rfl
  | crcByte b => exact .of_kept rfl
  | crcTx => exact .ite (.of_kept rfl) (.of_kept rfl)
  | crcRx => exact .ite (.of_kept rfl) (.of_kept rfl)
  | verifyRx => exact .ite (.of_kept rfl) (.ite (.of_kept rfl) (.of_kept rfl))
  | encRaw =>
    refine .ite (.of_kept rfl) (.of_sealed (f := s.func) (hd := [s.slave, s.func]) (fun j hj => .inl hj) (.inr (.inl rfl)) ?_)
    exact .inr (.inr (by omega))
  | encRhr => exact .ite (.of_kept rfl) (.of_packSix _ _)
  | encRir => exact .ite (.of_kept rfl) (.of_packSix _ _)
  | encWsr => exact .ite (.of_kept rfl) (.of_packSix _ _)
  | encWmr =>
    refine .ite (.of_kept rfl) (.of_sealed (fun j hj => .inl ?_) (.inr (.inl rfl)) (.inr (.inr (by omega))))
    simpa [packedHeader, be16] using hj
  | decode => exact .of_decodeWith _ s

/-- What a command that answered `t` did. -/
theorem commandEffect_of_exec {i : Instr} {s t : State} (h : exec i s = .next t) : CommandEffect s t := by
  obtain ⟨u, hu, e⟩ := exec_effect i s
  rw [hu] at h
  cases h
  exact e

end Sys2Proof.Safety
end

section
/-! PROOFS. The statements about the buffers and the host bus (20_memory.md). -/

namespace Sys2Proof.Safety

open Sys2Proof.Machine

/-- Settles O33: no command changes RX, and each writes TX within its own bytes and only where it succeeds. -/
theorem commandsWriteOnlyTheirBufferBytes : Obligations.CommandsWriteOnlyTheirBufferBytes := by
  intro i s t h
  have w : TxKeptOutside (fun j => t.kind ≠ .failed ∧ MayWriteTx s i j) s t := writesTxWithin_exec i s t h
  refine ⟨(commandEffect_of_exec h).frame.rx, fun hf j => w j fun hj => hj.1 hf, ?_, ?_, ?_, ?_⟩
  · rintro rfl j hj
    refine w j fun ⟨_, (hm : j < 2 ∨ j = 2 + s.plen.toNat ∨ j = 3 + s.plen.toNat)⟩ => hj ?_
    omega
  · rintro (rfl | rfl | rfl) j hj
    all_goals exact w j fun hm => hj hm.2
  · rintro rfl j hj
    exact w j fun hm => hj hm.2
  · intro hi j
    refine w j fun hm => ?_
    obtain ⟨-, hm⟩ := hm
    cases i with
    | encRaw | encRhr | encRir | encWsr | encWmr => simp at hi
    | _ => exact hm

/-- Settles O38: BUSY drops exactly the writes it guards; every other write is the write to its target. -/
theorem hostWritesObeyTheBusyRule : Obligations.HostWritesObeyTheBusyRule := by
  intro s a v
  refine ⟨fun ha => ?_, fun r ha hr => ?_, fun ha => ?_, fun hb => ⟨fun r ha hr => ?_, fun i ha => ?_⟩,
    fun hb => ⟨fun ha => ?_, fun r ha hr => ?_, fun i ha => ?_, fun i ha => ?_⟩⟩
  · rw [s.busWrite_of_unguarded v (by rw [ha]; rfl), ha]; rfl
  · rw [s.busWrite_of_unguarded v (by rw [ha]; exact Target.dropsWhenBusy_of_ro hr), ha]
    exact s.storeReg_of_ro v hr
  · rw [s.busWrite_of_unguarded v (by rw [ha]; rfl), ha]; rfl
  · exact State.busWrite_of_dropped v hb ((Target.dropsWhenBusy_iff _).2 (.inl ⟨r, ha, hr⟩))
  · exact State.busWrite_of_dropped v hb ((Target.dropsWhenBusy_iff _).2 (.inr ⟨i, ha⟩))
  all_goals rw [State.busWrite_of_idle hb, ha]
  · rfl
  · exact s.regWord_storeReg_same v hr
  · exact s.txByte_writeTx_same i _
  · exact s.rxByte_writeRx_same i _

/-- Settles O43: a step without a completion is the edge's transaction, which for a read leaves the block. -/
theorem busTransactionsTakeEffectAtTheirEdge : Obligations.BusTransactionsTakeEffectAtTheirEdge := by
  intro s rest hr hd
  refine ⟨fun a hi => ?_, fun a v hi => ?_⟩
  · obtain ⟨n, hst⟩ := step_edge_of_not_due hr hd hi
    have hread := (busRead_state_eq s a).1
    rw [State.transact, hread] at hst
    exact ⟨_, hst, rfl, sameBlock_of_port s _ _ _ _, rfl, rfl⟩
  · obtain ⟨n, hst⟩ := step_edge_of_not_due hr hd hi
    exact ⟨_, hst, rfl, fun _ => rfl, fun _ => rfl, fun _ => rfl, rfl⟩

/-- Settles O35: the address map, range by range. -/
theorem addressMapSelectsRegistersWindowsAndReserved : Obligations.AddressMapSelectsRegistersWindowsAndReserved :=
  ⟨decodeAddr_paddr, fun _ => decodeAddr_reserved_low, fun _ hi => ⟨decodeAddr_txPaddr hi, decodeAddr_rxPaddr hi⟩,
    fun _ => decodeAddr_reserved_high⟩

/-- Settles O36: while idle a read is the register's value, and a write to a RW register is the store of its low bits, which
leaves the block idle. -/
theorem idleRegisterWriteReadsBack : Obligations.IdleRegisterWriteReadsBack := by
  intro s r v hb
  refine ⟨by rw [State.busRead_of_idle hb, decodeAddr_paddr]; rfl, fun hr => ?_⟩
  have hw : s.busWrite r.paddr v = s.storeReg v r := by rw [State.busWrite_of_idle hb, decodeAddr_paddr]; rfl
  obtain ⟨hest, hstatus⟩ := s.est_statusWord_storeReg v hr
  have hidle : (s.storeReg v r).busy = false := by rw [State.busy, hest]; exact hb
  rw [hw]
  refine ⟨?_, fun q hq => ?_, hest, s.txByte_storeReg v r, s.rxByte_storeReg v r⟩
  · rw [State.busRead_of_idle hidle, decodeAddr_paddr]
    exact s.regWord_storeReg_same v hr
  · by_cases hs : q = .status
    · subst hs
      exact hstatus
    · exact s.regWord_storeReg_other v hq.symm hs

/-- Settles O37: while idle a window word is its byte, and a write to it is the write of one byte, which leaves the block
idle. -/
theorem idleBufferWriteReadsBack : Obligations.IdleBufferWriteReadsBack := by
  intro s i v hb hi
  have hread : ∀ {u : State} {a : BitVec 10} {g : Target}, u.busy = false → decodeAddr a = g →
      (u.busRead a).1 = u.readTarget g := fun hu ha => by rw [State.busRead_of_idle hu, ha]
  have htx : s.busWrite (txPaddr i) v = s.writeTx i [v.setWidth 8] := by
    rw [State.busWrite_of_idle hb, decodeAddr_txPaddr hi]; rfl
  have hrx : s.busWrite (rxPaddr i) v = s.writeRx i [v.setWidth 8] := by
    rw [State.busWrite_of_idle hb, decodeAddr_rxPaddr hi]; rfl
  rw [htx, hrx]
  refine ⟨hread hb (decodeAddr_txPaddr hi), hread hb (decodeAddr_rxPaddr hi), ?_,
    fun _ hj => s.txByte_writeTx_other _ hj, fun _ => rfl, fun _ => rfl, ?_,
    fun _ hj => s.rxByte_writeRx_other _ hj, fun _ => rfl, fun _ => rfl⟩
  · rw [hread (u := s.writeTx i _) hb (decodeAddr_txPaddr hi), State.readTarget, State.txByte_writeTx_same]
  · rw [hread (u := s.writeRx i _) hb (decodeAddr_rxPaddr hi), State.readTarget, State.rxByte_writeRx_same]

/-- Settles O39: STATUS, CMD and reserved addresses have no free width, and every other target reads the draw's value. -/
theorem busyReadsAreExactOrFree : Obligations.BusyReadsAreExactOrFree := by
  intro s s' a hb hb' hd
  refine ⟨fun ha => ?_, fun ha => ?_, fun r ha hs hc => ?_, fun i ha => ?_⟩
  · rw [State.busRead_of_exact (by rw [ha]; rfl), ha]; rfl
  · rcases ha with ha | ha
    all_goals rw [State.busRead_of_exact (by rw [ha]; rfl), ha]; rfl
  · exact State.busRead_free_word hb hb' hd (by rw [ha]; exact Target.freeWidth_reg hs hc)
  · exact State.busRead_free_word (w := 8) hb hb' hd (by rcases ha with ha | ha <;> rw [ha] <;> rfl)

/-- Settles O40: a read changes nothing but the number of the next draw, and while idle not even that. -/
theorem readsHaveNoSideEffect : Obligations.ReadsHaveNoSideEffect := by
  intro s a
  obtain ⟨hstate, hdraws⟩ := busRead_state_eq s a
  exact ⟨hstate, fun hb => by rw [State.busRead_of_idle hb], hdraws⟩

end Sys2Proof.Safety
end

section
/-! SUPPORT. The command words (30_encoding.md): the opcode map read backwards, the word of a command without an immediate,
the assigned opcodes, and the loads of host programs. -/

namespace Sys2Proof

/-! ## The opcode map -/

/-- Every opcode of the table decodes to a command, whatever the immediate. -/
theorem decodeOp_opcode_is_command (i : Instr) (imm : Byte) : ∃ j, decodeOp (opcode i) imm = .command j := by
  cases i <;> exact ⟨_, rfl⟩

/-- A pair decodes to a command exactly where it is the command's opcode, and CRC_BYTE's immediate (R92, R100). -/
theorem decodeOp_eq_command_iff {op imm : Byte} {i : Instr} :
    decodeOp op imm = .command i ↔ op = opcode i ∧ ∀ b, i = .crcByte b → imm = b := by
  constructor
  · intro h
    rcases decodeOp_cases op imm with h' | ⟨j, rfl, h'⟩
    · rw [h'] at h; cases h
    obtain rfl : j = i := by rw [h'] at h; cases h; rfl
    refine ⟨rfl, ?_⟩
    rintro b rfl
    have hb : decodeOp 0x02#8 imm = .command (.crcByte b) := h
    cases hb
    rfl
  · rintro ⟨rfl, himm⟩
    cases i with
    | crcByte b => rw [himm b rfl]; rfl
    | _ => rfl

/-- A pair decodes to ILLEGAL of its own opcode, exactly where no command has that opcode (R95, R100). -/
theorem decodeOp_eq_illegal_iff {op imm o : Byte} : decodeOp op imm = .illegal o ↔ op = o ∧ ∀ i, opcode i ≠ o := by
  constructor
  · intro h
    rcases decodeOp_cases op imm with h' | ⟨j, -, h'⟩
    · obtain rfl : op = o := by rw [h'] at h; cases h; rfl
      refine ⟨rfl, ?_⟩
      rintro i rfl
      obtain ⟨j, hj⟩ := decodeOp_opcode_is_command i imm
      rw [hj] at h; cases h
    · rw [h'] at h; cases h
  · rintro ⟨rfl, hno⟩
    rcases decodeOp_cases op imm with h | ⟨i, hi, -⟩
    · exact h
    · exact absurd hi (hno i)

/-- Only CRC_BYTE's opcode reads the immediate (R99). -/
theorem decodeOp_ignores_imm {op : Byte} (h : op ≠ 0x02#8) (imm imm' : Byte) : decodeOp op imm = decodeOp op imm' := by
  simp only [decodeOp, if_neg h]

/-- The assigned opcodes (R94, R95). -/
theorem exists_opcode_eq_iff (op : Byte) :
    (∃ i, opcode i = op) ↔ (1 ≤ op.toNat ∧ op.toNat ≤ 0x05) ∨ (0x10 ≤ op.toNat ∧ op.toNat ≤ 0x14) ∨ op.toNat = 0x20 := by
  constructor
  · rintro ⟨i, rfl⟩
    cases i <;> simp [opcode]
  · intro h
    by_contra hno
    have ne : ∀ i, (opcode i).toNat ≠ op.toNat := fun i e => hno ⟨i, BitVec.eq_of_toNat_eq e⟩
    have crc : _ ∧ _ ∧ _ ∧ _ ∧ _ := ⟨ne .crcInit, ne (.crcByte 0#8), ne .crcTx, ne .crcRx, ne .verifyRx⟩
    have enc : _ ∧ _ ∧ _ ∧ _ ∧ _ := ⟨ne .encRaw, ne .encRhr, ne .encRir, ne .encWsr, ne .encWmr⟩
    have dec := ne .decode
    simp only [opcode, BitVec.toNat_ofNat] at crc enc dec
    omega

/-! ## Words -/

/-- The word of a command decodes to it. -/
theorem decodeWord_encode (i : Instr) : decodeWord (encode i) = .command i := by
  obtain ⟨hop, himm, -⟩ := encode_fields i
  rw [decodeWord, hop, himm, decodeOp_opcode]

/-- The table-word decoder reads a command exactly where the word decodes to it. -/
theorem decodeTableWord_eq_some_iff {nbits w : Nat} {i : Instr} :
    decodeTableWord nbits w = some i ↔ decodeWord (BitVec.ofNat 32 (w % 2 ^ nbits)) = .command i := by
  unfold decodeTableWord
  cases decodeWord (BitVec.ofNat 32 (w % 2 ^ nbits)) <;> simp

/-- A command without an immediate is its opcode alone (R98, R99). -/
theorem encode_of_no_immediate {i : Instr} (h : ∀ b, i ≠ .crcByte b) : encode i = (opcode i).setWidth 32 := by
  cases i with
  | crcByte b => exact absurd rfl (h b)
  | _ => rfl

end Sys2Proof

namespace Sys2Proof.Machine

/-! ## Host programs -/

/-- A load of bytes is one write for each byte, to consecutive indices (R98). -/
theorem loadBytes_eq_flatMap (paddrOf : Nat → BitVec 10) (i : Nat) (bs : List Byte) :
    loadBytes paddrOf i bs = (bs.zipIdx i).flatMap fun p => [memWrite (paddrOf p.2) (p.1.setWidth 32)] := by
  induction bs generalizing i with
  | nil => rfl
  | cons b bs ih => rw [loadBytes, ih, List.zipIdx_cons, List.flatMap_cons]; rfl

end Sys2Proof.Machine
end

section
/-! PROOFS. The statements about command words and host programs (30_encoding.md). -/

namespace Sys2Proof.Safety

open Sys2Proof.Machine

/-- Settles O2: the fields of an encoded word are the command's opcode, its immediate and zeros, and the opcode map takes the
first two back. -/
theorem decodeOfEncodeIsTheCommand : Obligations.DecodeOfEncodeIsTheCommand := by
  intro i _
  obtain ⟨-, -, hreserved⟩ := encode_fields i
  refine ⟨decodeWord_encode i, by rw [cmdWordWellFormed, hreserved]; rfl, decodeTableWord_eq_some_iff.2 ?_⟩
  rw [Nat.mod_eq_of_lt (encode i).isLt, BitVec.ofNat_toNat, BitVec.setWidth_eq, decodeWord_encode]

/-- Settles O3: the opcode map read backwards, on the fields of the word. -/
theorem everyWordIsOneCommandOrIllegal : Obligations.EveryWordIsOneCommandOrIllegal :=
  fun _ => ⟨fun _ => decodeOp_eq_command_iff, fun _ => decodeOp_eq_illegal_iff⟩

/-- Settles O4: no field but OP, and for CRC_BYTE the immediate, reaches the opcode map's result. -/
theorem ignoredFieldsDoNotChangeTheCommand : Obligations.IgnoredFieldsDoNotChangeTheCommand := by
  refine ⟨fun w w' (hop : opField w = opField w') himm => ?_, rfl, rfl⟩
  change decodeOp (opField w) (immField w) = decodeOp (opField w') (immField w')
  rw [← hop]
  by_cases h : opField w = 0x02#8
  · exact congrArg _ (himm h)
  · exact decodeOp_ignores_imm h _ _

/-- Settles O1: each word's fields, looked up in the opcode map. -/
theorem specWordsDecodeToTheirCommands : Obligations.SpecWordsDecodeToTheirCommands := by
  unfold Obligations.SpecWordsDecodeToTheirCommands
  decide

/-- Settles O59: the expansion of each line, with a load byte by byte. -/
theorem hostLinesExpandToTransactions : Obligations.HostLinesExpandToTransactions := by
  refine ⟨fun _ _ => rfl, fun _ => rfl, fun _ _ => ⟨rfl, rfl⟩, fun _ => ⟨rfl, rfl⟩, fun _ => rfl, fun i hi => ?_,
    fun _ => rfl, fun i bs => ⟨loadBytes_eq_flatMap txPaddr i bs, loadBytes_eq_flatMap rxPaddr i bs⟩, fun _ => rfl⟩
  rw [Line.expand, encode_of_no_immediate hi]
  rfl

end Sys2Proof.Safety
end

section
/-! SUPPORT. The command in flight (30_encoding.md R91): what the edges before its completion leave, that its rule reads
nothing of what they may change, and its run to completion. -/

namespace Sys2Proof.Machine

/-- `s` after edges in flight: OVR, the free-value number, the read data, the count of cycles and what is to come may be
others, and nothing else is. -/
def State.withEdges (s : State) (o : Bool) (d : Nat) (p : Option Word) (n : Nat) (l : List Input) : State :=
  { s with ovr := o, draws := d, prdata := p, latency := n, inputs := l }

end Sys2Proof.Machine

namespace Sys2Proof.Safety

open Sys2Proof.Machine

/-! ## Edges in flight -/

/-- Edges in flight leave the block. -/
theorem sameBlock_withEdges (s : State) (o : Bool) (d : Nat) (p : Option Word) (n : Nat) (l : List Input) :
    SameBlock s (s.withEdges o d p n l) :=
  ⟨⟨rfl, rfl, rfl, rfl, rfl⟩, ⟨rfl, rfl, rfl, rfl⟩, ⟨rfl, rfl, rfl⟩, rfl, rfl, rfl, rfl, rfl, rfl, fun _ => rfl,
    fun _ => rfl⟩

/-- The event of an edge in flight brings the command one cycle nearer and nothing new to come. -/
theorem event_eq_withEdges {s : State} (he : s.comingEdge = true) (hr : s.running = true) (hb : s.busy = true) :
    ∃ o d p l, (∀ x ∈ l, x ∈ s.inputs) ∧ s.event = s.withEdges o d p (s.latency - 1) l := by
  obtain ⟨d, p, l, -, hl, hev⟩ := event_in_flight he hr hb
  exact ⟨_, d, p, l, hl, hev⟩

/-- With more than one cycle left no completion is due. -/
theorem completionDue_eq_false {s : State} (h : 1 < s.latency) : s.completionDue = false := by
  rw [State.completionDue, decide_eq_false (by omega), Bool.and_false]

/-- The event of a due completion leaves the command in flight. -/
theorem est_event_of_due {s : State} (h : s.completionDue = true) : s.event.est = s.est := by
  obtain ⟨he, hr, hb, -⟩ := completionDue_iff.1 h
  obtain ⟨o, d, p, l, -, hev⟩ := event_eq_withEdges he hr hb
  rw [hev]; rfl

theorem busy_event_of_due {s : State} (h : s.completionDue = true) : s.event.busy = true := by
  obtain ⟨-, -, hb, -⟩ := completionDue_iff.1 h
  rw [State.busy, est_event_of_due h]
  exact hb

/-- A completion leaves the read data and what is to come as the event has them. -/
theorem step_keeps_port_of_event (s : State) :
    ∃ t, step s = .next t ∧ t.prdata = s.event.prdata ∧ t.inputs = s.event.inputs := by
  cases hd : s.completionDue
  · exact ⟨_, step_of_not_due hd, rfl, rfl⟩
  · obtain ⟨t, ht, e, -⟩ := completePending_effect (busy_event_of_due hd)
    exact ⟨t, (step_of_due hd).trans ht, e.frame.port.prdata, e.frame.port.inputs⟩

/-! ## The completion reads nothing that edges in flight may change -/

/-- Two completions whose answers are the update `g` apart. -/
def AnswersThrough (g : State → State) (r r' : Result) : Prop := ∃ t, r = .next t ∧ r' = .next (g t)

/-- A check that both make splits both the same way. -/
theorem AnswersThrough.ite {g : State → State} {c : Prop} [Decidable c] {a b a' b' : Result} (ha : AnswersThrough g a a')
    (hb : AnswersThrough g b b') : AnswersThrough g (if c then a else b) (if c then a' else b') := by
  split
  · exact ha
  · exact hb

/-- No command reads OVR, the port or the model's counters, and none writes them. -/
theorem exec_withEdges (i : Instr) (s : State) (o : Bool) (d : Nat) (p : Option Word) (n : Nat) (l : List Input) :
    AnswersThrough (·.withEdges o d p n l) (exec i s) (exec i (s.withEdges o d p n l)) := by
  have leaf : ∀ t : State, AnswersThrough (·.withEdges o d p n l) (.next t) (.next (t.withEdges o d p n l)) :=
    fun t => ⟨t, rfl, rfl⟩
  cases i with
  | crcInit => exact leaf _
  | crcByte b => exact leaf _
  | crcTx => exact .ite (leaf _) (leaf _)
  | crcRx => exact .ite (leaf _) (leaf _)
  | verifyRx => exact .ite (leaf _) (.ite (leaf _) (leaf _))
  | encRaw => exact .ite (leaf _) (leaf _)
  | encRhr => exact .ite (leaf _) (leaf _)
  | encRir => exact .ite (leaf _) (leaf _)
  | encWsr => exact .ite (leaf _) (leaf _)
  | encWmr => exact .ite (leaf _) (leaf _)
  | decode =>
    refine .ite (leaf _) (.ite (leaf _) (.ite (leaf _) (.ite (leaf _) (.ite ?exceptionPath ?normalPath))))
    case exceptionPath => exact .ite (leaf _) (.ite (leaf _) (leaf _))
    case normalPath => exact .ite (leaf _) (.ite (.ite (leaf _) (.ite (leaf _) (leaf _))) (leaf _))

/-- The completion of whatever is in flight, on the state that edges leave, is its completion on the state before them. -/
theorem completePending_withEdges {s u : State} (h : completePending s = .next u) (hb : s.busy = true) (o : Bool) (d : Nat)
    (p : Option Word) (n : Nat) (l : List Input) :
    completePending (s.withEdges o d p n l) = .next (u.withEdges o d p n l) := by
  obtain ⟨op, imm, he⟩ := busy_iff.1 hb
  have he' : (s.withEdges o d p n l).est = .busy op imm := he
  rcases decodeOp_cases op imm with hd | ⟨i, -, hd⟩
  · rw [completePending_of_illegal he hd] at h
    rw [completePending_of_illegal he' hd]
    cases h
    rfl
  · rw [completePending_of_command he hd] at h
    rw [completePending_of_command he' hd]
    obtain ⟨t, ht, ht'⟩ := exec_withEdges i s o d p n l
    rw [ht] at h
    cases h
    exact ht'

/-! ## Runs -/

/-- The last step of a run. -/
theorem run_succ_last {s t : State} {k : Nat} (h : Host.Core.run Sys2Proof.core k s = .next t) :
    Host.Core.run Sys2Proof.core (k + 1) s = step t := by
  induction k generalizing s with
  | zero =>
    cases h
    obtain ⟨u, hu, -⟩ := step_cases t
    rw [run_succ hu, hu]; rfl
  | succ k ih =>
    obtain ⟨u, hu, -⟩ := step_cases s
    rw [run_succ hu] at h ⊢
    exact ih h

theorem NoReset.of_subset {s t : State} (h : NoReset s) (hs : ∀ x ∈ t.inputs, x ∈ s.inputs) : NoReset t :=
  fun lv hx => h lv (hs _ hx)

section
variable {s : State} (hr : s.running = true) (hb : s.busy = true) (hn : NoReset s)
include hr hb hn

/-- Before its last edge the command stays in flight, a cycle nearer to its completion at each step. -/
theorem run_before_completion {k : Nat} (hk : k < max 1 s.latency) :
    ∃ o d p l, (∀ x ∈ l, x ∈ s.inputs) ∧
      Host.Core.run Sys2Proof.core k s = .next (s.withEdges o d p (s.latency - k) l) := by
  induction k with
  | zero => exact ⟨s.ovr, s.draws, s.prdata, s.inputs, fun _ hx => hx, rfl⟩
  | succ k ih =>
    obtain ⟨o, d, p, l, hl, hrun⟩ := ih (by omega)
    have hn' : NoReset (s.withEdges o d p (s.latency - k) l) := hn.of_subset hl
    obtain ⟨o', d', p', l', hl', hev⟩ := event_eq_withEdges (comingEdge_of_noReset hn') hr hb
    have hd : (s.withEdges o d p (s.latency - k) l).completionDue = false :=
      completionDue_eq_false (show 1 < s.latency - k by omega)
    refine ⟨o', d', p', l', fun x hx => hl x (hl' x hx), ?_⟩
    rw [run_succ_last hrun, step_of_not_due hd, hev]
    rfl

/-- The run over the remaining edges ends in the completion, on the block as it was at issue. -/
theorem run_to_completion :
    ∃ o d p n l, Host.Core.run Sys2Proof.core (max 1 s.latency) s = completePending (s.withEdges o d p n l) := by
  obtain ⟨k, hk⟩ : ∃ k, max 1 s.latency = k + 1 := ⟨max 1 s.latency - 1, by omega⟩
  obtain ⟨o, d, p, l, hl, hrun⟩ := run_before_completion hr hb hn (k := k) (by omega)
  have hn' : NoReset (s.withEdges o d p (s.latency - k) l) := hn.of_subset hl
  have hlat : s.latency - k ≤ 1 := by omega
  have hd : (s.withEdges o d p (s.latency - k) l).completionDue = true :=
    completionDue_iff.2 ⟨comingEdge_of_noReset hn', hr, hb, hlat⟩
  obtain ⟨o', d', p', l', -, hev⟩ := event_eq_withEdges (comingEdge_of_noReset hn') hr hb
  refine ⟨o', d', p', s.latency - k - 1, l', ?_⟩
  rw [hk, run_succ_last hrun, step_of_due hd, hev]
  rfl

end

/-! ## POLL -/

/-- The event of a POLL out of reset reads the STATUS word before it, and keeps the POLL exactly where that word has BUSY = 1
(30_encoding.md R98). -/
theorem event_of_poll {s : State} {rest : List Input} (hr : s.running = true) (hi : s.inputs = .poll :: rest) :
    s.event.prdata = some s.statusWord ∧ s.event.inputs = if s.busy then .poll :: rest else rest := by
  have hread : s.busRead Reg.status.paddr = (s.statusWord, s) := by
    rw [State.busRead_of_exact] <;> rw [decodeAddr_paddr] <;> rfl
  obtain ⟨n, hn⟩ := runningEdge_eq_transact s (some (.read Reg.status.paddr))
  have hp : (s.clockEdge (some (.read Reg.status.paddr))).prdata = some s.statusWord := by
    rw [State.clockEdge, if_pos hr, hn, State.transact, hread]
  have hagain : (s.clockEdge (some (.read Reg.status.paddr))).pollsAgain = s.busy := by
    rw [State.pollsAgain, hp]
    exact s.statusWord_busy
  simp only [State.event, hi, hp, hagain, true_and]

/-! ## The STATUS word of a completed command -/

/-- With the engine idle, the STATUS word is the outcome and OVR (10_state.md R26). -/
theorem Finished.statusWord {t : State} {k : Kind} {e : Err} {c n : Bool} (h : Finished t k e c n) :
    t.statusWord = 0#20 ++ e.code ++ 0#2 ++ k.bits ++ BitVec.ofBool n ++ BitVec.ofBool c ++ BitVec.ofBool t.ovr ++ 0#1 := by
  obtain ⟨hest, hkind, herr, hcrcok, hnoresp⟩ := h
  have hb : t.busy = false := by rw [State.busy, hest]
  rw [State.statusWord, hb, hkind, herr, hcrcok, hnoresp]
  rfl

end Sys2Proof.Safety
end

section
/-! SUPPORT. What DECODE reads (42_decode.md R181): two states that agree on its operands and on the valid bytes of RX get
the same answers from each of its checks. -/

namespace Sys2Proof.Safety

open Sys2Proof.Machine

/-- The operands of DECODE agree: the registers it reads, the CRC it may leave, and RX below RXLEN. -/
structure DecodeOperandsAgree (s s' : State) : Prop where
  slave : s.slave = s'.slave
  func : s.func = s'.func
  qty : s.qty = s'.qty
  rxlen : s.rxlen = s'.rxlen
  crc : s.crc = s'.crc
  rx : ∀ i, i < s.rxlen.toNat → s.rxByte i = s'.rxByte i

/-- The registers DECODE answers in agree, the outcome apart. -/
structure DecodeResultsAgree (s s' : State) : Prop where
  crcok : s.crcok = s'.crcok
  crc : s.crc = s'.crc
  rfunc : s.rfunc = s'.rfunc
  excode : s.excode = s'.excode
  rplen : s.rplen = s'.rplen
  rcount : s.rcount = s'.rcount

/-- Two completions with the same outcome and results. -/
def DecodeAlike (r r' : Result) : Prop :=
  ∃ t t', r = .next t ∧ r' = .next t' ∧ t.kind = t'.kind ∧ t.err = t'.err ∧ DecodeResultsAgree t t'

namespace DecodeResultsAgree

variable {s s' : State} (h : DecodeResultsAgree s s')
include h

theorem setExcode {e e' : Byte} (he : e = e') : DecodeResultsAgree (s.setExcode e) (s'.setExcode e') :=
  ⟨h.crcok, h.crc, h.rfunc, he, h.rplen, h.rcount⟩

theorem setRcount {n n' : Byte} (hn : n = n') : DecodeResultsAgree (s.setRcount n) (s'.setRcount n') :=
  ⟨h.crcok, h.crc, h.rfunc, h.excode, h.rplen, hn⟩

theorem decodeAlike_raise (e : Err) : DecodeAlike (raise e s) (raise e s') :=
  ⟨_, _, rfl, rfl, rfl, rfl, h.crcok, h.crc, h.rfunc, h.excode, h.rplen, h.rcount⟩

theorem decodeAlike_complete (k : Kind) : DecodeAlike (complete k s) (complete k s') :=
  ⟨_, _, rfl, rfl, rfl, rfl, h.crcok, h.crc, h.rfunc, h.excode, h.rplen, h.rcount⟩

end DecodeResultsAgree

/-- Checks with one answer split both the same way. -/
theorem DecodeAlike.ite {c c' : Prop} [Decidable c] [Decidable c'] {a b a' b' : Result} (hc : c ↔ c')
    (ha : DecodeAlike a a') (hb : DecodeAlike b b') : DecodeAlike (if c then a else b) (if c' then a' else b') := by
  by_cases h : c
  · rwa [if_pos h, if_pos (hc.1 h)]
  · rwa [if_neg h, if_neg (mt hc.2 h)]

namespace DecodeOperandsAgree

variable {s s' : State} (h : DecodeOperandsAgree s s')
include h

/-- The operand check (R171). -/
theorem decodeInvalid : s.decodeInvalid = s'.decodeInvalid := by
  simp only [State.decodeInvalid, State.slaveInvalid, State.funcInvalid, State.rxlenInvalid, h.slave, h.func, h.rxlen]

/-- The CRC of the frame's body (R173). -/
theorem rxCrc : s.rxCrc s.rxlen.toNat = s'.rxCrc s.rxlen.toNat :=
  congrArg crc16 (State.rxBytes_congr fun i _ hi => h.rx i (by omega))

/-- Failing before RX is read leaves the old CRC and cleared results. -/
theorem cleared : DecodeResultsAgree s.beginCommand.clearResults s'.beginCommand.clearResults :=
  ⟨rfl, h.crc, rfl, rfl, rfl, rfl⟩

section
variable (h4 : 4 ≤ s.rxlen.toNat)
include h4

theorem rxTrailer : s.rxTrailer s.rxlen.toNat = s'.rxTrailer s.rxlen.toNat := by
  rw [State.rxTrailer, State.rxTrailer, h.rx _ (by omega), h.rx _ (by omega)]

theorem examined : DecodeResultsAgree s.examined s'.examined where
  crcok := by rw [State.examined_crcok, State.examined_crcok, h.rxCrc, h.rxTrailer h4, h.rxlen]
  crc := by rw [State.examined_crc, State.examined_crc, h.rxCrc, h.rxlen]
  rfunc := h.rx 1 (by omega)
  excode := rfl
  rplen := by rw [State.examined_rplen, State.examined_rplen, h.rxlen]
  rcount := rfl

/-- The checks on the frame answer alike (R173 to R179). -/
theorem decodeAlike_parseFrame (m : Config.ExcFuncMatch) :
    DecodeAlike (parseFrame m s.rxlen.toNat s.examined) (parseFrame m s.rxlen.toNat s'.examined) := by
  have hx := h.examined h4
  have fail := hx.decodeAlike_raise
  have byte0 := h.rx 0 (by omega)
  have byte1 := h.rx 1 (by omega)
  have byte2 := h.rx 2 (by omega)
  have hcrc : s.crcMismatch s.rxlen.toNat = s'.crcMismatch s.rxlen.toNat := by
    rw [State.crcMismatch, State.crcMismatch, h.rxCrc, h.rxTrailer h4]
  have hslave : s.slaveMismatch = s'.slaveMismatch := by rw [State.slaveMismatch, State.slaveMismatch, byte0, h.slave]
  have hroute : s.isException = s'.isException := by rw [State.isException, State.isException, byte1]
  have hecho : s.echoMismatch = s'.echoMismatch := by rw [State.echoMismatch, State.echoMismatch, byte1, h.func]
  have hfunc : s.functionMismatch = s'.functionMismatch := by
    rw [State.functionMismatch, State.functionMismatch, byte1, h.func]
  have hread : s.readFunction = s'.readFunction := by rw [State.readFunction, State.readFunction, h.func]
  have hcount : s.byteCountInvalid s.rxlen.toNat = s'.byteCountInvalid s.rxlen.toNat := by
    rw [State.byteCountInvalid, State.byteCountInvalid, byte2, h.qty]
  rw [parseFrame_examined, parseFrame_examined]
  refine .ite (by rw [hcrc]) (fail _) (.ite (by rw [hslave]) (fail _) (.ite (by rw [hroute]) ?exceptionPath ?normalPath))
  case exceptionPath =>
    exact .ite (by rw [hecho]) (fail _) (.ite .rfl (fail _) ((hx.setExcode byte2).decodeAlike_complete _))
  case normalPath =>
    refine .ite (by rw [hfunc]) (fail _) (.ite (by rw [hread]) ?_ (hx.decodeAlike_complete _))
    exact .ite .rfl (fail _) (.ite (by rw [hcount]) (fail _) ((hx.setRcount (by rw [byte2])).decodeAlike_complete _))

end

/-- DECODE answers alike, whatever else the two states hold. -/
theorem decodeAlike_decodeWith (m : Config.ExcFuncMatch) : DecodeAlike (decodeWith m s) (decodeWith m s') := by
  rw [decodeWith, decodeWith, ← h.decodeInvalid, ← h.rxlen]
  refine .ite .rfl (h.cleared.decodeAlike_raise _) ?_
  by_cases h4 : s.rxlen.toNat < 4
  · rw [if_pos h4, if_pos h4]
    exact h.cleared.decodeAlike_raise _
  · rw [if_neg h4, if_neg h4]
    exact h.decodeAlike_parseFrame (by omega) m

end DecodeOperandsAgree

end Sys2Proof.Safety
end

section
/-! PROOFS. The statements about the command in flight and its completion (30_encoding.md R91 to R98). -/

namespace Sys2Proof.Safety

open Sys2Proof.Machine

/-- Settles O27: each check of DECODE reads only its operands and RX below RXLEN, and so do the registers it writes. -/
theorem decodeReadsOnlyItsOperands : Obligations.DecodeReadsOnlyItsOperands := by
  intro s s' hslave hfunc hqty hrxlen hcrc hrx
  have h : DecodeOperandsAgree s s' := ⟨hslave, hfunc, hqty, hrxlen, hcrc, hrx⟩
  obtain ⟨t, t', ht, ht', hkind, herr, hres⟩ := h.decodeAlike_decodeWith Config.excFuncMatch
  exact ⟨t, t', ht, ht', hkind, herr, hres.crcok, hres.crc, hres.rfunc, hres.excode, hres.rplen, hres.rcount⟩

/-- Settles O31: the opcodes left over by the table, the issue that any write to CMD is, and the failure that writes nothing
but STATUS and EST. -/
theorem illegalCommandsChangeOnlyStatus : Obligations.IllegalCommandsChangeOnlyStatus := by
  refine ⟨fun op => ?_, fun s w hb _ => ?_, fun s op imm he hno => ?_⟩
  · rw [← not_exists, exists_opcode_eq_iff]
    omega
  · rw [State.busWrite_cmd_of_idle hb]
    exact ⟨rfl, rfl⟩
  · obtain ⟨hfin, honly⟩ := onlyStatusChanged_raise s .illegalCommand
    refine ⟨_, completePending_of_illegal he (decodeOp_eq_illegal_iff.2 ⟨rfl, hno⟩), hfin, honly, fun hovr => ?_⟩
    rw [hfin.statusWord, honly.frame.ovr, hovr]
    rfl

/-- Settles O44: an edge in flight changes OVR, the port and the count of cycles only. -/
theorem edgesInFlightKeepTheBlock : Obligations.EdgesInFlightKeepTheBlock := by
  intro s hr he hb
  obtain ⟨o, d, p, l, -, hev⟩ := event_eq_withEdges he hr hb
  rw [hev]
  exact ⟨sameBlock_withEdges s o d p _ l, rfl, hr, rfl⟩

/-- Settles O48: the run ends in the completion on what the edges left, which its rule cannot tell from the state at issue. -/
theorem commandResultIsFixedAtIssue : Obligations.CommandResultIsFixedAtIssue := by
  intro s u hr hb hn hu
  obtain ⟨o, d, p, n, l, hrun⟩ := run_to_completion hr hb hn
  exact ⟨_, hrun.trans (completePending_withEdges hu hb o d p n l), sameBlock_withEdges u o d p n l⟩

/-- Settles O49: the run ends in a completion, which leaves the engine idle, and before it the command stays in flight. -/
theorem everyCommandCompletes : Obligations.EveryCommandCompletes := by
  intro s hr hb hn
  refine ⟨?_, fun k hk => ?_⟩
  · obtain ⟨o, d, p, n, l, hrun⟩ := run_to_completion hr hb hn
    obtain ⟨t, ht, e, -⟩ := completePending_effect (s := s.withEdges o d p n l) hb
    exact ⟨t, hrun.trans ht, by rw [State.busy, e.est]⟩
  · obtain ⟨o, d, p, l, -, hrun⟩ := run_before_completion hr hb hn hk
    exact ⟨_, hrun, hb⟩

/-- Settles O50: the poll's event reads STATUS, and a completion at its edge leaves the read data and what is to come. -/
theorem pollReadsStatusUntilIdle : Obligations.PollReadsStatusUntilIdle := by
  intro s rest hr hi
  obtain ⟨t, ht, hprdata, hinputs⟩ := step_keeps_port_of_event s
  obtain ⟨hread, hnext⟩ := event_of_poll hr hi
  exact ⟨t, ht, hprdata.trans hread, fun hb => by rw [hinputs, hnext, if_pos hb],
    fun hb => by rw [hinputs, hnext, hb, if_neg Bool.false_ne_true]⟩

/-- Settles O42: the event leaves the latched command, so the completion is its meaning; a table word latched with its last
cycle at hand is due. -/
theorem stepRunsTheDecodedCommand : Obligations.StepRunsTheDecodedCommand := by
  intro s
  refine ⟨step_of_not_due, fun op imm i hd he hi => ?_, fun op imm o hd he ho => ?_, fun nbits w i _ hw => ?_⟩
  · exact (step_of_due hd).trans (completePending_of_command ((est_event_of_due hd).trans he) hi)
  · exact (step_of_due hd).trans (completePending_of_illegal ((est_event_of_due hd).trans he) ho)
  · have hd : (s.withFetchWord nbits w).completionDue = true := completionDue_iff.2 ⟨rfl, rfl, rfl, Nat.le_refl 1⟩
    exact (step_of_due hd).trans
      (completePending_of_command (est_event_of_due hd) (decodeTableWord_eq_some_iff.1 hw))

end Sys2Proof.Safety
end

section
/-! SUPPORT. The CRC (40_crc.md): the byte step as a table look-up, the frames that verify, and what each CRC command answers;
the frames that the encoders leave in TX (41_encode.md R143). -/

namespace Sys2Proof.Machine

/-! ## The byte step is linear -/

theorem crcStep_xor (c d : Half) (a b : Byte) : crcStep (c ^^^ d) (a ^^^ b) = crcStep c a ^^^ crcStep d b := by
  have swap : c ^^^ d ^^^ (a.setWidth 16 ^^^ b.setWidth 16) = (c ^^^ a.setWidth 16) ^^^ (d ^^^ b.setWidth 16) := by ac_rfl
  rw [crcStep, BitVec.setWidth_xor, swap, crcShifts_xor]
  rfl

/-- The high byte of a Half, as a Half. -/
theorem setWidth_hiByte (c : Half) : (hiByte c).setWidth 16 = c >>> 8 := by
  refine BitVec.eq_of_getLsbD_eq fun i hi => ?_
  rw [BitVec.getLsbD_setWidth, getLsbD_hiByte, BitVec.getLsbD_ushiftRight]
  by_cases h : i < 8
  · simp [h, hi]
  · rw [BitVec.getLsbD_of_ge c (8 + i) (by omega)]
    simp

/-! ## Frames that verify (40_crc.md R113, R114) -/

theorem halfOf_eq_iff {x y : Byte} {c : Half} : c = halfOf x y ↔ crcWire c = [x, y] := by
  rw [← halfOf_bytes c, halfOf_inj]
  simp [crcWire]

/-- The sequences that verify are those that end in the CRC of what stands before it. -/
theorem verify_eq_true_iff {fs : List Byte} : verify fs = true ↔ ∃ bs, fs = bs ++ crcWire (crc16 bs) := by
  constructor
  · intro h
    have hlen : ¬ fs.length < 2 := fun hlt => by simp [verify, hlt] at h
    obtain ⟨x, y, hxy⟩ : ∃ x y, fs.drop (fs.length - 2) = [x, y] := List.length_eq_two.1 (by simp; omega)
    have hfs : fs = fs.take (fs.length - 2) ++ [x, y] := by rw [← hxy, List.take_append_drop]
    rw [hfs, verify_append_two, beq_iff_eq, halfOf_eq_iff] at h
    exact ⟨_, by rw [h]; exact hfs⟩
  · rintro ⟨bs, rfl⟩
    rw [crcWire, verify_append_two, halfOf_bytes, beq_self_eq_true]

/-- The residue of a sequence that verifies is 0. -/
theorem crc16_of_verify {fs : List Byte} (h : verify fs = true) : crc16 fs = 0#16 := by
  obtain ⟨bs, rfl⟩ := verify_eq_true_iff.1 h
  exact crc16_append_wire bs

end Sys2Proof.Machine

namespace Sys2Proof.Safety

open Sys2Proof.Machine

/-- A flipped bit changes its byte. -/
theorem xor_bit_ne (b : Byte) (k : Nat) : b ^^^ (1#8 <<< (k % 8)) ≠ b := by
  intro h
  have hk : k % 8 < 8 := Nat.mod_lt _ (by decide)
  have hbit := congrArg (BitVec.getLsbD · (k % 8)) h
  simp [hk] at hbit

/-- A flipped bit changes the CRC of the sequence that holds it. -/
theorem crc16_flipBit_ne {fs : List Byte} {k : Nat} (h : k < 8 * fs.length) : crc16 (flipBit fs k) ≠ crc16 fs := by
  have hi : k / 8 < fs.length := by omega
  refine crc16_set_ne fs _ hi _ ?_
  rw [List.getD_eq_getElem _ _ hi]
  exact xor_bit_ne _ k

/-! ## The CRC commands (40_crc.md R115 to R119) -/

/-- The state in which a CRC command that succeeds leaves the block: CRC and CRCOK written, and STATUS. -/
def crcDone (c : Half) (crcok : Bool) (s : State) : State :=
  ((s.beginCommand.setCrc c).setCrcok crcok).setOutcome .ok .noError

theorem crcDone_registers (c : Half) (crcok : Bool) (s : State) :
    (crcDone c crcok s).crc = c ∧ Finished (crcDone c crcok s) .ok .noError crcok false ∧
      CommandFrame s (crcDone c crcok s) ∧ ResultsKept s (crcDone c crcok s) ∧ LengthsKept s (crcDone c crcok s) ∧
      TxKept s (crcDone c crcok s) :=
  ⟨rfl, ⟨rfl, rfl, rfl, rfl, rfl⟩, .of_eq rfl, ⟨rfl, rfl, rfl, rfl⟩, ⟨rfl, rfl, rfl⟩, fun _ => rfl⟩

theorem txlenInvalid_iff {s : State} : s.txlenInvalid = true ↔ 256 < s.txlen.toNat := by
  simp [State.txlenInvalid, Config.maxFrame]

theorem rxlenInvalid_iff {s : State} : s.rxlenInvalid = true ↔ 256 < s.rxlen.toNat := by
  simp [State.rxlenInvalid, Config.maxFrame]

theorem exec_crcInit (s : State) : exec .crcInit s = .next (crcDone 0xFFFF#16 false s) := rfl

theorem exec_crcByte (b : Byte) (s : State) : exec (.crcByte b) s = .next (crcDone (crcStep s.crc b) false s) := rfl

theorem exec_crcTx {s : State} (h : s.txlen.toNat ≤ 256) :
    exec .crcTx s = .next (crcDone (crc16 (s.txBytes 0 s.txlen.toNat)) false s) :=
  if_neg (by rw [txlenInvalid_iff]; omega)

theorem exec_crcRx {s : State} (h : s.rxlen.toNat ≤ 256) :
    exec .crcRx s = .next (crcDone (crc16 (s.rxBytes 0 s.rxlen.toNat)) false s) :=
  if_neg (by rw [rxlenInvalid_iff]; omega)

/-- VERIFY_RX of at least two bytes reports verify of the valid bytes. -/
theorem exec_verifyRx {s : State} (h2 : 2 ≤ s.rxlen.toNat) (h : s.rxlen.toNat ≤ 256) :
    exec .verifyRx s =
      .next (crcDone (crc16 (s.rxBytes 0 (s.rxlen.toNat - 2))) (verify (s.rxBytes 0 s.rxlen.toNat)) s) := by
  rw [verify_rxBytes s _ h2]
  exact (if_neg (by rw [rxlenInvalid_iff]; omega)).trans (if_neg (by omega))

/-- VERIFY_RX of fewer than two bytes leaves CRC (D21). -/
theorem exec_verifyRx_of_short {s : State} (h : s.rxlen.toNat < 2) : exec .verifyRx s = .next (crcDone s.crc false s) :=
  (if_neg (by rw [rxlenInvalid_iff]; omega)).trans (if_pos h)

/-- One CRC_BYTE per byte, after a CRC command, folds the bytes into CRC (R116). -/
theorem execAll_crcBytes (bs : List Byte) (c : Half) (s : State) :
    execAll (bs.map .crcByte) (crcDone c false s) = .next (crcDone (bs.foldl crcStep c) false s) := by
  induction bs generalizing c with
  | nil => rfl
  | cons b bs ih => exact ih (crcStep c b)

/-! ## Frames sealed in TX (41_encode.md R143) -/

/-- Sealing a frame leaves `TX[0..TXLEN)` verifying. -/
theorem verify_sealed {n : Nat} (h : n ≤ 254) (s : State) :
    (sealed n s).txlen.toNat ≤ 256 ∧ verify ((sealed n s).txBytes 0 (sealed n s).txlen.toNat) = true := by
  have hlen : (sealed n s).txlen.toNat = n + 2 := by
    obtain ⟨-, -, htxlen, -⟩ := sealed_registers n s
    rw [htxlen, BitVec.toNat_ofNat, Nat.mod_eq_of_lt (by omega)]
  rw [hlen]
  exact ⟨by omega, verify_eq_true_iff.2 ⟨_, txBytes_sealed n s⟩⟩

/-- A completion that fails, or seals a frame of at most 256 bytes. -/
def FailsOrSeals (r : Result) : Prop := ∀ t, r = .next t → t.kind = .failed ∨ ∃ n u, n ≤ 254 ∧ t = sealed n u

/-- An argument check, and behind it a sealing of a frame whose length the check bounds. -/
theorem FailsOrSeals.ite {invalid : Bool} {s u : State} {e : Err} {n : Nat} (hn : invalid = false → n ≤ 254) :
    FailsOrSeals (if invalid then raise e s else sealFrame n u) := by
  cases invalid with
  | true => rintro _ ⟨⟩; exact .inl rfl
  | false => rintro _ ⟨⟩; exact .inr ⟨n, u, hn rfl, rfl⟩

/-- Every encoder fails or seals a frame. -/
theorem failsOrSeals_encoder {i : Instr} (hi : i = .encRaw ∨ i = .encRhr ∨ i = .encRir ∨ i = .encWsr ∨ i = .encWmr)
    (s : State) : FailsOrSeals (exec i s) := by
  rcases hi with rfl | rfl | rfl | rfl | rfl
  · refine .ite fun h => ?_
    have hp : s.plen.toNat ≤ 252 := by simp [State.plenInvalid, Config.maxFrame] at h; omega
    omega
  · exact .ite fun _ => by decide
  · exact .ite fun _ => by decide
  · exact .ite fun _ => by decide
  · refine .ite fun h => ?_
    have hq : s.qty.toNat ≤ 123 := by simp [State.rangeInvalid, Config.maxWriteQty] at h; omega
    omega

end Sys2Proof.Safety
end

section
/-! PROOFS. The statements about the CRC functions and the CRC commands (40_crc.md). -/

namespace Sys2Proof.Safety

open Sys2Proof.Machine

/-- Settles O5: a sequence verifies only where its residue is 0, and a flipped bit changes the residue. -/
theorem crcRoundTripSensitivityAndResidue : Obligations.CrcRoundTripSensitivityAndResidue := by
  have framed : ∀ bs, verify (bs ++ crcWire (crc16 bs)) = true := fun bs => verify_eq_true_iff.2 ⟨bs, rfl⟩
  refine ⟨framed, fun bs k hk => Bool.eq_false_iff.2 fun hflip => ?_, crc16_append_wire⟩
  have hne := crc16_flipBit_ne (fs := bs ++ crcWire (crc16 bs)) (k := k) (by simpa [crcWire] using hk)
  exact hne ((crc16_of_verify hflip).trans (crc16_of_verify (framed bs)).symm)

/-- Settles O6: by linearity the step of `b` is that of `c`'s low byte, which only shifts, XOR that of the difference. -/
theorem crcByteStepIsATableLookup : Obligations.CrcByteStepIsATableLookup := by
  intro c b
  have hlo : c.setWidth 8 = loByte c := BitVec.setWidth_eq_extractLsb' (by decide)
  have hb : loByte c ^^^ (loByte c ^^^ b) = b := by rw [← BitVec.xor_assoc, BitVec.xor_self, BitVec.zero_xor]
  calc crcStep c b
      = crcStep (c ^^^ 0#16) (loByte c ^^^ (loByte c ^^^ b)) := by rw [hb, BitVec.xor_zero]
    _ = crcStep c (loByte c) ^^^ crcStep 0#16 (loByte c ^^^ b) := crcStep_xor _ _ _ _
    _ = (c >>> 8) ^^^ crcStep 0#16 (c.setWidth 8 ^^^ b) := by rw [crcStep_loByte, setWidth_hiByte, hlo]

/-- Settles O7: CRC_INIT leaves 0xFFFF, and the bytes fold into it. -/
theorem initThenBytesComputesTheCrc : Obligations.InitThenBytesComputesTheCrc :=
  fun s bs => ⟨_, execAll_crcBytes bs 0xFFFF#16 s, crcDone_registers _ _ s⟩

/-- Settles O10: the length check, and behind it the CRC over TX. -/
theorem crcTxComputesOverTheTxBuffer : Obligations.CrcTxComputesOverTheTxBuffer :=
  ⟨fun _ hw => decodeOp_eq_command_iff.2 ⟨hw, nofun⟩, fun s =>
    ⟨fun h => ⟨_, exec_crcTx h, crcDone_registers _ _ s⟩,
      fun h => ⟨_, if_pos (txlenInvalid_iff.2 h), onlyStatusChanged_raise s _⟩⟩⟩

/-- Settles O11: the length check, and behind it the CRC over RX. -/
theorem crcRxComputesOverTheRxBuffer : Obligations.CrcRxComputesOverTheRxBuffer :=
  ⟨fun _ hw => decodeOp_eq_command_iff.2 ⟨hw, nofun⟩, fun s =>
    ⟨fun h => ⟨_, exec_crcRx h, crcDone_registers _ _ s⟩,
      fun h => ⟨_, if_pos (rxlenInvalid_iff.2 h), onlyStatusChanged_raise s _⟩⟩⟩

/-- Settles O12: the three ranges of RXLEN. -/
theorem verifyRxReportsVerify : Obligations.VerifyRxReportsVerify := by
  refine ⟨fun _ hw => decodeOp_eq_command_iff.2 ⟨hw, nofun⟩, fun s => ⟨fun h2 h => ?_, fun h => ?_, fun h => ?_⟩⟩
  · exact ⟨_, exec_verifyRx h2 h, crcDone_registers _ _ s⟩
  · obtain ⟨hcrc, hfin, hframe, hres, hlen, htx⟩ := crcDone_registers s.crc false s
    exact ⟨_, exec_verifyRx_of_short h, hfin, hframe, hres, hlen, hcrc, htx⟩
  · exact ⟨_, if_pos (rxlenInvalid_iff.2 h), onlyStatusChanged_raise s _⟩

/-- Settles O17: an encoder that did not fail has sealed a frame, which verifies, and its residue is 0. -/
theorem encodedFramesVerify : Obligations.EncodedFramesVerify := by
  intro s t i hi hst hok
  rcases failsOrSeals_encoder hi s t hst with hfailed | ⟨n, u, hn, rfl⟩
  · rw [hok] at hfailed; cases hfailed
  obtain ⟨hlen, hverify⟩ := verify_sealed hn u
  exact ⟨hverify, _, exec_crcTx hlen, rfl, crc16_of_verify hverify⟩

/-- Settles O8: CRC_INIT writes the constant and nothing else but STATUS. -/
theorem crcInitSetsTheInitialValue : Obligations.CrcInitSetsTheInitialValue :=
  ⟨fun _ hw => decodeOp_eq_command_iff.2 ⟨hw, nofun⟩, fun s => ⟨_, exec_crcInit s, crcDone_registers _ _ s⟩⟩

/-- Settles O9: CRC_BYTE's immediate is the word's, and its byte step starts from CRC as it stands. -/
theorem crcByteFeedsOneByte : Obligations.CrcByteFeedsOneByte :=
  ⟨fun _ hw => decodeOp_eq_command_iff.2 ⟨hw, fun _ hi => Instr.crcByte.inj hi⟩,
    fun s b => ⟨_, exec_crcByte b s, crcDone_registers _ _ s⟩⟩

end Sys2Proof.Safety
end

section
/-! SUPPORT. The encoders (41_encode.md): their argument checks, and the request frame that each leaves in TX behind them. -/

namespace Sys2Proof.Safety

open Sys2Proof.Machine

/-! ## The argument checks (41_encode.md R142, R144, R145, R148) -/

theorem slaveInvalid_iff {s : State} : s.slaveInvalid = true ↔ 247 < s.slave.toNat := by
  simp [State.slaveInvalid, Config.maxSlave]

theorem rawArgumentsInvalid_iff {s : State} : (s.slaveInvalid || s.funcInvalid || s.plenInvalid) = true ↔
    247 < s.slave.toNat ∨ s.func.getLsbD 7 = true ∨ 252 < s.plen.toNat := by
  rw [Bool.or_eq_true, Bool.or_eq_true, slaveInvalid_iff, or_assoc]
  simp [State.funcInvalid, State.plenInvalid, Config.maxFrame]

theorem rangeArgumentsInvalid_iff {s : State} {limit : Nat} : (s.slaveInvalid || s.rangeInvalid limit) = true ↔
    247 < s.slave.toNat ∨ s.qty.toNat = 0 ∨ limit < s.qty.toNat ∨ 0x10000 < s.addr.toNat + s.qty.toNat := by
  rw [Bool.or_eq_true, slaveInvalid_iff]
  simp [State.rangeInvalid, Config.regSpace, or_assoc]

/-! ## The request frame (41_encode.md R140, R143) -/

/-- The state in which an encoder of function `f` completes: slave, function and the header `fields` written, and sealed with
the `k` bytes that stand behind them in TX. -/
def requestSealed (f : Byte) (fields : List Byte) (k : Nat) (s : State) : State :=
  sealed (fields.length + 2 + k) ((s.beginCommand.writeTx 0 (s.slave :: f :: fields)).setFunc f)

/-- The `n` bytes of TX that are the request frame of function `f` and `payload`, and the success effects of R143. -/
structure RequestFramed (s t : State) (f : Byte) (payload : List Byte) (n : Nat) : Prop where
  bytes : t.txBytes 0 n = encodeRequest s.slave f payload
  txlen : t.txlen.toNat = n
  crc : t.crc = crc16 (s.slave :: f :: payload)
  rxlen : t.rxlen = 0#9
  func : t.func = f
  finished : Finished t .ok .noError false (decide (s.slave = 0#8))
  frame : CommandFrame s t
  results : ResultsKept s t

/-- CRC is that of all of the frame but its last two bytes. -/
theorem RequestFramed.crc_eq_crc16_txBytes {s t : State} {f : Byte} {payload : List Byte} {m : Nat}
    (h : RequestFramed s t f payload (m + 2)) : t.crc = crc16 (t.txBytes 0 m) := by
  have hbytes := h.bytes
  rw [State.txBytes_append] at hbytes
  rw [h.crc, List.append_inj_left' hbytes (by simp [crcWire])]

/-- The bytes that sealing a request computes the CRC of: the header, and behind it TX as it stood. -/
theorem txBytes_requestHeader (f : Byte) (fields : List Byte) (k : Nat) (s : State) :
    ((s.beginCommand.writeTx 0 (s.slave :: f :: fields)).setFunc f).txBytes 0 (fields.length + 2 + k) =
      s.slave :: f :: (fields ++ s.txBytes (fields.length + 2) k) :=
  txBytes_writeTx_header s.beginCommand (s.slave :: f :: fields) k

/-- A sealed request is framed: its payload is the header fields and the bytes that stood behind them. -/
theorem requestFramed_requestSealed (f : Byte) (fields : List Byte) (k : Nat) (s : State) {n : Nat}
    (hn : n = fields.length + 2 + k + 2) (hmax : n ≤ 256) :
    RequestFramed s (requestSealed f fields k s) f (fields ++ s.txBytes (fields.length + 2) k) n := by
  obtain ⟨hfinished, hrxlen, htxlen, hcrc, hfunc, -, -⟩ := sealed_registers (fields.length + 2 + k)
    ((s.beginCommand.writeTx 0 (s.slave :: f :: fields)).setFunc f)
  rw [txBytes_requestHeader] at hcrc
  refine ⟨?_, ?_, hcrc, hrxlen, hfunc, hfinished, .of_eq rfl, ⟨rfl, rfl, rfl, rfl⟩⟩
  · rw [hn, requestSealed, txBytes_sealed, txBytes_requestHeader, encodeRequest]
  · rw [requestSealed, htxlen, ← hn, BitVec.toNat_ofNat, Nat.mod_eq_of_lt (by omega)]

/-! ## What each encoder answers: its check, and behind it the sealed request -/

theorem exec_encRaw (s : State) :
    exec .encRaw s = if s.slaveInvalid || s.funcInvalid || s.plenInvalid then raise .argumentInvalid s.beginCommand
      else .next (requestSealed s.func [] s.plen.toNat s) := rfl

theorem exec_readEncoder {i : Instr} {f : Byte} (hi : (i = .encRhr ∧ f = 0x03#8) ∨ (i = .encRir ∧ f = 0x04#8))
    (s : State) :
    exec i s = if s.slaveInvalid || s.rangeInvalid 125 then raise .argumentInvalid s.beginCommand
      else .next (requestSealed f (be16 s.addr ++ be16 s.qty) 0 s) := by
  rcases hi with ⟨rfl, rfl⟩ | ⟨rfl, rfl⟩
  · rfl
  · rfl

theorem exec_encWsr (s : State) :
    exec .encWsr s = if s.slaveInvalid then raise .argumentInvalid s.beginCommand
      else .next (requestSealed 0x06#8 (be16 s.addr ++ be16 s.value) 0 s) := rfl

theorem exec_encWmr (s : State) :
    exec .encWmr s = if s.slaveInvalid || s.rangeInvalid 123 then raise .argumentInvalid s.beginCommand
      else .next (requestSealed 0x10#8 (be16 s.addr ++ be16 s.qty ++ [BitVec.ofNat 8 (2 * s.qty.toNat)]) (2 * s.qty.toNat) s) :=
  rfl

/-- A request of two 16-bit fields and nothing behind them takes eight bytes. -/
theorem requestFramed_twoFields (f : Byte) (a v : Half) (s : State) :
    RequestFramed s (requestSealed f (be16 a ++ be16 v) 0 s) f (be16 a ++ be16 v) 8 :=
  requestFramed_requestSealed f (be16 a ++ be16 v) 0 s rfl (by decide)

/-! ## DECODE behind an encoder (41_encode.md R143, 42_decode.md R172) -/

/-- A completion that fails, or leaves operands that pass DECODE's check and no received byte. -/
def FailsOrClearsRx (r : Result) : Prop :=
  ∀ t, r = .next t → t.kind = .failed ∨ t.slave.toNat ≤ 247 ∧ t.func.getLsbD 7 = false ∧ t.rxlen = 0#9

/-- An argument check that covers SLAVE and the function code, and behind it a sealed request. -/
theorem FailsOrClearsRx.ite {invalid : Bool} {e : Err} {s u : State} {f : Byte} {fields : List Byte} {k : Nat}
    (hvalid : ¬ invalid = true → s.slave.toNat ≤ 247 ∧ f.getLsbD 7 = false) :
    FailsOrClearsRx (if invalid then raise e u else .next (requestSealed f fields k s)) := by
  cases invalid with
  | true => rintro _ ⟨⟩; exact .inl rfl
  | false =>
    rintro _ ⟨⟩
    obtain ⟨hslave, hfunc⟩ := hvalid nofun
    exact .inr ⟨hslave, hfunc, rfl⟩

/-- Every encoder checks SLAVE, and the function code it frames has no bit 7. -/
theorem failsOrClearsRx_encoder {i : Instr} (hi : i = .encRaw ∨ i = .encRhr ∨ i = .encRir ∨ i = .encWsr ∨ i = .encWmr)
    (s : State) : FailsOrClearsRx (exec i s) := by
  rcases hi with rfl | rfl | rfl | rfl | rfl
  · rw [exec_encRaw]
    refine .ite fun h => ?_
    rw [rawArgumentsInvalid_iff, not_or, not_or, Bool.not_eq_true] at h
    obtain ⟨hslave, hfunc, -⟩ := h
    exact ⟨Nat.le_of_not_lt hslave, hfunc⟩
  · rw [exec_readEncoder (.inl ⟨rfl, rfl⟩)]
    exact .ite fun h => ⟨by rw [rangeArgumentsInvalid_iff] at h; omega, rfl⟩
  · rw [exec_readEncoder (.inr ⟨rfl, rfl⟩)]
    exact .ite fun h => ⟨by rw [rangeArgumentsInvalid_iff] at h; omega, rfl⟩
  · rw [exec_encWsr]
    exact .ite fun h => ⟨by rw [slaveInvalid_iff] at h; omega, rfl⟩
  · rw [exec_encWmr]
    exact .ite fun h => ⟨by rw [rangeArgumentsInvalid_iff] at h; omega, rfl⟩

/-- Where its operands pass, DECODE of fewer than four bytes fails with TOO_SHORT (42_decode.md R172). -/
theorem exec_decode_of_short {s : State} (hslave : s.slave.toNat ≤ 247) (hfunc : s.func.getLsbD 7 = false)
    (hshort : s.rxlen.toNat < 4) :
    exec .decode s = .next (s.beginCommand.clearResults.setOutcome .failed .tooShort) := by
  have hvalid := decodeInvalid_eq_false hslave hfunc (by omega)
  exact (if_neg (by rw [hvalid]; decide)).trans (if_pos hshort)

end Sys2Proof.Safety
end

section
/-! PROOFS. The statements about the encoders (41_encode.md). -/

namespace Sys2Proof.Safety

open Sys2Proof.Machine

/-- Settles O13: the three checks, and behind them a frame whose payload stands in TX. -/
theorem encRawFramesThePayload : Obligations.EncRawFramesThePayload := by
  refine ⟨fun _ hw => decodeOp_eq_command_iff.2 ⟨hw, nofun⟩, fun s => ⟨fun hslave hfunc hplen => ?_, fun h => ?_⟩⟩
  · have hvalid : ¬ (s.slaveInvalid || s.funcInvalid || s.plenInvalid) = true := by
      simp only [rawArgumentsInvalid_iff, hfunc, Bool.false_eq_true, false_or]; omega
    have hexec := (exec_encRaw s).trans (if_neg hvalid)
    have r : RequestFramed s _ s.func (s.txBytes 2 s.plen.toNat) (s.plen.toNat + 4) :=
      requestFramed_requestSealed s.func [] s.plen.toNat s (by simp; omega) (by omega)
    obtain ⟨-, -, htx, -⟩ := commandsWriteOnlyTheirBufferBytes _ _ _ hexec
    exact ⟨_, hexec, r.bytes, r.txlen, r.crc, r.rxlen, r.func, r.finished, r.frame, r.results, htx rfl⟩
  · exact ⟨_, (exec_encRaw s).trans (if_pos (rawArgumentsInvalid_iff.2 h)), onlyStatusChanged_raise s _⟩

/-- Settles O14: one check and one frame of two fields, under either function code. -/
theorem readEncodersFrameAddressAndQuantity : Obligations.ReadEncodersFrameAddressAndQuantity := by
  refine ⟨fun _ hw => decodeOp_eq_command_iff.2 ⟨hw, nofun⟩, fun _ hw => decodeOp_eq_command_iff.2 ⟨hw, nofun⟩,
    fun s i f hi => ⟨fun hslave hmin hmax hspace => ?_, fun h => ?_⟩⟩
  · have hvalid : ¬ (s.slaveInvalid || s.rangeInvalid 125) = true := by rw [rangeArgumentsInvalid_iff]; omega
    have hexec := (exec_readEncoder hi s).trans (if_neg hvalid)
    have r := requestFramed_twoFields f s.addr s.qty s
    obtain ⟨-, -, -, htx, -⟩ := commandsWriteOnlyTheirBufferBytes _ _ _ hexec
    have hread : i = .encRhr ∨ i = .encRir ∨ i = .encWsr := hi.imp And.left (.inl ∘ And.left)
    exact ⟨_, hexec, r.bytes, BitVec.eq_of_toNat_eq r.txlen, r.crc_eq_crc16_txBytes, r.rxlen, r.func, r.finished, r.frame,
      r.results, htx hread⟩
  · exact ⟨_, (exec_readEncoder hi s).trans (if_pos (rangeArgumentsInvalid_iff.2 h)), onlyStatusChanged_raise s _⟩

/-- Settles O15: the slave check, and behind it a frame of two fields. -/
theorem encWsrFramesAddressAndValue : Obligations.EncWsrFramesAddressAndValue := by
  refine ⟨fun _ hw => decodeOp_eq_command_iff.2 ⟨hw, nofun⟩, fun s => ⟨fun hslave => ?_, fun h => ?_⟩⟩
  · have hvalid : ¬ s.slaveInvalid = true := by rw [slaveInvalid_iff]; omega
    have hexec := (exec_encWsr s).trans (if_neg hvalid)
    have r := requestFramed_twoFields 0x06#8 s.addr s.value s
    obtain ⟨-, -, -, htx, -⟩ := commandsWriteOnlyTheirBufferBytes _ _ _ hexec
    exact ⟨_, hexec, r.bytes, BitVec.eq_of_toNat_eq r.txlen, r.crc_eq_crc16_txBytes, r.rxlen, r.func, r.finished, r.frame,
      r.results, htx (.inr (.inr rfl))⟩
  · exact ⟨_, (exec_encWsr s).trans (if_pos (slaveInvalid_iff.2 h)), onlyStatusChanged_raise s _⟩

/-- Settles O16: the checks, and behind them a frame whose payload is five header bytes and the values that stand in TX. -/
theorem encWmrFramesTheValues : Obligations.EncWmrFramesTheValues := by
  refine ⟨fun _ hw => decodeOp_eq_command_iff.2 ⟨hw, nofun⟩, fun s => ⟨fun hslave hmin hmax hspace => ?_, fun h => ?_⟩⟩
  · have hvalid : ¬ (s.slaveInvalid || s.rangeInvalid 123) = true := by rw [rangeArgumentsInvalid_iff]; omega
    have hexec := (exec_encWmr s).trans (if_neg hvalid)
    have hlen : 9 + 2 * s.qty.toNat = 7 + 2 * s.qty.toNat + 2 := by omega
    have r := requestFramed_requestSealed 0x10#8 (be16 s.addr ++ be16 s.qty ++ [BitVec.ofNat 8 (2 * s.qty.toNat)])
      (2 * s.qty.toNat) s hlen (by omega)
    obtain ⟨-, -, -, -, htx, -⟩ := commandsWriteOnlyTheirBufferBytes _ _ _ hexec
    exact ⟨_, hexec, r.bytes, r.txlen, (hlen ▸ r).crc_eq_crc16_txBytes, r.rxlen, r.func, r.finished, r.frame, r.results,
      htx rfl⟩
  · exact ⟨_, (exec_encWmr s).trans (if_pos (rangeArgumentsInvalid_iff.2 h)), onlyStatusChanged_raise s _⟩

/-- Settles O18: an encoder that did not fail has left valid operands and RXLEN = 0. -/
theorem decodeAfterEncodeIsTooShort : Obligations.DecodeAfterEncodeIsTooShort := by
  intro s t i hi hst hok
  rcases failsOrClearsRx_encoder hi s t hst with hfailed | ⟨hslave, hfunc, hrxlen⟩
  · rw [hok] at hfailed; cases hfailed
  exact ⟨_, exec_decode_of_short hslave hfunc (by rw [hrxlen]; decide), ⟨rfl, rfl, rfl, rfl, rfl⟩, rfl, rfl, rfl⟩

end Sys2Proof.Safety
end

section
/-! SUPPORT. DECODE (42_decode.md): the state in which it leaves a frame that it does not read or that it examines, and the
outcome of each path through its checks. -/

namespace Sys2Proof.Safety

open Sys2Proof.Machine

/-! ## Failing before RX is read (R171, R172) -/

theorem decodeInvalid_iff {s : State} :
    s.decodeInvalid = true ↔ 247 < s.slave.toNat ∨ s.func.getLsbD 7 = true ∨ 256 < s.rxlen.toNat := by
  rw [State.decodeInvalid, Bool.or_eq_true, Bool.or_eq_true, slaveInvalid_iff, rxlenInvalid_iff, or_assoc]
  rfl

/-- The state in which DECODE fails before it reads RX: the result registers are cleared (D22). -/
def unread (e : Err) (s : State) : State := s.beginCommand.clearResults.setOutcome .failed e

theorem unread_registers (e : Err) (s : State) :
    Finished (unread e s) .failed e false false ∧ (unread e s).crc = s.crc ∧ (unread e s).rfunc = 0#8 ∧
      (unread e s).excode = 0#8 ∧ (unread e s).rplen = 0#9 ∧ (unread e s).rcount = 0#8 ∧ CommandFrame s (unread e s) ∧
      LengthsKept s (unread e s) ∧ TxKept s (unread e s) :=
  ⟨⟨rfl, rfl, rfl, rfl, rfl⟩, rfl, rfl, rfl, rfl, rfl, .of_eq rfl, ⟨rfl, rfl, rfl⟩, fun _ => rfl⟩

/-! ## Examining a frame (R173 to R179) -/

/-- The operand and length checks pass (R171, R172). -/
structure Examinable (s : State) : Prop where
  slave : s.slave.toNat ≤ 247
  func : s.func.getLsbD 7 = false
  long : 4 ≤ s.rxlen.toNat
  fits : s.rxlen.toNat ≤ 256

/-- The state in which DECODE completes a frame that it examined: an outcome, an exception code and a register count. -/
def decoded (k : Kind) (e : Err) (excode rcount : Byte) (s : State) : State :=
  ((s.examined.setExcode excode).setRcount rcount).setOutcome k e

theorem decoded_registers (k : Kind) (e : Err) (x n : Byte) {s : State} {verdict : Bool} (h : Examinable s)
    (hverdict : verify (s.rxBytes 0 s.rxlen.toNat) = verdict) :
    Finished (decoded k e x n s) k e verdict false ∧
      (decoded k e x n s).crc = crc16 (s.rxBytes 0 (s.rxlen.toNat - 2)) ∧ (decoded k e x n s).rfunc = s.rxByte 1 ∧
      (decoded k e x n s).excode = x ∧ (decoded k e x n s).rplen.toNat = s.rxlen.toNat - 4 ∧
      (decoded k e x n s).rcount = n ∧ CommandFrame s (decoded k e x n s) ∧ LengthsKept s (decoded k e x n s) ∧
      TxKept s (decoded k e x n s) := by
  obtain ⟨hcrc, hrfunc, -, hrplen, -⟩ := examined_registers s h.fits
  have hcrcok : s.examined.crcok = verify (s.rxBytes 0 s.rxlen.toNat) :=
    (verify_rxBytes s _ (Nat.le_trans (by decide) h.long)).symm
  exact ⟨⟨rfl, rfl, rfl, hcrcok.trans hverdict, rfl⟩, hcrc, hrfunc, rfl, hrplen, rfl, .of_eq rfl, ⟨rfl, rfl, rfl⟩,
    fun _ => rfl⟩

/-- A completion of DECODE on an examined frame: never with KIND = OK or TOO_SHORT, with an exception code only where bit 7 of
the function byte is set, and with a register count only where it is not. -/
def EndsExamined (s : State) (r : Result) : Prop :=
  ∃ k e x n, r = .next (decoded k e x n s) ∧ k ≠ .ok ∧ e ≠ .tooShort ∧ (s.isException = false → x = 0#8) ∧
    (s.isException = true → n = 0#8)

theorem EndsExamined.of_raise {s : State} {e : Err} (he : e ≠ .tooShort) : EndsExamined s (raise e s.examined) :=
  ⟨.failed, e, 0#8, 0#8, rfl, nofun, he, fun _ => rfl, fun _ => rfl⟩

theorem EndsExamined.ite {s : State} {c : Prop} [Decidable c] {r r' : Result} (h : c → EndsExamined s r)
    (h' : ¬ c → EndsExamined s r') : EndsExamined s (if c then r else r') := by
  by_cases hc : c
  · rw [if_pos hc]; exact h hc
  · rw [if_neg hc]; exact h' hc

/-- The checks on the frame fail it, or report its exception code, or its register count, or that there is none. -/
theorem endsExamined_parseFrame (m : Config.ExcFuncMatch) (n : Nat) (s : State) :
    EndsExamined s (parseFrame m n s.examined) := by
  have fail {c : Prop} {e : Err} (he : e ≠ .tooShort) : c → EndsExamined s (raise e s.examined) := fun _ => .of_raise he
  rw [parseFrame_examined]
  refine .ite (fail nofun) fun _ => .ite (fail nofun) fun _ => .ite (fun hx => ?exceptionPath) fun hx => ?normalPath
  case exceptionPath =>
    refine .ite (fail nofun) fun _ => .ite (fail nofun) fun _ => ?_
    exact ⟨.exception, .noError, s.rxByte 2, 0#8, rfl, nofun, nofun, fun h => absurd hx (by rw [h]; decide), fun _ => rfl⟩
  case normalPath =>
    have data (n : Byte) : EndsExamined s (complete .data (s.examined.setRcount n)) :=
      ⟨.data, .noError, 0#8, n, rfl, nofun, nofun, fun _ => rfl, fun h => absurd h hx⟩
    refine .ite (fail nofun) fun _ => .ite (fun _ => .ite (fail nofun) fun _ => .ite (fail nofun) fun _ => ?_) fun _ => ?_
    · exact data _
    · exact data 0#8

theorem exec_decode_of_examinable {s : State} (h : Examinable s) :
    exec .decode s = parseFrame .strict s.rxlen.toNat s.examined := decodeWith_of_valid .strict h.slave h.func h.long h.fits

/-- DECODE fails with RX unread, or examines the frame. -/
theorem exec_decode_cases (s : State) : (∃ e, exec .decode s = .next (unread e s)) ∨ Examinable s := by
  by_cases hinvalid : s.decodeInvalid = true
  · exact .inl ⟨_, if_pos hinvalid⟩
  rw [decodeInvalid_iff, not_or, not_or, Bool.not_eq_true, Nat.not_lt, Nat.not_lt] at hinvalid
  obtain ⟨hslave, hfunc, hfits⟩ := hinvalid
  by_cases hshort : s.rxlen.toNat < 4
  · exact .inl ⟨_, exec_decode_of_short hslave hfunc hshort⟩
  · exact .inr ⟨hslave, hfunc, Nat.le_of_not_lt hshort, hfits⟩

/-- What DECODE answers on an examined frame, whatever its outcome (R181): an exception code comes only with bit 7 of the
function byte, a register count only without it. -/
structure FrameExamined (s t : State) : Prop where
  next : exec .decode s = .next t
  est : t.est = .idle
  kind_ne : t.kind ≠ .ok
  err_ne : t.err ≠ .tooShort
  noresp : t.noresp = false
  crc : t.crc = crc16 (s.rxBytes 0 (s.rxlen.toNat - 2))
  rfunc : t.rfunc = s.rxByte 1
  rplen : t.rplen.toNat = s.rxlen.toNat - 4
  excode : s.isException = false → t.excode = 0#8
  rcount : s.isException = true → t.rcount = 0#8
  frame : CommandFrame s t
  lengths : LengthsKept s t
  tx : TxKept s t

theorem exists_frameExamined {s : State} (h : Examinable s) : ∃ t, FrameExamined s t := by
  obtain ⟨k, e, x, n, hnext, hk, he, hx, hn⟩ := endsExamined_parseFrame .strict s.rxlen.toNat s
  obtain ⟨hfin, hcrc, hrfunc, hexcode, hrplen, hrcount, hframe, hlengths, htx⟩ := decoded_registers k e x n h rfl
  exact ⟨_, (exec_decode_of_examinable h).trans hnext, hfin.est, hk, he, hfin.noresp, hcrc, hrfunc, hrplen,
    fun h' => hexcode.trans (hx h'), fun h' => hrcount.trans (hn h'), hframe, hlengths, htx⟩

/-- A checksum that does not match ends the checks (R173). -/
theorem exec_decode_of_badChecksum {s : State} (h : Examinable s) (hbad : verify (s.rxBytes 0 s.rxlen.toNat) = false) :
    exec .decode s = .next (decoded .failed .checksumMismatch 0#8 0#8 s) := by
  refine (exec_decode_of_examinable h).trans (if_pos ?_)
  rw [State.examined_crcMismatch, crcMismatch_eq_not_verify s (Nat.le_trans (by decide) h.long), hbad]
  rfl

/-- Past the checksum, the slave check and the routing on bit 7 (R174, R175). -/
theorem exec_decode_of_verified {s : State} (h : Examinable s) (hok : verify (s.rxBytes 0 s.rxlen.toNat) = true) :
    exec .decode s =
      if s.slaveMismatch then raise .slaveMismatch s.examined
      else if s.isException then parseException .strict s.rxlen.toNat s.examined
      else parseNormal s.rxlen.toNat s.examined := by
  refine (exec_decode_of_examinable h).trans (if_neg ?_)
  rw [State.examined_crcMismatch, crcMismatch_eq_not_verify s (Nat.le_trans (by decide) h.long), hok]
  decide

/-- A verified frame of another slave ends the checks (R174). -/
theorem exec_decode_of_otherSlave {s : State} (h : Examinable s) (hok : verify (s.rxBytes 0 s.rxlen.toNat) = true)
    (hother : s.rxByte 0 ≠ s.slave) : exec .decode s = .next (decoded .failed .slaveMismatch 0#8 0#8 s) :=
  (exec_decode_of_verified h hok).trans (if_pos (bne_iff_ne.2 hother))

/-- A verified frame of the slave, whose function byte is looked at next (R175). -/
structure Addressed (s : State) : Prop extends Examinable s where
  verified : verify (s.rxBytes 0 s.rxlen.toNat) = true
  own : s.rxByte 0 = s.slave

namespace Addressed

variable {s : State} (h : Addressed s)
include h

theorem exec_decode : exec .decode s =
    if s.isException then parseException .strict s.rxlen.toNat s.examined else parseNormal s.rxlen.toNat s.examined := by
  refine (exec_decode_of_verified h.toExaminable h.verified).trans (if_neg ?_)
  rw [State.slaveMismatch, h.own, bne_self_eq_false]
  decide

/-- The outcome of a path is what the state that DECODE answers holds. -/
theorem outcome_of_exec {t : State} (ht : exec .decode s = .next t) {k : Kind} {e : Err} {x n : Byte}
    (hpath : exec .decode s = .next (decoded k e x n s)) : Finished t k e true false ∧ t.excode = x ∧ t.rcount = n := by
  obtain ⟨hfin, -, -, hexcode, -, hrcount, -⟩ := decoded_registers k e x n h.toExaminable h.verified
  rw [Host.Outcome.next.inj (ht.symm.trans hpath)]
  exact ⟨hfin, hexcode, hrcount⟩

/-! ### The exception path (R176, R177) -/

section
variable (hx : (s.rxByte 1).getLsbD 7 = true)
include hx

theorem exec_decode_of_isException : exec .decode s = parseException .strict s.rxlen.toNat s.examined :=
  h.exec_decode.trans (if_pos hx)

theorem exec_decode_of_foreignException (hne : s.rxByte 1 &&& 0x7F#8 ≠ s.func) :
    exec .decode s = .next (decoded .failed .functionMismatch 0#8 0#8 s) :=
  (h.exec_decode_of_isException hx).trans (if_pos (bne_iff_ne.2 hne))

theorem exec_decode_of_echo (heq : s.rxByte 1 &&& 0x7F#8 = s.func) :
    exec .decode s = if s.rxlen.toNat - 4 = 0 then raise .payloadLengthMismatch s.examined
      else complete .exception (s.examined.setExcode (s.rxByte 2)) := by
  refine (h.exec_decode_of_isException hx).trans (if_neg ?_)
  rw [State.examined_echoMismatch, State.echoMismatch, heq, bne_self_eq_false]
  decide

theorem exec_decode_of_emptyException (heq : s.rxByte 1 &&& 0x7F#8 = s.func) (hempty : s.rxlen.toNat = 4) :
    exec .decode s = .next (decoded .failed .payloadLengthMismatch 0#8 0#8 s) :=
  (h.exec_decode_of_echo hx heq).trans (if_pos (by omega))

theorem exec_decode_of_exception (heq : s.rxByte 1 &&& 0x7F#8 = s.func) (hlong : 4 < s.rxlen.toNat) :
    exec .decode s = .next (decoded .exception .noError (s.rxByte 2) 0#8 s) :=
  (h.exec_decode_of_echo hx heq).trans (if_neg (by omega))

end

/-! ### The normal path (R178, R179) -/

theorem exec_decode_of_otherFunction (hx : (s.rxByte 1).getLsbD 7 = false) (hne : s.rxByte 1 ≠ s.func) :
    exec .decode s = .next (decoded .failed .functionMismatch 0#8 0#8 s) :=
  (h.exec_decode.trans (if_neg (Bool.eq_false_iff.1 hx))).trans (if_pos (bne_iff_ne.2 hne))

section
variable (hf : s.rxByte 1 = s.func)
include hf

/-- A valid FUNC has no bit 7, so a frame of that very function takes the normal path. -/
theorem isException_eq_false : s.isException = false := by rw [State.isException, hf, h.func]

theorem exec_decode_of_sameFunction : exec .decode s =
    if s.readFunction then
      if s.rxlen.toNat - 4 = 0 then raise .payloadLengthMismatch s.examined
      else if s.byteCountInvalid s.rxlen.toNat then raise .payloadLengthMismatch s.examined
      else complete .data (s.examined.setRcount (BitVec.ofNat 8 ((s.rxByte 2).toNat / 2)))
    else complete .data s.examined := by
  refine (h.exec_decode.trans (if_neg (Bool.eq_false_iff.1 (h.isException_eq_false hf)))).trans (if_neg ?_)
  rw [State.examined_functionMismatch, State.functionMismatch, hf, bne_self_eq_false]
  decide

theorem exec_decode_of_uncheckedPayload (h3 : s.func ≠ 0x03#8) (h4 : s.func ≠ 0x04#8) :
    exec .decode s = .next (decoded .data .noError 0#8 0#8 s) :=
  (h.exec_decode_of_sameFunction hf).trans (if_neg (by simp [State.readFunction, h3, h4]))

variable (hread : s.func = 0x03#8 ∨ s.func = 0x04#8)
include hread

theorem exec_decode_of_readFunction : exec .decode s =
    if s.rxlen.toNat - 4 = 0 then raise .payloadLengthMismatch s.examined
    else if s.byteCountInvalid s.rxlen.toNat then raise .payloadLengthMismatch s.examined
    else complete .data (s.examined.setRcount (BitVec.ofNat 8 ((s.rxByte 2).toNat / 2))) :=
  (h.exec_decode_of_sameFunction hf).trans (if_pos (by simpa [State.readFunction] using hread))

theorem exec_decode_of_badPayload (hbad : s.rxlen.toNat = 4 ∨ (s.rxByte 2).toNat % 2 = 1 ∨
      (s.rxByte 2).toNat ≠ s.rxlen.toNat - 5 ∨ (s.rxByte 2).toNat / 2 ≠ s.qty.toNat) :
    exec .decode s = .next (decoded .failed .payloadLengthMismatch 0#8 0#8 s) := by
  refine (h.exec_decode_of_readFunction hf hread).trans ?_
  by_cases hempty : s.rxlen.toNat - 4 = 0
  · exact if_pos hempty
  · have hcount : s.byteCountInvalid s.rxlen.toNat = true := by
      simpa [State.byteCountInvalid, or_assoc] using hbad.resolve_left (by omega)
    exact (if_neg hempty).trans (if_pos hcount)

theorem exec_decode_of_readResponse (hlong : 5 ≤ s.rxlen.toNat) (hrest : (s.rxByte 2).toNat = s.rxlen.toNat - 5)
    (hqty : (s.rxByte 2).toNat = 2 * s.qty.toNat) :
    exec .decode s = .next (decoded .data .noError 0#8 (BitVec.ofNat 8 ((s.rxByte 2).toNat / 2)) s) := by
  refine (h.exec_decode_of_readFunction hf hread).trans ((if_neg (by omega)).trans (if_neg ?_))
  simp only [State.byteCountInvalid, Bool.or_eq_true, decide_eq_true_eq]
  omega

end

end Addressed

/-! ## The two readings of P_EXC_FUNC_MATCH (R176) -/

/-- Where an exception frame echoes FUNC, the checks on the frame do not depend on the reading. -/
theorem parseFrame_strict_eq_bit7Only (n : Nat) {s : State} (hecho : s.isException = true → s.echoMismatch = false) :
    parseFrame .strict n s.examined = parseFrame .bit7Only n s.examined := by
  rw [parseFrame_examined, parseFrame_examined]
  by_cases hx : s.isException = true
  · rw [if_pos hx, if_pos hx, hecho hx, Bool.and_false, Bool.and_false]
  · rw [if_neg hx, if_neg hx]

/-! ## Read responses (R179, R180) -/

theorem length_flatMap_be16 (vs : List Half) : (vs.flatMap be16).length = 2 * vs.length := by
  induction vs with
  | nil => rfl
  | cons v vs ih => rw [List.flatMap_cons, List.length_append, ih, List.length_cons]; simp [be16]; omega

/-- Each value stands in its two bytes, high byte first. -/
theorem getElem?_flatMap_be16 {vs : List Half} {j : Nat} (h : j < vs.length) :
    (vs.flatMap be16)[2 * j]? = some (hiByte vs[j]) ∧ (vs.flatMap be16)[2 * j + 1]? = some (loByte vs[j]) := by
  induction vs generalizing j with
  | nil => cases h
  | cons v vs ih =>
    cases j with
    | zero => exact ⟨rfl, rfl⟩
    | succ j => exact ih (Nat.lt_of_succ_lt_succ h)

/-- A byte of RX is read off from the valid bytes. -/
theorem rxByte_of_rxBytes {s : State} {n i : Nat} {b : Byte} (h : (s.rxBytes 0 n)[i]? = some b) : s.rxByte i = b := by
  obtain ⟨hi, hb⟩ := List.getElem?_eq_some_iff.1 h
  rw [← hb, State.getElem_rxBytes, Nat.zero_add]

/-- The first `n` bytes of RX are the response of the slave to a read by function `f` of the values `vs`. -/
def HoldsReadResponse (s : State) (n : Nat) (f : Byte) (vs : List Half) : Prop :=
  s.rxBytes 0 n = encodeRequest s.slave f (readPayload vs)

namespace HoldsReadResponse

variable {s : State} {n : Nat} {f : Byte} {vs : List Half} (h : HoldsReadResponse s n f vs)
include h

theorem verify_eq_true : verify (s.rxBytes 0 n) = true := verify_eq_true_iff.2 ⟨_, h⟩

/-- The bytes before the values: slave, function and byte count. -/
theorem header : s.rxByte 0 = s.slave ∧ s.rxByte 1 = f ∧ s.rxByte 2 = BitVec.ofNat 8 (2 * vs.length) :=
  ⟨rxByte_of_rxBytes (congrArg (·[0]?) h), rxByte_of_rxBytes (congrArg (·[1]?) h), rxByte_of_rxBytes (congrArg (·[2]?) h)⟩

/-- A byte of the values stands three bytes on in RX. -/
theorem rxByte_value {i : Nat} {b : Byte} (hb : (vs.flatMap be16)[i]? = some b) : s.rxByte (i + 3) = b := by
  obtain ⟨hi, -⟩ := List.getElem?_eq_some_iff.1 hb
  exact rxByte_of_rxBytes ((congrArg (·[i + 3]?) h).trans ((List.getElem?_append_left hi).trans hb))

/-- The host reads back the values, in order (R180). -/
theorem regValue_eq {j : Nat} (hj : j < vs.length) : s.regValue j = vs[j] := by
  obtain ⟨hhi, hlo⟩ := getElem?_flatMap_be16 hj
  rw [State.regValue, show 4 + 2 * j = 2 * j + 1 + 3 by omega, show 3 + 2 * j = 2 * j + 3 by omega, h.rxByte_value hhi,
    h.rxByte_value hlo, halfOf_bytes]

end HoldsReadResponse

/-- Register values are read from RX, which no command changes. -/
theorem CommandFrame.regValue {s t : State} (h : CommandFrame s t) (j : Nat) : t.regValue j = s.regValue j := by
  rw [State.regValue, h.rx, h.rx, State.regValue]

end Sys2Proof.Safety
end

section
/-! PROOFS. The statements about DECODE (42_decode.md). -/

namespace Sys2Proof.Safety

open Sys2Proof.Machine

/-- Settles O19: DECODE fails with RX unread, or ends with the frame examined. -/
theorem decodeAlwaysCompletesWithItsFrame : Obligations.DecodeAlwaysCompletesWithItsFrame := by
  refine ⟨fun _ hw => decodeOp_eq_command_iff.2 ⟨hw, nofun⟩, fun s => ?_⟩
  rcases exec_decode_cases s with ⟨e, he⟩ | h
  · obtain ⟨hfin, -, -, -, -, -, hkept⟩ := unread_registers e s
    exact ⟨_, he, hfin.est, nofun, hfin.noresp, hkept⟩
  · obtain ⟨t, r⟩ := exists_frameExamined h
    exact ⟨t, r.next, r.est, r.kind_ne, r.noresp, r.frame, r.lengths, r.tx⟩

/-- Settles O20: the operand check is the first one. -/
theorem decodeRejectsInvalidOperands : Obligations.DecodeRejectsInvalidOperands :=
  fun s h => ⟨_, if_pos (decodeInvalid_iff.2 h), unread_registers _ s⟩

/-- Settles O21: the length check is the second one, and no check on the frame fails with TOO_SHORT. -/
theorem decodeRejectsShortFrames : Obligations.DecodeRejectsShortFrames := by
  refine fun s hslave hfunc => ⟨fun hshort => ?_, fun h4 => ?_⟩
  · exact ⟨_, exec_decode_of_short hslave hfunc hshort, unread_registers _ s⟩
  · obtain ⟨t, r⟩ := exists_frameExamined (s := s) ⟨hslave, hfunc, by omega, by omega⟩
    exact ⟨t, r.next, r.err_ne, r.rfunc, BitVec.eq_of_toNat_eq (by rw [r.rplen, h4]; rfl)⟩

/-- Settles O22: the CRC check is the first one on the frame. -/
theorem decodeRejectsBadChecksums : Obligations.DecodeRejectsBadChecksums := by
  intro s hslave hfunc hlong hfits hbad
  have h : Examinable s := ⟨hslave, hfunc, hlong, hfits⟩
  exact ⟨_, exec_decode_of_badChecksum h hbad, decoded_registers _ _ _ _ h hbad⟩

/-- Settles O23: the slave check follows the CRC check. -/
theorem decodeRejectsOtherSlaves : Obligations.DecodeRejectsOtherSlaves := by
  intro s hslave hfunc hlong hfits hok hother
  have h : Examinable s := ⟨hslave, hfunc, hlong, hfits⟩
  exact ⟨_, exec_decode_of_otherSlave h hok hother, decoded_registers _ _ _ _ h hok⟩

/-- Settles O24: on the exception path the echo check and then the length check pick the outcome. -/
theorem decodeRoutesExceptionFrames : Obligations.DecodeRoutesExceptionFrames := by
  intro s hslave hfunc hlong hfits hok hown hx
  have h : Addressed s := ⟨⟨hslave, hfunc, hlong, hfits⟩, hok, hown⟩
  obtain ⟨t, r⟩ := exists_frameExamined h.toExaminable
  refine ⟨t, r.next, r.crc, r.rfunc, r.rplen, r.rcount hx, r.frame, r.lengths, r.tx, fun hne => ?_, fun heq hempty => ?_,
    fun heq hmore => ?_⟩
  · obtain ⟨hfin, hexcode, -⟩ := h.outcome_of_exec r.next (h.exec_decode_of_foreignException hx hne)
    exact ⟨hfin, hexcode⟩
  · obtain ⟨hfin, hexcode, -⟩ := h.outcome_of_exec r.next (h.exec_decode_of_emptyException hx heq hempty)
    exact ⟨hfin, hexcode⟩
  · obtain ⟨hfin, hexcode, -⟩ := h.outcome_of_exec r.next (h.exec_decode_of_exception hx heq hmore)
    exact ⟨hfin, hexcode⟩

/-- Settles O25: the function check opens the normal path. -/
theorem decodeRejectsOtherFunctions : Obligations.DecodeRejectsOtherFunctions := by
  intro s hslave hfunc hlong hfits hok hown hx hne
  have h : Addressed s := ⟨⟨hslave, hfunc, hlong, hfits⟩, hok, hown⟩
  exact ⟨_, h.exec_decode_of_otherFunction hx hne, decoded_registers _ _ _ _ h.toExaminable hok⟩

/-- Settles O26: FUNC picks whether the payload is checked, and the byte count whether it passes. -/
theorem decodeChecksReadPayloads : Obligations.DecodeChecksReadPayloads := by
  intro s hslave hfunc hlong hfits hok hown hf
  have h : Addressed s := ⟨⟨hslave, hfunc, hlong, hfits⟩, hok, hown⟩
  obtain ⟨t, r⟩ := exists_frameExamined h.toExaminable
  refine ⟨t, r.next, r.crc, r.rfunc, r.rplen, r.excode (h.isException_eq_false hf), r.frame, r.lengths, r.tx,
    fun h3 h4 => ?_, fun hread => ⟨fun hbad => ?_, fun hcount hrest hqty => ?_⟩⟩
  · obtain ⟨hfin, -, hrcount⟩ := h.outcome_of_exec r.next (h.exec_decode_of_uncheckedPayload hf h3 h4)
    exact ⟨hfin, hrcount⟩
  · obtain ⟨hfin, -, hrcount⟩ := h.outcome_of_exec r.next (h.exec_decode_of_badPayload hf hread hbad)
    exact ⟨hfin, hrcount⟩
  · obtain ⟨hfin, -, hrcount⟩ := h.outcome_of_exec r.next (h.exec_decode_of_readResponse hf hread hcount hrest hqty)
    exact ⟨hfin, by rw [hrcount, BitVec.toNat_ofNat, Nat.mod_eq_of_lt (by omega)]⟩

/-- Settles O28: only the exception path ends as EXCEPTION, behind its echo check, and it leaves RFUNC as examined. -/
theorem exceptionReportsTheRequestedFunction : Obligations.ExceptionReportsTheRequestedFunction := by
  intro s t ht hk
  have answer {u : State} (h : decodeWith .strict s = .next u) : u = t := Host.Outcome.next.inj (h.symm.trans ht)
  rcases decodeWith_cases .strict s with
    ⟨e, -, h⟩ | ⟨-, -, ⟨-, h⟩ | ⟨-, ⟨e, -, h⟩ | ⟨hx, hecho, -, h⟩ | ⟨-, -, -, -, h⟩ | ⟨-, -, h⟩⟩⟩
  · obtain rfl := answer h; cases hk
  · obtain rfl := answer h; cases hk
  · obtain rfl := answer h; cases hk
  · obtain rfl := answer h
    exact ⟨bne_eq_false_iff_eq.1 (hecho rfl), hx, rfl⟩
  · obtain rfl := answer h; cases hk
  · obtain rfl := answer h; cases hk

/-- Settles O29: the reading is looked at only where the frame fails the echo check on the exception path. -/
theorem readingsDifferOnlyOnForeignExceptions : Obligations.ReadingsDifferOnlyOnForeignExceptions := by
  intro s h
  have hecho : s.isException = true → s.echoMismatch = false := fun hx => bne_eq_false_iff_eq.2 (h hx)
  rw [decodeWith, decodeWith, parseFrame_strict_eq_bit7Only _ hecho]

/-- Settles O30: the frame verifies, its header passes every check, and its values stand where R180 reads them. -/
theorem readResponsesDecodeToTheirValues : Obligations.ReadResponsesDecodeToTheirValues := by
  intro s f vs hread hmax hslave hf hqty hlen hframe
  subst hf
  have resp : HoldsReadResponse s (5 + 2 * vs.length) s.func vs := hframe
  obtain ⟨hown, hfunc, hcount⟩ := resp.header
  have hbit7 : s.func.getLsbD 7 = false := by
    rcases hread with h | h
    · rw [h]; decide
    · rw [h]; decide
  have hbytes : (s.rxByte 2).toNat = 2 * vs.length := by
    rw [hcount, BitVec.toNat_ofNat, Nat.mod_eq_of_lt (by omega)]
  have h : Addressed s := ⟨⟨hslave, hbit7, by omega, by omega⟩, hlen ▸ resp.verify_eq_true, hown⟩
  obtain ⟨hfin, -, -, -, hrplen, hrcount, hkept, -⟩ := decoded_registers .data .noError 0#8
    (BitVec.ofNat 8 ((s.rxByte 2).toNat / 2)) h.toExaminable h.verified
  have hnext := h.exec_decode_of_readResponse hfunc hread (by omega) (by omega) (by omega)
  have hregisters : (BitVec.ofNat 8 ((s.rxByte 2).toNat / 2)).toNat = vs.length := by
    rw [BitVec.toNat_ofNat, Nat.mod_eq_of_lt (by omega)]
    omega
  exact ⟨_, hnext, hfin, by rw [hrcount, hregisters], by omega, fun j hj => (hkept.regValue j).trans (resp.regValue_eq hj)⟩

end Sys2Proof.Safety
end

section
/-! PROOFS. The statement that the block never stops (60_exceptions.md R204). -/

namespace Sys2Proof.Safety

open Sys2Proof.Machine

/-- Settles O45: each case of a step has its next state, the completion of a failing or an illegal command among them. -/
theorem everyStepHasANextState : Obligations.EveryStepHasANextState := by
  intro s
  obtain ⟨t, ht, -⟩ := step_cases s
  exact ⟨t, ht⟩

end Sys2Proof.Safety
end

section
/-! SUPPORT. Edges in reset (70_reset_and_hazards.md R230), and the end of a run (R245): what its last step does, and that
nothing follows it but edges without a transaction. -/

namespace Sys2Proof.Safety

open Sys2Proof.Machine

/-! ## Edges in reset -/

/-- What a step at an edge in reset leaves: the engine idle, every register at its reset value, both buffers as they were,
0 for a read; and it samples rst_n. -/
structure EdgeInReset (s t : State) : Prop where
  est : t.est = .idle
  regs : ∀ r : Reg, t.regWord r = State.reset.regWord r
  rstN : t.rstN = s.rstN
  live : t.live = s.rstN
  inputs : t.inputs = s.inputs.tail
  tx : TxKept s t
  rx : RxKept s t
  readsZero : ∀ a, s.comingTxn = some (.read a) → t.prdata = some 0#32

theorem step_edgeInReset {s : State} (he : s.comingEdge = true) (hr : s.running = false) :
    ∃ t, step s = .next t ∧ EdgeInReset s t :=
  ⟨_, step_held he hr, rfl, fun _ => rfl, rfl, rfl, rfl, fun _ => rfl, fun _ => rfl, fun a hx => by rw [hx]; rfl⟩

/-! ## What is to come -/

/-- A coming transaction is that of an edge. -/
theorem comingEdge_of_comingTxn {s : State} {x : Txn} (hx : s.comingTxn = some x) : s.comingEdge = true := by
  cases he : s.comingEdge
  · obtain ⟨lv, rest, hi, -⟩ := event_of_not_edge he
    rw [State.comingTxn, hi] at hx
    cases hx
  · rfl

/-- Where nothing to come brings a transaction, the coming event has none. -/
theorem comingTxn_eq_none {s : State} (h : ∀ x ∈ s.inputs, bringsTransaction x = false) : s.comingTxn = none := by
  unfold State.comingTxn
  cases hi : s.inputs with
  | nil => rfl
  | cons x rest =>
    have hx := h x (by rw [hi]; exact List.mem_cons_self)
    cases x with
    | edge b =>
      cases b with
      | none => rfl
      | some _ => cases hx
    | poll => cases hx
    | rst _ => rfl

/-- An event brings nothing new to come. -/
theorem inputs_event_subset (s : State) : ∀ x ∈ s.event.inputs, x ∈ s.inputs := by
  intro x hx
  cases he : s.comingEdge
  · obtain ⟨lv, rest, hi, hev⟩ := event_of_not_edge he
    rw [hev] at hx
    rw [hi]
    exact List.mem_cons_of_mem _ hx
  · obtain ⟨l, hl, hev⟩ := event_of_edge he
    rw [hev] at hx
    exact hl x hx

theorem inputs_step_subset {s t : State} (h : step s = .next t) : ∀ x ∈ t.inputs, x ∈ s.inputs := by
  obtain ⟨u, hu, -, hinputs⟩ := step_keeps_port_of_event s
  rw [hu] at h
  cases h
  rw [hinputs]
  exact inputs_event_subset s

/-! ## Runs -/

/-- A run of `j + k` steps is its first `j` steps and a run of `k` from where they end. -/
theorem run_add {s t : State} {j : Nat} (h : Host.Core.run Sys2Proof.core j s = .next t) (k : Nat) :
    Host.Core.run Sys2Proof.core (j + k) s = Host.Core.run Sys2Proof.core k t := by
  induction j generalizing s with
  | zero =>
    cases h
    rw [Nat.zero_add]
  | succ j ih =>
    obtain ⟨u, hu, -⟩ := step_cases s
    rw [run_succ hu] at h
    rw [Nat.succ_add, run_succ hu]
    exact ih h

theorem inputs_run_subset {s t : State} {k : Nat} (h : Host.Core.run Sys2Proof.core k s = .next t) :
    ∀ x ∈ t.inputs, x ∈ s.inputs := by
  induction k generalizing s with
  | zero =>
    cases h
    exact fun _ hx => hx
  | succ k ih =>
    obtain ⟨u, hu, -⟩ := step_cases s
    rw [run_succ hu] at h
    exact fun x hx => inputs_step_subset hu x (ih h x hx)

/-- Where the block is idle and out of reset, and neither a transaction nor a reset is to come, a run changes nothing but the
port. -/
theorem run_quiet {s : State} (hr : s.running = true) (hb : s.busy = false) (hn : NoReset s)
    (hq : ∀ x ∈ s.inputs, bringsTransaction x = false) (k : Nat) :
    ∃ p l, Host.Core.run Sys2Proof.core k s = .next { s with prdata := p, inputs := l } := by
  induction k with
  | zero => exact ⟨s.prdata, s.inputs, rfl⟩
  | succ k ih =>
    obtain ⟨p, l, hrun⟩ := ih
    have hl := inputs_run_subset hrun
    have he := comingEdge_of_noReset (hn.of_subset hl)
    have hx := comingTxn_eq_none fun x hx => hq x (hl x hx)
    exact ⟨none, l.tail, (run_succ_last hrun).trans (step_quiet he hr hb hx)⟩

/-! ## The end of a run -/

/-- An edge out of reset that reads STATUS reads the STATUS word before it (20_memory.md R70). -/
theorem prdata_event_of_statusRead {s : State} (hr : s.running = true)
    (hx : s.comingTxn = some (.read Reg.status.paddr)) : s.event.prdata = some s.statusWord := by
  obtain ⟨l, -, hev⟩ := event_of_edge (comingEdge_of_comingTxn hx)
  obtain ⟨n, hn⟩ := runningEdge_eq_transact s (some (.read Reg.status.paddr))
  have hread : s.busRead Reg.status.paddr = (s.statusWord, s) := by
    rw [State.busRead_of_exact] <;> rw [decodeAddr_paddr] <;> rfl
  rw [hev, State.clockEdge, if_pos hr, hx, hn, State.transact, hread]

/-- The read that ends a run finds the engine idle, since the word it returns is the STATUS word before it. -/
theorem EndingStep.busy_eq_false {s t : State} (h : EndingStep s t) : s.busy = false := by
  obtain ⟨hnext, hr, hx, ⟨w, hw, hw0⟩, -⟩ := h
  obtain ⟨u, hu, hport, -⟩ := step_keeps_port_of_event s
  rw [hu] at hnext
  cases hnext
  rw [hport, prdata_event_of_statusRead hr hx] at hw
  cases hw
  rw [← s.statusWord_busy]
  exact hw0

/-- The step that ends a run changes nothing but the port. -/
theorem EndingStep.eq_withPort {s t : State} (h : EndingStep s t) : ∃ p l, t = { s with prdata := p, inputs := l } := by
  rcases step_at_edge h.running (comingEdge_of_comingTxn h.readsStatus) h.next with ⟨hb, l, ht⟩ | e
  · rw [h.readsStatus, State.transact, State.busRead_of_idle hb] at ht
    exact ⟨_, l, ht⟩
  · exact absurd e.busy (by simp [h.busy_eq_false])

/-- No step after the end of a run ends it again: the last transaction is behind it. -/
theorem EndingStep.length_le {s u t u' t' : State} {k k' : Nat} (h : EndingStep u t) (h' : EndingStep u' t')
    (hrun : Host.Core.run Sys2Proof.core k s = .next u) (hrun' : Host.Core.run Sys2Proof.core k' s = .next u') :
    k' ≤ k := by
  by_contra hlt
  obtain ⟨j, rfl⟩ : ∃ j, k' = k + 1 + j := ⟨k' - (k + 1), by omega⟩
  rw [run_add ((run_succ_last hrun).trans h.next)] at hrun'
  have hnone := comingTxn_eq_none fun x hx => h.last x (inputs_run_subset hrun' x hx)
  rw [h'.readsStatus] at hnone
  cases hnone

theorem Ended.unique {s t t' : State} (h : Ended s t) (h' : Ended s t') : t' = t := by
  obtain ⟨k, u, hrun, hend⟩ := h
  obtain ⟨k', u', hrun', hend'⟩ := h'
  obtain rfl : k = k' := Nat.le_antisymm (hend'.length_le hend hrun' hrun) (hend.length_le hend' hrun hrun')
  obtain rfl : u = u' := Host.Outcome.next.inj (hrun.symm.trans hrun')
  exact Host.Outcome.next.inj (hend'.next.symm.trans hend.next)

/-- At the end of a run the block is idle and out of reset, and nothing to come brings a transaction. -/
theorem Ended.at_end {s t : State} (h : Ended s t) :
    t.running = true ∧ t.est = .idle ∧ ∀ x ∈ t.inputs, bringsTransaction x = false := by
  obtain ⟨k, u, -, hend⟩ := h
  have hlast := hend.last
  have hidle : u.est = .idle :=
    not_not.1 (of_decide_eq_false (u.busy_eq_decide.symm.trans hend.busy_eq_false))
  obtain ⟨p, l, rfl⟩ := hend.eq_withPort
  exact ⟨hend.running, hidle, hlast⟩

end Sys2Proof.Safety
end

section
/-! PROOFS. The statements about reset and the end of a run (70_reset_and_hazards.md). -/

namespace Sys2Proof.Safety

open Sys2Proof.Machine

/-- Settles O58: the ending read finds the engine idle with the last transaction behind it, so no later step can end the run
again, and without a reset every later step changes the port only. -/
theorem endedRunsHaveOneResult : Obligations.EndedRunsHaveOneResult := by
  intro s t h
  obtain ⟨hr, hidle, hquiet⟩ := h.at_end
  refine ⟨hidle, fun t' h' => h.unique h', fun hn k => ?_⟩
  obtain ⟨p, l, hrun⟩ := run_quiet hr (by rw [State.busy, hidle]) hn hquiet k
  exact ⟨_, hrun, fun _ => rfl, fun _ => rfl, fun _ => rfl⟩

/-- Settles O56: the assertion takes a step by itself, and while rst_n is 0 each edge is an edge in reset that samples 0. -/
theorem resetAbandonsAndHolds : Obligations.ResetAbandonsAndHolds := by
  refine ⟨fun s rest hi => ⟨_, step_rst hi, rfl, fun _ => rfl, rfl, rfl⟩, fun s hrst he => ?_⟩
  obtain ⟨t, ht, e⟩ := step_edgeInReset he (by rw [State.running, hrst, Bool.false_and])
  exact ⟨t, ht, e.est, e.regs, e.rstN.trans hrst, e.live.trans hrst, e.inputs, e.tx, e.rx, e.readsZero⟩

/-- Settles O57: the release changes the pin and the port only, and the next edge is still an edge in reset, which samples
1. -/
theorem releaseTakesTheBlockOutOfReset : Obligations.ReleaseTakesTheBlockOutOfReset := by
  refine ⟨fun s rest hi => ⟨_, step_rst hi, rfl, rfl, ?block, rfl, rfl⟩, fun s hrst hlive he => ?edge⟩
  case block =>
    exact ⟨⟨rfl, rfl, rfl, rfl, rfl⟩, ⟨rfl, rfl, rfl, rfl⟩, ⟨rfl, rfl, rfl⟩, rfl, rfl, rfl, rfl, rfl, rfl, fun _ => rfl,
      fun _ => rfl⟩
  case edge =>
    obtain ⟨t, ht, e⟩ := step_edgeInReset he (by rw [State.running, hlive, Bool.and_false])
    have hrun : t.running = true := by rw [State.running, e.rstN, e.live, hrst, Bool.and_true]
    exact ⟨t, ht, hrun, e.est, e.regs, e.inputs, e.tx, e.rx, e.readsZero⟩

end Sys2Proof.Safety
end
